-- ==== Sys2Proof/Word.lean ====
section
/-! DEFINITION. The words of the block (spec/00_scope.md R8, spec/30_encoding.md R70): 8-bit bytes and 16-bit command words. -/

namespace Sys2Proof

/-- A byte: an 8-bit unsigned value (R8). -/
abbrev Byte := BitVec 8

/-- A command word, written to the command port in one write (R54, R70). -/
abbrev Word := BitVec 16

end Sys2Proof
end

