-- ==== Sys2Proof/Syntax.lean ====
section
/-! DEFINITION. The 13 commands of the block (spec/30_encoding.md R72), one constructor per row of the opcode table. -/

namespace Sys2Proof

/-- A command. Operands are what R71 says they are: one bit or one unsigned byte. -/
inductive Instr where
  /-- NOP (40_codec.md R106). -/
  | nop
  /-- OW_RESET (42_transaction.md R140). -/
  | owReset
  /-- OW_WRITE_BIT v (40_codec.md R107). -/
  | owWriteBit (v : Bool)
  /-- OW_READ_BIT (40_codec.md R108). -/
  | owReadBit
  /-- OW_WRITE_BYTE d (42_transaction.md R142). -/
  | owWriteByte (d : Byte)
  /-- OW_READ_BYTE (42_transaction.md R143). -/
  | owReadByte
  /-- CRC_INIT (41_crc8.md R125). -/
  | crcInit
  /-- CRC_UPDATE d (41_crc8.md R126). -/
  | crcUpdate (d : Byte)
  /-- SEQ_READ_ROM (43_sequences.md R162). -/
  | seqReadRom
  /-- SEQ_CONVERT (43_sequences.md R163). -/
  | seqConvert
  /-- SEQ_READ_SCRATCHPAD (43_sequences.md R164). -/
  | seqReadScratchpad
  /-- SEQ_POLL_READ (43_sequences.md R165). -/
  | seqPollRead
  /-- SEQ_BLOCKING_READ (43_sequences.md R166). -/
  | seqBlockingRead
  deriving DecidableEq, Repr

end Sys2Proof
end

