-- ==== Sys2Proof/WellFormed.lean ====
section
/-! DEFINITION. Which command words are valid: the opcode map of spec/30_encoding.md R72 as data, and R73's test over it,
written apart from the decoder so that the two can be held against each other. A term of `Instr` carries its operands'
ranges in its types (R71), so what can be ill-formed here is a word. -/

namespace Sys2Proof

/-- One row of the opcode map (R72): the word w belongs to it when `w & mask = pattern`. -/
structure OpcodeRow where
  mnemonic : String
  pattern : Word
  mask : Word
  deriving DecidableEq, Repr

/-- The opcode map, row by row (R72). -/
def opcodeMap : List OpcodeRow :=
  [ ⟨"NOP", 0x0000, 0xFFFF⟩, ⟨"OW_RESET", 0x1000, 0xFFFF⟩, ⟨"OW_WRITE_BIT", 0x2000, 0xFEFF⟩,
    ⟨"OW_READ_BIT", 0x3000, 0xFFFF⟩, ⟨"OW_WRITE_BYTE", 0x4000, 0xFF00⟩, ⟨"OW_READ_BYTE", 0x5000, 0xFFFF⟩,
    ⟨"CRC_INIT", 0x6000, 0xFFFF⟩, ⟨"CRC_UPDATE", 0x7000, 0xFF00⟩, ⟨"SEQ_READ_ROM", 0x8000, 0xFFFF⟩ ] ++
  [ ⟨"SEQ_CONVERT", 0x9000, 0xFFFF⟩, ⟨"SEQ_READ_SCRATCHPAD", 0xA000, 0xFFFF⟩, ⟨"SEQ_POLL_READ", 0xB000, 0xFFFF⟩,
    ⟨"SEQ_BLOCKING_READ", 0xC000, 0xFFFF⟩ ]

/-- A row selects a word (R72). -/
def OpcodeRow.selects (r : OpcodeRow) (w : Word) : Bool := w &&& r.mask == r.pattern

/-- The rows that select a word; R72 says there is at most one. -/
def rowsOf (w : Word) : List OpcodeRow := opcodeMap.filter (·.selects w)

/-- A word is valid when exactly one row of the map matches it (R73); every other word is illegal. -/
def validWord (w : Word) : Bool := (rowsOf w).length == 1

end Sys2Proof
end

