-- ==== Sys2Proof/Decode.lean ====
section
/-! DEFINITION. The decoder, total on every 16-bit word (spec/30_encoding.md R70-R73), and after it the encoder. -/

namespace Sys2Proof

/-- Why a word is illegal (R73). -/
inductive DecodeReject where
  /-- OP in 0xD..0xF. -/
  | reservedOpcode
  /-- A reserved A or D field that is not zero. -/
  | nonzeroReservedField
  deriving DecidableEq, Repr

/-- OP, bits 15:12 (R70). -/
def opField (w : Word) : BitVec 4 := w.extractLsb' 12 4

/-- A, bits 11:8 (R70). -/
def aField (w : Word) : BitVec 4 := w.extractLsb' 8 4

/-- D, bits 7:0 (R70). -/
def dField (w : Word) : Byte := w.extractLsb' 0 8

/-- Accept i when the reserved fields are zero, else reject by name (R73). -/
def ifReservedZero (zero : Bool) (i : Instr) : Except DecodeReject Instr :=
  if zero then .ok i else .error .nonzeroReservedField

/-- Decode a command word (R72, R73). -/
def decode (w : Word) : Except DecodeReject Instr :=
  let a := aField w
  let d := dField w
  let bare := a == 0 && d == 0
  match (opField w).toNat with
  | 0x0 => ifReservedZero bare .nop
  | 0x1 => ifReservedZero bare .owReset
  | 0x2 => ifReservedZero (a &&& 0xE == 0 && d == 0) (.owWriteBit (a.getLsbD 0))
  | 0x3 => ifReservedZero bare .owReadBit
  | 0x4 => ifReservedZero (a == 0) (.owWriteByte d)
  | 0x5 => ifReservedZero bare .owReadByte
  | 0x6 => ifReservedZero bare .crcInit
  | 0x7 => ifReservedZero (a == 0) (.crcUpdate d)
  | 0x8 => ifReservedZero bare .seqReadRom
  | 0x9 => ifReservedZero bare .seqConvert
  | 0xA => ifReservedZero bare .seqReadScratchpad
  | 0xB => ifReservedZero bare .seqPollRead
  | 0xC => ifReservedZero bare .seqBlockingRead
  | _ => .error .reservedOpcode

/-- The command a word stands for, or none for an illegal word (R73). -/
def decodeWord (w : Word) : Option Instr :=
  match decode w with
  | .ok i => some i
  | .error _ => none

/-- The decoder on an opcode-table word: a command is one word, written to the port whole (R54), so the bits are the word. -/
def decodeTableWord (nbits w : Nat) : Option Instr := decodeWord (BitVec.ofNat 16 (w % 2 ^ nbits))

/-- A command word from its three fields (R70). -/
def cmd16 (op a : BitVec 4) (d : Byte) : Word := op ++ a ++ d

/-- The word of a command (R72). -/
def encode : Instr → Word
  | .nop => cmd16 0x0 0 0
  | .owReset => cmd16 0x1 0 0
  | .owWriteBit v => cmd16 0x2 (if v then 1 else 0) 0
  | .owReadBit => cmd16 0x3 0 0
  | .owWriteByte d => cmd16 0x4 0 d
  | .owReadByte => cmd16 0x5 0 0
  | .crcInit => cmd16 0x6 0 0
  | .crcUpdate d => cmd16 0x7 0 d
  | .seqReadRom => cmd16 0x8 0 0
  | .seqConvert => cmd16 0x9 0 0
  | .seqReadScratchpad => cmd16 0xA 0 0
  | .seqPollRead => cmd16 0xB 0 0
  | .seqBlockingRead => cmd16 0xC 0 0

end Sys2Proof
end

