-- ==== Sys2Proof/Config.lean ====
section
/-! DEFINITION. What the spec fixes for the block (spec/00_scope.md R7), the parameters it leaves to an implementation, and the
free values: constants without a body, of which nothing can be proved. -/

namespace Sys2Proof

/-- The two rates the block selects (R7, R9): `low` is 9600 baud, `high` is 115200 baud. -/
inductive Rate where
  | low
  | high
  deriving DecidableEq, Repr, Inhabited

/-- The transport's selected rate BAUD (10_state.md R31), in {UNSET, 9600, 115200}. -/
inductive Baud where
  | unset
  | rate (r : Rate)
  deriving DecidableEq, Repr, Inhabited

/-- What one `Recv` returns (R9): a byte or ERR. -/
inductive Answer where
  | byte (e : Byte)
  | err
  deriving DecidableEq, Repr, Inhabited

/-- The parameter ECHO_POLICY (R7, 40_codec.md R103, 92_eei_decisions.md D6). -/
inductive EchoPolicy where
  | aliasZero
  | lineError
  deriving DecidableEq, Repr, Inhabited

namespace Config

/-- RESET_PULSE (R7). -/
def resetPulse : Byte := 0xF0

/-- BIT1_BYTE (R7): the byte that encodes bus bit 1. -/
def bit1Byte : Byte := 0xFF

/-- BIT0_BYTE (R7): the byte that encodes bus bit 0. -/
def bit0Byte : Byte := 0x00

/-- CRC_POLY (R7), the reflected form of the polynomial. -/
def crcPoly : Byte := 0x8C

/-- CRC_INIT_VALUE (R7, D16). -/
def crcInitValue : Byte := 0x00

/-- TEMP_SIGN_OFFSET (R7, 44_temperature_decode.md R191, D26), of the host-side decode only. -/
def tempSignOffset : Int := 128

/-- The default of ECHO_POLICY (R7, D6). -/
def defaultEchoPolicy : EchoPolicy := .aliasZero

/-- The bus command bytes that the sequences send (30_encoding.md R76). -/
def readRomCommand : Byte := 0x33

/-- skip-ROM (R76). -/
def skipRomCommand : Byte := 0xCC

/-- convert-temperature (R76). -/
def convertCommand : Byte := 0x44

/-- read-scratchpad (R76). -/
def readScratchpadCommand : Byte := 0xBE

/-- BAUD_AT_RESET (R7, R34, D22), OPEN: a constant without a body. Log 1; safe. -/
opaque baudAtReset : Baud

/-- FREE VALUE: what the transport answers to the n-th `Recv` for which State holds no scripted answer (R9, D11).
Log 3; safe: a claim holds whatever it is. -/
opaque freeAnswer : Nat → Answer

/-- FREE VALUE: the transport's rate after a block reset has abandoned a running command (70_reset_and_hazards.md R241,
93_implementation_defined.md I18). Log 11; safe. -/
opaque baudAfterAbandon : Nat → Baud

end Config

end Sys2Proof
end

