-- ==== Sys2Proof/Machine/Crc.lean ====
section
/-! DEFINITION. The CRC-8 function (spec/41_crc8.md R120, R121). -/

namespace Sys2Proof.Machine

/-- One of the 8 iterations of `crcStep` (R120): test the low bit, shift right, XOR the polynomial in if it was set. -/
def crcShift (acc : Byte) : Byte :=
  if acc.getLsbD 0 then acc >>> 1 ^^^ Config.crcPoly else acc >>> 1

/-- n iterations of `crcShift`. -/
def crcShifts : Nat → Byte → Byte
  | 0, acc => acc
  | n + 1, acc => crcShifts n (crcShift acc)

/-- `crcStep(acc, b)` (R120). -/
def crcStep (acc b : Byte) : Byte := crcShifts 8 (acc ^^^ b)

/-- `crc8` of a byte list (R121). -/
def crc8 (bytes : List Byte) : Byte := bytes.foldl crcStep Config.crcInitValue

end Sys2Proof.Machine
end

