-- ==== Sys2Proof/Machine/State.lean ====
section
/-! DEFINITION. The state of the machine as plain data (spec/10_state.md R20-R34), and the machine right after reset. -/

namespace Sys2Proof.Machine

/-- PHASE, the ghost transaction state (10_state.md R32). -/
inductive Phase where
  | idle
  | resetIssued
  | addressed
  | exchanging
  deriving DecidableEq, Repr

/-- A transport event (00_scope.md R9): `W`, `B(r)`, `S(b)`, and `R(e)` or `R(ERR)`. -/
inductive Event where
  | w
  | b (r : Rate)
  | s (v : Byte)
  | r (a : Answer)
  deriving DecidableEq, Repr

/-- The spec's model faults (60_exceptions.md R214). They are RECORDED in `State.faults` and stop nothing: the block goes on
exactly as its rules say. No step ends in `Host.Outcome.fault`. Log 16. -/
inductive Fault where
  /-- Recorded by the bodies of OW_WRITE_BYTE and OW_READ_BYTE in a PHASE that does not allow them (42_transaction.md R147).
  Safe: a fault is recorded where hardware just sends the byte. -/
  | protocolViolation
  /-- Recorded by the host's decodes when byte 7 is 0 or the bytes were not delivered with RESULT = OK
  (44_temperature_decode.md R190, R193). Safe: no value is given. -/
  | tempDecodeUndefined
  deriving DecidableEq, Repr

/-- Why a step could be refused. Every command has its meaning, so no step is. -/
inductive Refusal where
  /-- Raised by nobody: every arm of `exec` calls a meaning. It would be safe. -/
  | notModelled (mnemonic : String)
  deriving DecidableEq, Repr

/-- What the outside world does next, each landing between two block steps (20_memory.md R53; Log 5). -/
inductive Input where
  /-- The host writes a command word to the command port (40_codec.md R100). -/
  | command (w : Word)
  /-- The host reads STATUS until BUSY = 0 (30_encoding.md R79). -/
  | wait
  /-- The host reads the register at address a (20_memory.md R51). -/
  | readReg (a : Byte)
  /-- Block reset (70_reset_and_hazards.md R240, R241). -/
  | blockReset
  /-- n transport events pass before what follows lands (Log 5). -/
  | pause (n : Nat)
  /-- The transport changes whether its transmit buffer has space (00_scope.md R9, 10_state.md R31). -/
  | txSpace (b : Bool)
  /-- The host applies `tempInt` to SP (44_temperature_decode.md R191). -/
  | decodeTempInt
  /-- The host applies `temperature` to SP (44_temperature_decode.md R193). -/
  | decodeTemperature
  /-- The host decodes SN (44_temperature_decode.md R195). -/
  | decodeSerial
  deriving DecidableEq, Repr

/-- What a host action gave the host (Log 13). -/
inductive HostRecord where
  /-- The value v read at address a (20_memory.md R51). -/
  | reg (a v : Byte)
  /-- `tempInt(SP)` (44_temperature_decode.md R191). -/
  | tempInt (t : Int)
  /-- `temperature(SP)`, an exact rational (44_temperature_decode.md R193). -/
  | temperature (t : Rat)
  /-- The fields of the serial number (44_temperature_decode.md R195). -/
  | serial (family : Byte) (serial : Nat) (crcByte : Byte)
  deriving DecidableEq, Repr

/-- The whole state: the four groups of 10_state.md R20, the parameter ECHO_POLICY, the outside world's next actions, and the
model's own ghosts. -/
structure State where
  /-- STATUS (R21): BUSY 7, OVR 6, RESULT 3:0. -/
  status : Byte
  /-- RXDATA (R23). -/
  rxdata : Byte
  /-- RXRAW (R24). -/
  rxraw : Byte
  /-- CRC (R25). -/
  crc : Byte
  /-- SN[0..7] (R26). -/
  sn : Vector Byte 8
  /-- SP[0..8] (R27). -/
  sp : Vector Byte 9
  /-- SEQPOS (R29, R30): how many events of the running command's trace are done. Log 14. -/
  seqpos : Nat
  /-- SHIFT (R30). -/
  shift : Byte
  /-- BITCNT (R30), 0..8. -/
  bitcnt : Fin 9
  /-- BYTECNT (R30), 0..9. -/
  bytecnt : Fin 10
  /-- CUR (R30), the command word being executed. -/
  cur : Word
  /-- BAUD (R31), the transport's. -/
  baud : Baud
  /-- The transmit buffer's one observable, "has space" (R31). -/
  txSpace : Bool
  /-- The receive side (R31): the transport's next answers, oldest first. Log 3. -/
  rx : List Answer
  /-- The model's own: how many free values have been drawn. Log 3. -/
  draws : Nat
  /-- PHASE (R32), ghost. -/
  phase : Phase
  /-- The fault record (60_exceptions.md R214), ghost, oldest first. -/
  faults : List Fault
  /-- The transport trace (00_scope.md R9), ghost, oldest first. Log 9. -/
  trace : List Event
  /-- ECHO_POLICY (00_scope.md R7), a strap no step changes. Log 4. -/
  policy : EchoPolicy
  /-- What the outside world does next, first action first. Log 5. -/
  inputs : List Input
  /-- What the host has read and decoded, oldest first. Log 13. -/
  hostLog : List HostRecord
  /-- RXDATA holds a value read from the bus (R35), ghost. Log 12. -/
  rxValid : Bool
  /-- SN was delivered with RESULT = OK (R35, R190), ghost. Log 12. -/
  snValid : Bool
  /-- SP was delivered with RESULT = OK (R35, R190), ghost. Log 12. -/
  spValid : Bool
  deriving DecidableEq, Repr

/-- The machine right after reset (10_state.md R34). BAUD is the OPEN constant (Log 1); `txSpace`, `rx` and the model's own
fields have the values their log entries name (Log 2, 3, 5, 9, 12, 13). -/
def State.reset : State where
  status := 0x00
  rxdata := 0x00
  rxraw := 0x00
  crc := 0x00
  sn := Vector.replicate 8 0x00
  sp := Vector.replicate 9 0x00
  seqpos := 0
  shift := 0x00
  bitcnt := 0
  bytecnt := 0
  cur := 0x0000
  baud := Config.baudAtReset
  txSpace := true
  rx := []
  draws := 0
  phase := .idle
  faults := []
  trace := []
  policy := Config.defaultEchoPolicy
  inputs := []
  hostLog := []
  rxValid := false
  snValid := false
  spValid := false

end Sys2Proof.Machine
end

