-- ==== Sys2Proof/Machine/Flags.lean ====
section
/-! DEFINITION. The fields of STATUS (spec/10_state.md R21) and the result codes (R22, spec/60_exceptions.md R210). -/

namespace Sys2Proof.Machine

/-- The result codes that are produced (R22); 7..15 never are. -/
inductive Result where
  | ok
  | noDevice
  | transportError
  | checksumMismatch
  | busyConverting
  | lineError
  | illegalCommand
  deriving DecidableEq, Repr

/-- The 4-bit encoding of a result code (R22). -/
def resultCode : Result → BitVec 4
  | .ok => 0
  | .noDevice => 1
  | .transportError => 2
  | .checksumMismatch => 3
  | .busyConverting => 4
  | .lineError => 5
  | .illegalCommand => 6

/-- STATUS[7] (R21). -/
def statusBusy (st : Byte) : Bool := st.getLsbD 7

/-- STATUS[6] (R21). -/
def statusOvr (st : Byte) : Bool := st.getLsbD 6

/-- STATUS[5:4] (R21), read as 0. -/
def statusReserved (st : Byte) : BitVec 2 := st.extractLsb' 4 2

/-- STATUS[3:0] (R21). -/
def statusResult (st : Byte) : BitVec 4 := st.extractLsb' 0 4

/-- Write STATUS[7] and leave the other bits. -/
def withBusy (b : Bool) (st : Byte) : Byte := st &&& 0x7F ||| (if b then 0x80 else 0x00)

/-- Write STATUS[6] and leave the other bits. -/
def withOvr (b : Bool) (st : Byte) : Byte := st &&& 0xBF ||| (if b then 0x40 else 0x00)

/-- Write STATUS[3:0] and leave the other bits. -/
def withResult (c : Result) (st : Byte) : Byte := st &&& 0xF0 ||| (resultCode c).zeroExtend 8

end Sys2Proof.Machine
end

