-- ==== Sys2Proof/Machine/Operands.lean ====
section
/-! DEFINITION. Bits and bytes on their way to and from the bus: the slot bytes (spec/40_codec.md R102, R103), bit selection and
byte assembly (spec/20_memory.md R55, spec/42_transaction.md R144). -/

namespace Sys2Proof.Machine

/-- `encodeBit` (R102): the byte sent for a bus bit at 115200 baud. -/
def encodeBit (b : Bool) : Byte := if b then Config.bit1Byte else Config.bit0Byte

/-- What an echo byte decodes to (R103): a bus bit, or LINE for a non-canonical echo. -/
inductive Echo where
  | bit (b : Bool)
  | line
  deriving DecidableEq, Repr

/-- `decodeEcho` (R103), under either value of ECHO_POLICY. -/
def decodeEcho (p : EchoPolicy) (e : Byte) : Echo :=
  if e = Config.bit1Byte then .bit true
  else match p with
    | .aliasZero => .bit false
    | .lineError => if e = Config.bit0Byte then .bit false else .line

/-- `zext_8` (00_scope.md R8) of a bus bit. -/
def zext8 (b : Bool) : Byte := if b then 0x01 else 0x00

/-- `d[i]` (R8, R55): the bit sent in exchange i of a byte. -/
def bitOf (d : Byte) (i : Fin 8) : Bool := d.getLsbD i

/-- One step of byte assembly (R143, R144): `SHIFT <- (SHIFT >> 1) | (zext_8(r) << 7)`. -/
def shiftIn (shift : Byte) (r : Bool) : Byte := shift >>> 1 ||| zext8 r <<< 7

/-- `sext_8` (R8): a byte read as a two's-complement integer. -/
def sext8 (v : Byte) : Int := v.toInt

end Sys2Proof.Machine
end

