-- ==== Sys2Proof/Machine/Ops.lean ====
section
/-! DEFINITION. The named operations over the state: the register read port (spec/20_memory.md R51), the four transport
primitives (spec/00_scope.md R9), acceptance, `finish` and overrun (spec/40_codec.md R100, R101, spec/60_exceptions.md R215),
and block reset (spec/70_reset_and_hazards.md R240, R241). The block has no exceptions: `finish` with a failing code is what
stands for taking one (spec/60_exceptions.md R219), and there is nothing to return from (R220). -/

namespace Sys2Proof.Machine

/-- STATUS.BUSY (10_state.md R21). -/
def State.busy (s : State) : Bool := statusBusy s.status

/-- `RegRead(a)` (R51): total on the 256 addresses, reserved ones read 0x00. -/
def regRead (a : Byte) (s : State) : Byte :=
  let n := a.toNat
  if n = 0x00 then s.status
  else if n = 0x01 then s.rxdata
  else if n = 0x02 then s.rxraw
  else if n = 0x03 then s.crc
  else if 0x08 ≤ n ∧ n < 0x10 then s.sn.getD (n - 0x08) 0x00
  else if 0x10 ≤ n ∧ n < 0x19 then s.sp.getD (n - 0x10) 0x00
  else 0x00

/-- A transport event passes: a pending pause of the outside world counts down (Log 5). -/
def countDown : List Input → List Input
  | .pause (n + 1) :: rest => .pause n :: rest
  | inputs => inputs

/-- The block holds, so no event will pass: a pending pause ends (Log 8). -/
def endPause : List Input → List Input
  | .pause _ :: rest => .pause 0 :: rest
  | inputs => inputs

/-- The outside world acts before the running command's next event (Log 5): its next action is neither a wait for BUSY = 0 nor
a pause with events left to pass. -/
def inputDue (s : State) : Bool :=
  match s.inputs with
  | [] => false
  | .wait :: _ => false
  | .pause (_ + 1) :: _ => false
  | _ => true

/-- Record a transport event (00_scope.md R9), advance SEQPOS (10_state.md R29), count a pause down. -/
def record (e : Event) (s : State) : State :=
  { s with trace := s.trace ++ [e], seqpos := s.seqpos + 1, inputs := countDown s.inputs }

/-- What the next `Recv` returns (R9, D11): the scripted answer, or a free value when there is none. Log 3. -/
def nextAnswer (s : State) : Answer :=
  match s.rx with
  | a :: _ => a
  | [] => Config.freeAnswer s.draws

/-- That answer is used up. -/
def consumeAnswer (s : State) : State :=
  match s.rx with
  | _ :: rest => { s with rx := rest }
  | [] => { s with draws := s.draws + 1 }

/-- `SetBaud(r)` (R9). -/
def setBaud (r : Rate) (s : State) : State := record (.b r) { s with baud := .rate r }

/-- `Send(b)` (R9, D10): it has no failure outcome. -/
def send (b : Byte) (s : State) : State := record (.s b) s

/-- The state part of `Recv()` (R9); its result is `nextAnswer` of the state before. -/
def recv (s : State) : State := record (.r (nextAnswer s)) (consumeAnswer s)

/-- `PHASE <- p` (10_state.md R32). -/
def setPhase (p : Phase) (s : State) : State := { s with phase := p }

/-- `R.RXRAW <- e` (10_state.md R24). -/
def setRxraw (e : Byte) (s : State) : State := { s with rxraw := e }

/-- `R.RXDATA <- v`, a value read from the bus (10_state.md R23, R35). -/
def setRxdata (v : Byte) (s : State) : State := { s with rxdata := v, rxValid := true }

/-- `R.CRC <- v` (10_state.md R25). -/
def setCrc (v : Byte) (s : State) : State := { s with crc := v }

/-- `fault F` (00_scope.md R10, 60_exceptions.md R214): the record only grows. -/
def recordFault (f : Fault) (s : State) : State := { s with faults := s.faults ++ [f] }

/-- Acceptance of a command word by an idle block (40_codec.md R100). -/
def accept (w : Word) (s : State) : State :=
  { s with status := withOvr false (withBusy true s.status), cur := w, seqpos := 0 }

/-- A command word written while BUSY = 1 (60_exceptions.md R215): ignored, OVR set. -/
def overrun (s : State) : State := { s with status := withOvr true s.status }

/-- `finish(c)` (40_codec.md R101): RESULT, then SEQPOS, then BUSY. -/
def finish (c : Result) (s : State) : State :=
  { s with status := withBusy false (withResult c s.status), seqpos := 0 }

/-- Block reset (70_reset_and_hazards.md R240): the block's registers, the internal registers and PHASE. The transport is not
touched, but for BAUD after an abandoned command (R241, I18), which is a free value then (Log 11). The fault record stays
(60_exceptions.md R214; Log 10), and so do the trace, the strap and the outside world's own data. -/
def resetBlock (s : State) : State :=
  { State.reset with
    baud := if s.busy then Config.baudAfterAbandon s.draws else s.baud
    draws := if s.busy then s.draws + 1 else s.draws
    txSpace := s.txSpace
    rx := s.rx
    faults := s.faults
    trace := s.trace
    policy := s.policy
    inputs := s.inputs
    hostLog := s.hostLog }

end Sys2Proof.Machine
end

