-- ==== Sys2Proof/Machine/Micro.lean ====
section
/-! DEFINITION. A command's body as the fixed list of its pseudocode's operations (spec/10_state.md R29: "the block's position
in the command's fixed transport trace"): what one operation does, and running a list of them. -/

namespace Sys2Proof.Machine

/-- What `BitExchange`'s caller does with the decoded echo (40_codec.md R107, R108, 42_transaction.md R142, R143). -/
inductive BitUse where
  /-- OW_WRITE_BIT and OW_WRITE_BYTE discard it. -/
  | discard
  /-- OW_READ_BIT writes it to RXDATA. -/
  | toRxdata
  /-- OW_READ_BYTE shifts it into SHIFT. -/
  | toShift
  deriving DecidableEq, Repr

/-- One operation of a body. The first five are transport primitives, each one event; the others are register and ghost writes
and tests, which happen with the event before them (Log 15). -/
inductive Micro where
  /-- `WaitTxSpace()` (00_scope.md R9). -/
  | waitTxSpace
  /-- `SetBaud(r)` (R9). -/
  | setBaud (r : Rate)
  /-- `Send(b)` (R9). -/
  | send (b : Byte)
  /-- OW_RESET's `Recv` and its tests (42_transaction.md R140). -/
  | recvPresence
  /-- `BitExchange`'s `Recv` and its tests (40_codec.md R104). -/
  | recvBit (use : BitUse)
  /-- `PHASE <- p`. -/
  | setPhase (p : Phase)
  /-- OW_WRITE_BYTE's PHASE test (42_transaction.md R147). -/
  | checkWritePhase
  /-- OW_READ_BYTE's PHASE test (42_transaction.md R147). -/
  | checkReadPhase
  /-- `BITCNT <- i`. -/
  | setBitcnt (i : Fin 9)
  /-- `BYTECNT <- k`. -/
  | setBytecnt (k : Fin 10)
  /-- `SHIFT <- 0x00`. -/
  | clearShift
  /-- `R.RXDATA <- SHIFT`. -/
  | shiftToRxdata
  /-- `R.CRC <- 0x00` (41_crc8.md R125). -/
  | clearCrc
  /-- `R.CRC <- crcStep(R.CRC, d)` (41_crc8.md R126). -/
  | foldCrc (d : Byte)
  /-- `SN[k] <- R.RXDATA` (43_sequences.md R161). -/
  | storeSn (k : Fin 8)
  /-- `SP[k] <- R.RXDATA` (43_sequences.md R161). -/
  | storeSp (k : Fin 9)
  /-- The CRC_UPDATE body on SN[k] (R161). -/
  | foldCrcSn (k : Fin 8)
  /-- The CRC_UPDATE body on SP[k] (R161). -/
  | foldCrcSp (k : Fin 9)
  /-- SEQ_READ_ROM's test that CRC is 0 (43_sequences.md R162). -/
  | checkCrcZero
  /-- SEQ_READ_SCRATCHPAD's test that CRC is SP[8] (43_sequences.md R164). -/
  | checkCrcSp
  /-- SEQ_POLL_READ's test of the poll bit (43_sequences.md R165). -/
  | pollTest
  /-- SEQ_BLOCKING_READ's test of the poll bit: poll again from event `back` of the trace (43_sequences.md R166; Log 7). -/
  | pollLoop (back : Nat)
  /-- Ghost: whether SN counts as delivered (10_state.md R35; Log 12). -/
  | markSn (valid : Bool)
  /-- Ghost: whether SP counts as delivered (10_state.md R35; Log 12). -/
  | markSp (valid : Bool)
  deriving DecidableEq, Repr

/-- The operations that are transport events (00_scope.md R9). -/
def isEvent : Micro → Bool
  | .waitTxSpace | .setBaud _ | .send _ | .recvPresence | .recvBit _ => true
  | _ => false

/-- How many transport events a body has when nothing ends it early (70_reset_and_hazards.md R250). -/
def eventCount (body : List Micro) : Nat := body.countP isEvent

/-- What running an operation, or a body, comes to. -/
inductive Progress where
  /-- The body goes on (at its end: it returns OK). -/
  | going (s : State)
  /-- The body returned the code c (00_scope.md R10). -/
  | ended (c : Result) (s : State)
  /-- The command is still running and the step ends: an input lands, the block holds, or a poll was busy (Log 6, 7, 8). -/
  | paused (s : State)
  deriving DecidableEq, Repr

/-- `WaitTxSpace()` (R9, D30): it holds while the transport reports no space. -/
def doWaitTxSpace (s : State) : Progress :=
  if s.txSpace then .going (record .w s) else .paused { s with inputs := endPause s.inputs }

/-- OW_RESET from its `Recv` on (42_transaction.md R140, R141). -/
def doRecvPresence (s : State) : Progress :=
  match nextAnswer s with
  | .err => .ended .transportError (setPhase .idle (recv s))
  | .byte e =>
    if e = Config.resetPulse then .ended .noDevice (setPhase .idle (setRxraw e (recv s)))
    else .going (setPhase .addressed (setRxraw e (recv s)))

/-- What the caller does with a decoded bit. -/
def useBit (use : BitUse) (b : Bool) (s : State) : State :=
  match use with
  | .discard => s
  | .toRxdata => setRxdata (zext8 b) s
  | .toShift => { s with shift := shiftIn s.shift b }

/-- `BitExchange` from its `Recv` on, with the caller's handling of ERR, LINE and the bit (40_codec.md R104, R107, R108,
42_transaction.md R142, R143). -/
def doRecvBit (use : BitUse) (s : State) : Progress :=
  match nextAnswer s with
  | .err => .ended .transportError (setPhase .idle (recv s))
  | .byte e =>
    match decodeEcho s.policy e with
    | .line => .ended .lineError (setPhase .idle (setRxraw e (recv s)))
    | .bit b => .going (useBit use b (setRxraw e (recv s)))

/-- Record ProtocolViolation unless the PHASE is allowed (42_transaction.md R147); the body goes on either way. -/
def checkPhase (allowed : Bool) (s : State) : State := if allowed then s else recordFault .protocolViolation s

/-- What one operation does, apart from waiting for an input that lands first. -/
def act (m : Micro) (s : State) : Progress :=
  match m with
  | .waitTxSpace => doWaitTxSpace s
  | .setBaud r => .going (setBaud r s)
  | .send b => .going (send b s)
  | .recvPresence => doRecvPresence s
  | .recvBit use => doRecvBit use s
  | .setPhase p => .going (setPhase p s)
  | .checkWritePhase => .going (checkPhase (s.phase == .addressed || s.phase == .exchanging) s)
  | .checkReadPhase => .going (checkPhase (s.phase == .exchanging) s)
  | .setBitcnt i => .going { s with bitcnt := i }
  | .setBytecnt k => .going { s with bytecnt := k }
  | .clearShift => .going { s with shift := 0x00 }
  | .shiftToRxdata => .going (setRxdata s.shift s)
  | .clearCrc => .going (setCrc Config.crcInitValue s)
  | .foldCrc d => .going (setCrc (crcStep s.crc d) s)
  | .storeSn k => .going { s with sn := s.sn.set k s.rxdata }
  | .storeSp k => .going { s with sp := s.sp.set k s.rxdata }
  | .foldCrcSn k => .going (setCrc (crcStep s.crc s.sn[k]) s)
  | .foldCrcSp k => .going (setCrc (crcStep s.crc s.sp[k]) s)
  | .checkCrcZero => if s.crc = 0x00 then .going s else .ended .checksumMismatch s
  | .checkCrcSp => if s.crc = s.sp[8] then .going s else .ended .checksumMismatch s
  | .pollTest => if s.rxdata = 0x00 then .ended .busyConverting s else .going s
  | .pollLoop back => if s.rxdata = 0x00 then .paused { s with seqpos := back } else .going s
  | .markSn v => .going { s with snValid := v }
  | .markSp v => .going { s with spValid := v }

/-- One operation, in its place: an input that is due lands before a transport event, so the step ends there (Log 6). -/
def perform (m : Micro) (s : State) : Progress :=
  if isEvent m && inputDue s then .paused s else act m s

/-- Run a body, or what is left of one. -/
def run : List Micro → State → Progress
  | [], s => .going s
  | m :: ms, s =>
    match perform m s with
    | .going s' => run ms s'
    | .ended c s' => .ended c s'
    | .paused s' => .paused s'

/-- `finish` with the code the body returned (40_codec.md R100), or leave BUSY = 1 where the command is still running. -/
def conclude : Progress → State
  | .going s => finish .ok s
  | .ended c s => finish c s
  | .paused s => s

/-- A command word written to the port, with the body of the command it decodes to (40_codec.md R100, 60_exceptions.md R218). -/
def issue (w : Word) (body : List Micro) (s : State) : State :=
  if s.busy then overrun s else conclude (run body (accept w s))

/-- What is left of a body after n transport events: its n-th event (from 0) is next (10_state.md R29). -/
def afterEvents : Nat → List Micro → List Micro
  | _, [] => []
  | 0, m :: ms => if isEvent m then m :: ms else afterEvents 0 ms
  | n + 1, m :: ms => if isEvent m then afterEvents n ms else afterEvents (n + 1) ms

end Sys2Proof.Machine
end

