-- ==== Sys2Proof/Machine/CrcEngine.lean ====
section
/-! DEFINITION. The CRC engine's commands CRC_INIT and CRC_UPDATE (spec/41_crc8.md R125, R126). -/

namespace Sys2Proof.Machine

/-- `CRC_INIT_body` (R125). -/
def crcInitBody : List Micro := [.clearCrc]

/-- `CRC_UPDATE_body(d)` (R126). -/
def crcUpdateBody (d : Byte) : List Micro := [.foldCrc d]

/-- CRC_INIT (R125). -/
def execCrcInit (s : State) : Host.Outcome State Fault Refusal :=
  .next (issue (encode .crcInit) crcInitBody s)

/-- CRC_UPDATE d (R126). -/
def execCrcUpdate (d : Byte) (s : State) : Host.Outcome State Fault Refusal :=
  .next (issue (encode (.crcUpdate d)) (crcUpdateBody d) s)

end Sys2Proof.Machine
end

