-- ==== Sys2Proof/Machine/Codec.lean ====
section
/-! DEFINITION. The codec's commands NOP, OW_WRITE_BIT and OW_READ_BIT (spec/40_codec.md R104-R108), and an illegal word's
(spec/60_exceptions.md R213). -/

namespace Sys2Proof.Machine

/-- `SelectHigh()` (R105). -/
def selectHigh : List Micro := [.waitTxSpace, .setBaud .high]

/-- `BitExchange(b)` (R104) with what its caller does with the result. -/
def bitExchange (b : Bool) (use : BitUse) : List Micro := [.send (encodeBit b), .recvBit use]

/-- `NOP_body` (R106). -/
def nopBody : List Micro := []

/-- `OW_WRITE_BIT_body(v)` (R107). -/
def owWriteBitBody (v : Bool) : List Micro := selectHigh ++ [.waitTxSpace] ++ bitExchange v .discard

/-- `OW_READ_BIT_body` (R108). -/
def owReadBitBody : List Micro := selectHigh ++ [.waitTxSpace] ++ bitExchange true .toRxdata

/-- NOP (R106). -/
def execNop (s : State) : Host.Outcome State Fault Refusal :=
  .next (issue (encode .nop) nopBody s)

/-- OW_WRITE_BIT v (R107). -/
def execOwWriteBit (v : Bool) (s : State) : Host.Outcome State Fault Refusal :=
  .next (issue (encode (.owWriteBit v)) (owWriteBitBody v) s)

/-- OW_READ_BIT (R108). -/
def execOwReadBit (s : State) : Host.Outcome State Fault Refusal :=
  .next (issue (encode .owReadBit) owReadBitBody s)

/-- An illegal word w (R100, R213): ignored while BUSY = 1, else accepted and finished with ILLEGAL_COMMAND. -/
def execIllegal (w : Word) (s : State) : State :=
  if s.busy then overrun s else finish .illegalCommand (accept w s)

end Sys2Proof.Machine
end

