-- ==== Sys2Proof/Machine/Transaction.lean ====
section
/-! DEFINITION. The bus transaction engine's commands OW_RESET, OW_WRITE_BYTE and OW_READ_BYTE (spec/42_transaction.md). -/

namespace Sys2Proof.Machine

/-- `OW_RESET_body` (R140). -/
def owResetBody : List Micro :=
  [.setPhase .resetIssued, .waitTxSpace, .setBaud .low, .waitTxSpace, .send Config.resetPulse, .recvPresence]

/-- Exchange i of a written byte (R142): bit i of d, least significant first (20_memory.md R55). -/
def writeSlot (d : Byte) (i : Fin 8) : List Micro :=
  [.setBitcnt (i.castLE (by decide)), .waitTxSpace] ++ bitExchange (bitOf d i) .discard

/-- `OW_WRITE_BYTE_body(d)` (R142). -/
def owWriteByteBody (d : Byte) : List Micro :=
  [.checkWritePhase] ++ selectHigh ++ (List.finRange 8).flatMap (writeSlot d) ++ [.setPhase .exchanging]

/-- Exchange i of a read byte (R143): a 1 is written and the reflected bit is shifted in. -/
def readSlot (i : Fin 8) : List Micro :=
  [.setBitcnt (i.castLE (by decide)), .waitTxSpace] ++ bitExchange true .toShift

/-- `OW_READ_BYTE_body` (R143). -/
def owReadByteBody : List Micro :=
  [.checkReadPhase] ++ selectHigh ++ [.clearShift] ++ (List.finRange 8).flatMap readSlot
    ++ [.shiftToRxdata, .setPhase .exchanging]

/-- OW_RESET (R140). -/
def execOwReset (s : State) : Host.Outcome State Fault Refusal :=
  .next (issue (encode .owReset) owResetBody s)

/-- OW_WRITE_BYTE d (R142). -/
def execOwWriteByte (d : Byte) (s : State) : Host.Outcome State Fault Refusal :=
  .next (issue (encode (.owWriteByte d)) (owWriteByteBody d) s)

/-- OW_READ_BYTE (R143). -/
def execOwReadByte (s : State) : Host.Outcome State Fault Refusal :=
  .next (issue (encode .owReadByte) owReadByteBody s)

end Sys2Proof.Machine
end

