-- ==== Sys2Proof/Machine/Sequences.lean ====
section
/-! DEFINITION. The device sequences (spec/43_sequences.md): compositions of the primitive commands' bodies (R160). A body that
returns a code other than OK ends the sequence, since `run` stops there; nothing is retried (R212). -/

namespace Sys2Proof.Machine

/-- Byte k of SEQ_READ_ROM's read phase (R161 with buf = SN, n = 8, covered = 8). -/
def readSnByte (k : Fin 8) : List Micro :=
  [.setBytecnt (k.castLE (by decide))] ++ owReadByteBody ++ [.storeSn k, .foldCrcSn k]

/-- `ReadBlock(SN, 8, 8)` (R161). -/
def readBlockSn : List Micro := crcInitBody ++ (List.finRange 8).flatMap readSnByte ++ [.setPhase .idle]

/-- Byte k of SEQ_READ_SCRATCHPAD's read phase (R161 with buf = SP, n = 9, covered = 8). -/
def readSpByte (k : Fin 9) : List Micro :=
  [.setBytecnt (k.castLE (by decide))] ++ owReadByteBody ++ [.storeSp k] ++ (if k.val < 8 then [.foldCrcSp k] else [])

/-- `ReadBlock(SP, 9, 8)` (R161). -/
def readBlockSp : List Micro := crcInitBody ++ (List.finRange 9).flatMap readSpByte ++ [.setPhase .idle]

/-- `SEQ_READ_ROM_body` (R162). -/
def seqReadRomBody : List Micro :=
  [.markSn false] ++ owResetBody ++ owWriteByteBody Config.readRomCommand ++ readBlockSn ++ [.checkCrcZero, .markSn true]

/-- `SEQ_CONVERT_body` (R163). -/
def seqConvertBody : List Micro :=
  owResetBody ++ owWriteByteBody Config.skipRomCommand ++ owWriteByteBody Config.convertCommand

/-- `SEQ_READ_SCRATCHPAD_body` (R164). -/
def seqReadScratchpadBody : List Micro :=
  [.markSp false] ++ owResetBody ++ owWriteByteBody Config.skipRomCommand
    ++ owWriteByteBody Config.readScratchpadCommand ++ readBlockSp ++ [.checkCrcSp, .markSp true]

/-- `SEQ_POLL_READ_body` (R165). -/
def seqPollReadBody : List Micro :=
  [.markSp false] ++ owReadBitBody ++ [.pollTest] ++ seqReadScratchpadBody

/-- `SEQ_BLOCKING_READ_body` (R166): the poll is SEQ_POLL_READ's, but a busy one polls again, from the event after
SEQ_CONVERT's last. -/
def seqBlockingReadBody : List Micro :=
  [.markSp false] ++ seqConvertBody ++ owReadBitBody ++ [.pollLoop (eventCount seqConvertBody)] ++ seqReadScratchpadBody

/-- SEQ_READ_ROM (R162). -/
def execSeqReadRom (s : State) : Host.Outcome State Fault Refusal :=
  .next (issue (encode .seqReadRom) seqReadRomBody s)

/-- SEQ_CONVERT (R163). -/
def execSeqConvert (s : State) : Host.Outcome State Fault Refusal :=
  .next (issue (encode .seqConvert) seqConvertBody s)

/-- SEQ_READ_SCRATCHPAD (R164). -/
def execSeqReadScratchpad (s : State) : Host.Outcome State Fault Refusal :=
  .next (issue (encode .seqReadScratchpad) seqReadScratchpadBody s)

/-- SEQ_POLL_READ (R165). -/
def execSeqPollRead (s : State) : Host.Outcome State Fault Refusal :=
  .next (issue (encode .seqPollRead) seqPollReadBody s)

/-- SEQ_BLOCKING_READ (R166). -/
def execSeqBlockingRead (s : State) : Host.Outcome State Fault Refusal :=
  .next (issue (encode .seqBlockingRead) seqBlockingReadBody s)

end Sys2Proof.Machine
end

