-- ==== Sys2Proof/Machine/Resume.lean ====
section
/-! DEFINITION. A running command going on from where it stands (spec/10_state.md R29, R30): CUR says which command, SEQPOS
which event of its trace is next. -/

namespace Sys2Proof.Machine

/-- The body of the command a word decodes to (spec/40_codec.md R100). -/
def bodyOf : Instr → List Micro
  | .nop => nopBody
  | .owReset => owResetBody
  | .owWriteBit v => owWriteBitBody v
  | .owReadBit => owReadBitBody
  | .owWriteByte d => owWriteByteBody d
  | .owReadByte => owReadByteBody
  | .crcInit => crcInitBody
  | .crcUpdate d => crcUpdateBody d
  | .seqReadRom => seqReadRomBody
  | .seqConvert => seqConvertBody
  | .seqReadScratchpad => seqReadScratchpadBody
  | .seqPollRead => seqPollReadBody
  | .seqBlockingRead => seqBlockingReadBody

/-- The running command goes on from its next event. An illegal CUR finishes as R213 says; no run reaches that, since an
illegal word is finished in the step that accepts it. -/
def resume (s : State) : State :=
  match decodeWord s.cur with
  | some i => conclude (run (afterEvents s.seqpos (bodyOf i)) s)
  | none => finish .illegalCommand s

end Sys2Proof.Machine
end

