-- ==== Sys2Proof/Machine/Dispatch.lean ====
section
/-! DEFINITION. One arm per command: its meaning. -/

namespace Sys2Proof.Machine

/-- The meaning of a command written to the command port (spec/40_codec.md R100). -/
def exec (i : Instr) (s : State) : Host.Outcome State Fault Refusal :=
  match i with
  | .nop => Sys2Proof.Machine.execNop s
  | .owReset => Sys2Proof.Machine.execOwReset s
  | .owWriteBit v => Sys2Proof.Machine.execOwWriteBit v s
  | .owReadBit => Sys2Proof.Machine.execOwReadBit s
  | .owWriteByte d => Sys2Proof.Machine.execOwWriteByte d s
  | .owReadByte => Sys2Proof.Machine.execOwReadByte s
  | .crcInit => Sys2Proof.Machine.execCrcInit s
  | .crcUpdate d => Sys2Proof.Machine.execCrcUpdate d s
  | .seqReadRom => Sys2Proof.Machine.execSeqReadRom s
  | .seqConvert => Sys2Proof.Machine.execSeqConvert s
  | .seqReadScratchpad => Sys2Proof.Machine.execSeqReadScratchpad s
  | .seqPollRead => Sys2Proof.Machine.execSeqPollRead s
  | .seqBlockingRead => Sys2Proof.Machine.execSeqBlockingRead s

end Sys2Proof.Machine
end

