-- ==== Sys2Proof/Machine/HostDecode.lean ====
section
/-! DEFINITION. The host-side decode of SP and SN (spec/44_temperature_decode.md): pure functions over the bytes, with exact
integer and rational arithmetic (R8, D25), and the host's use of them with its fault TempDecodeUndefined (R190). -/

namespace Sys2Proof.Machine

/-- `tempInt(sp)` (R191). -/
def tempInt (sp : Vector Byte 9) : Int :=
  sext8 (BitVec.ofInt 8 (((sp[0].toNat / 2 : Nat) : Int) - if sp[1] ≠ 0 then Config.tempSignOffset else 0))

/-- `temperature(sp)` (R193): none where sp[7] = 0, which has no value. -/
def temperature (sp : Vector Byte 9) : Option Rat :=
  if sp[7] = 0 then none
  else some ((tempInt sp : Rat) - 1 / 4 + (((sp[7].toNat : Int) - (sp[6].toNat : Int) : Int) : Rat) / (sp[7].toNat : Rat))

/-- `family(sn)` (R195). -/
def family (sn : Vector Byte 8) : Byte := sn[0]

/-- `crcByte(sn)` (R195). -/
def crcByte (sn : Vector Byte 8) : Byte := sn[7]

/-- `serial(sn)` (R195): 48 bits, sn[1] the most significant byte. -/
def serial (sn : Vector Byte 8) : Nat :=
  ((List.finRange 6).map fun j => (sn[1 + j.val]'(by omega)).toNat * 2 ^ (8 * (5 - j.val))).sum

/-- The serial number's validity test (R195): its crc8 is 0. -/
def serialValid (sn : Vector Byte 8) : Bool := crc8 sn.toList == 0x00

/-- Log what a decode gave the host. -/
def logHost (r : HostRecord) (s : State) : State := { s with hostLog := s.hostLog ++ [r] }

/-- The host applies `tempInt` to SP (R190, R191). -/
def hostTempInt (s : State) : State :=
  if s.spValid then logHost (.tempInt (tempInt s.sp)) s else recordFault .tempDecodeUndefined s

/-- The host applies `temperature` to SP (R190, R193). -/
def hostTemperature (s : State) : State :=
  if s.spValid then
    match temperature s.sp with
    | some t => logHost (.temperature t) s
    | none => recordFault .tempDecodeUndefined s
  else recordFault .tempDecodeUndefined s

/-- The host decodes SN (R190, R195). -/
def hostSerial (s : State) : State :=
  if s.snValid then logHost (.serial (family s.sn) (serial s.sn) (crcByte s.sn)) s else recordFault .tempDecodeUndefined s

/-- One host register read (20_memory.md R52): the value goes to the host and nothing else changes. -/
def hostRead (a : Byte) (s : State) : State := logHost (.reg a (regRead a s)) s

/-- An input other than a command word lands. A wait that has come to its end and a pause do nothing more. -/
def land (i : Input) (s : State) : State :=
  match i with
  | .command _ => s
  | .wait => s
  | .pause _ => s
  | .readReg a => hostRead a s
  | .blockReset => resetBlock s
  | .txSpace b => { s with txSpace := b }
  | .decodeTempInt => hostTempInt s
  | .decodeTemperature => hostTemperature s
  | .decodeSerial => hostSerial s

end Sys2Proof.Machine
end

