-- ==== Sys2Proof/Machine/Step.lean ====
section
/-! DEFINITION. One step of the machine (Log 5, Log 6): an input of the outside world lands, or the running command goes on. A
command word taken from the port runs in its step as far as no later input lands in it. -/

namespace Sys2Proof.Machine

/-- The first input is taken off the timeline. -/
def State.popInput (s : State) : State := { s with inputs := s.inputs.tail }

/-- One step. While BUSY = 1 and no input is due, the command goes on. Else the next input lands; with none, an idle block
stays as it is. -/
def step (s : State) : Host.Outcome State Fault Refusal :=
  if s.busy && !inputDue s then .next (resume s)
  else
    match s.inputs with
    | [] => .next s
    | .command w :: _ =>
      match decodeWord w with
      | some i => exec i s.popInput
      | none => .next (execIllegal w s.popInput)
    | i :: _ => .next (land i s.popInput)

/-- The command port holds the word w next: what `step` takes first. -/
def State.withFetchWord (s : State) (nbits w : Nat) : State :=
  { s with inputs := .command (BitVec.ofNat 16 (w % 2 ^ nbits)) :: s.inputs }

end Sys2Proof.Machine
end

