-- ==== Sys2Proof/Machine/Assembler.lean ====
section
/-! DEFINITION. Host command programs as text (spec/30_encoding.md R79, R80): lines, pseudo-instructions, and what a program
makes the host do. -/

namespace Sys2Proof.Machine

/-- The pseudo-instructions (R80). -/
inductive Pseudo where
  | owWrite1
  | owWrite0
  | owReadRomCmd
  | owMatchRomCmd
  | owSkipRom
  | owSearchRomCmd
  | owAlarmSearchCmd
  | owConvertT
  | owWriteSpCmd
  | owReadSpCmd
  | owCopySpCmd
  | owRecallCmd
  | owReadPowerCmd
  deriving DecidableEq, Repr

/-- Each pseudo-instruction's one command (R80, with the bus command bytes of R76). -/
def expand : Pseudo → Instr
  | .owWrite1 => .owWriteBit true
  | .owWrite0 => .owWriteBit false
  | .owReadRomCmd => .owWriteByte 0x33
  | .owMatchRomCmd => .owWriteByte 0x55
  | .owSkipRom => .owWriteByte 0xCC
  | .owSearchRomCmd => .owWriteByte 0xF0
  | .owAlarmSearchCmd => .owWriteByte 0xEC
  | .owConvertT => .owWriteByte 0x44
  | .owWriteSpCmd => .owWriteByte 0x4E
  | .owReadSpCmd => .owWriteByte 0xBE
  | .owCopySpCmd => .owWriteByte 0x48
  | .owRecallCmd => .owWriteByte 0xB8
  | .owReadPowerCmd => .owWriteByte 0xB4

/-- One line of a program (R79): a command, or a host action that is not one. -/
inductive AsmLine where
  | command (i : Instr)
  | wait
  | read (a : Byte)
  deriving DecidableEq, Repr

/-- What a line makes the host do. -/
def hostAction : AsmLine → Input
  | .command i => .command (encode i)
  | .wait => .wait
  | .read a => .readReg a

/-- A program's encoding: the list of its command words, in order (R79). -/
def assemble : List AsmLine → List Word
  | [] => []
  | .command i :: rest => encode i :: assemble rest
  | .wait :: rest => assemble rest
  | .read _ :: rest => assemble rest

/-- A decimal digit's value. -/
def decDigit (c : Char) : Option Nat :=
  if '0'.toNat ≤ c.toNat ∧ c.toNat ≤ '9'.toNat then some (c.toNat - '0'.toNat) else none

/-- A hexadecimal digit's value, capitals as R8 writes them. Log 19. -/
def hexDigit (c : Char) : Option Nat :=
  if 'A'.toNat ≤ c.toNat ∧ c.toNat ≤ 'F'.toNat then some (c.toNat - 'A'.toNat + 10) else decDigit c

/-- Decimal digits read from the left, onto a value so far. -/
def decimal : Nat → List Char → Option Nat
  | n, [] => some n
  | n, c :: cs => (decDigit c).bind fun d => decimal (10 * n + d) cs

/-- A byte operand: `0xNN`, or decimal 0..255 (R79). -/
def byteOperand : List Char → Option Byte
  | ['0', 'x', h, l] => (hexDigit h).bind fun a => (hexDigit l).map fun b => BitVec.ofNat 8 (16 * a + b)
  | [] => none
  | cs => (decimal 0 cs).bind fun n => if n < 256 then some (BitVec.ofNat 8 n) else none

/-- A bit operand: `0` or `1` (R79). -/
def bitOperand : List Char → Option Bool
  | ['0'] => some false
  | ['1'] => some true
  | _ => none

/-- The mnemonics that take no operand, pseudo-instructions among them (R72, R80). -/
def bareMnemonics : List (String × Instr) :=
  [("NOP", .nop), ("OW_RESET", .owReset), ("OW_READ_BIT", .owReadBit), ("OW_READ_BYTE", .owReadByte),
   ("CRC_INIT", .crcInit), ("SEQ_READ_ROM", .seqReadRom), ("SEQ_CONVERT", .seqConvert),
   ("SEQ_READ_SCRATCHPAD", .seqReadScratchpad), ("SEQ_POLL_READ", .seqPollRead),
   ("SEQ_BLOCKING_READ", .seqBlockingRead)] ++
  [("OW_WRITE_1", expand .owWrite1), ("OW_WRITE_0", expand .owWrite0), ("OW_READ_ROM_CMD", expand .owReadRomCmd),
   ("OW_MATCH_ROM_CMD", expand .owMatchRomCmd), ("OW_SKIP_ROM", expand .owSkipRom),
   ("OW_SEARCH_ROM_CMD", expand .owSearchRomCmd), ("OW_ALARM_SEARCH_CMD", expand .owAlarmSearchCmd),
   ("OW_CONVERT_T", expand .owConvertT), ("OW_WRITE_SP_CMD", expand .owWriteSpCmd),
   ("OW_READ_SP_CMD", expand .owReadSpCmd), ("OW_COPY_SP_CMD", expand .owCopySpCmd),
   ("OW_RECALL_CMD", expand .owRecallCmd), ("OW_READ_POWER_CMD", expand .owReadPowerCmd)]

/-- The register names and their addresses (20_memory.md R51). -/
def registerNames : List (String × Byte) :=
  [("STATUS", 0x00), ("RXDATA", 0x01), ("RXRAW", 0x02), ("CRC", 0x03), ("SN[0]", 0x08), ("SN[1]", 0x09), ("SN[2]", 0x0A),
   ("SN[3]", 0x0B), ("SN[4]", 0x0C), ("SN[5]", 0x0D), ("SN[6]", 0x0E), ("SN[7]", 0x0F)] ++
  [("SP[0]", 0x10), ("SP[1]", 0x11), ("SP[2]", 0x12), ("SP[3]", 0x13), ("SP[4]", 0x14), ("SP[5]", 0x15), ("SP[6]", 0x16),
   ("SP[7]", 0x17), ("SP[8]", 0x18)]

/-- What a name stands for in a table. -/
def lookupName {α : Type} (name : List Char) : List (String × α) → Option α
  | [] => none
  | (n, v) :: rest => if n.toList = name then some v else lookupName name rest

/-- The words of a line, split at spaces. -/
def words : List Char → List (List Char)
  | [] => []
  | c :: cs =>
    if c = ' ' then words cs
    else match cs, words cs with
      | [], _ => [[c]]
      | ' ' :: _, ws => [c] :: ws
      | _ :: _, w :: ws => (c :: w) :: ws
      | _ :: _, [] => [[c]]

/-- A line without its comment (R79). -/
def uncomment (cs : List Char) : List Char := cs.takeWhile (· ≠ ';')

/-- One line that is not blank: `MNEMONIC [operand]`, `wait` or `read <reg>` (R79). -/
def parseWords : List (List Char) → Option AsmLine
  | [m] => if m = "wait".toList then some .wait else (lookupName m bareMnemonics).map .command
  | [m, x] =>
    if m = "read".toList then (lookupName x registerNames).map .read
    else if m = "OW_WRITE_BIT".toList then (bitOperand x).map fun v => .command (.owWriteBit v)
    else if m = "OW_WRITE_BYTE".toList then (byteOperand x).map fun d => .command (.owWriteByte d)
    else if m = "CRC_UPDATE".toList then (byteOperand x).map fun d => .command (.crcUpdate d)
    else none
  | _ => none

/-- A program, line by line; blank and comment lines stand for nothing, and one wrong line spoils the program. -/
def parseProgram : List (List Char) → Option (List AsmLine)
  | [] => some []
  | l :: ls =>
    match words (uncomment l) with
    | [] => parseProgram ls
    | ws => (parseWords ws).bind fun x => (parseProgram ls).map (x :: ·)

end Sys2Proof.Machine
end

