-- ==== Sys2Proof/Machine/BlockStep.lean ====
section
/-! DEFINITION. The block's own step (spec/00_scope.md R11: "one transport primitive per step"): one transport event with the
register writes that follow it (Log 15). `step` of Machine/Step.lean does as many of these in a row as no input lands between
(Log 6); host reads see the registers between two of these (spec/20_memory.md R53). -/

namespace Sys2Proof.Machine

/-- Register writes and tests up to the next transport event. -/
def runSilent : List Micro → State → Progress
  | [], s => .going s
  | m :: ms, s =>
    if isEvent m then .paused s
    else match act m s with
      | .going s' => runSilent ms s'
      | .ended c s' => .ended c s'
      | .paused s' => .paused s'

/-- One operation, then register writes and tests up to the next transport event. -/
def runOne : List Micro → State → Progress
  | [], s => .going s
  | m :: ms, s =>
    match act m s with
    | .going s' => runSilent ms s'
    | .ended c s' => .ended c s'
    | .paused s' => .paused s'

/-- The running command does its next transport event. -/
def blockStep (s : State) : State :=
  match decodeWord s.cur with
  | some i => conclude (runOne (afterEvents s.seqpos (bodyOf i)) s)
  | none => finish .illegalCommand s

/-- Acceptance of a command by an idle block (spec/40_codec.md R100), with what precedes its first transport event. -/
def begin (i : Instr) (s : State) : State := conclude (runSilent (bodyOf i) (accept (encode i) s))

/-- n steps of the block. -/
def blockSteps : Nat → State → State
  | 0, s => s
  | n + 1, s => blockSteps n (blockStep s)

end Sys2Proof.Machine
end

