-- ==== Sys2Proof/Machine/Pseudocode.lean ====
section
/-! DEFINITION. The spec's pseudocode as functions, body by body, for a command that nothing interrupts and that never has to
wait for transmit space. The meanings run the same bodies as lists (Machine/Micro.lean), which an input can interrupt; that the
two agree is a claim. -/

namespace Sys2Proof.Machine

/-- A body procedure: a result code and the state after (spec/00_scope.md R10). -/
abbrev Proc := State → Result × State

/-- "c <- f; if c != OK: return c", then g (spec/43_sequences.md R160). -/
def andThen (f g : Proc) : Proc := fun s =>
  match f s with
  | (.ok, s') => g s'
  | (c, s') => (c, s')

/-- A register write, which cannot fail. -/
def doing (f : State → State) : Proc := fun s => (.ok, f s)

/-- "for i in is: f(i)", left at the first code other than OK. -/
def forEach {α : Type} (f : α → Proc) : List α → Proc
  | [] => doing id
  | i :: is => andThen (f i) (forEach f is)

/-- `WaitTxSpace() ; SetBaud(r)` (spec/40_codec.md R105). -/
def procSelect (r : Rate) : Proc := doing fun s => setBaud r (record .w s)

/-- `WaitTxSpace()`, `BitExchange(b)` and the caller's handling (spec/40_codec.md R104, R107, R108). -/
def procExchange (b : Bool) (use : BitUse) : Proc := fun s =>
  let sent := send (encodeBit b) (record .w s)
  match nextAnswer sent with
  | .err => (.transportError, setPhase .idle (recv sent))
  | .byte e =>
    match decodeEcho s.policy e with
    | .line => (.lineError, setPhase .idle (setRxraw e (recv sent)))
    | .bit r => (.ok, useBit use r (setRxraw e (recv sent)))

/-- `OW_RESET_body` (spec/42_transaction.md R140). -/
def procReset : Proc := fun s =>
  let sent := send Config.resetPulse (record .w (setBaud .low (record .w (setPhase .resetIssued s))))
  match nextAnswer sent with
  | .err => (.transportError, setPhase .idle (recv sent))
  | .byte e =>
    if e = Config.resetPulse then (.noDevice, setPhase .idle (setRxraw e (recv sent)))
    else (.ok, setPhase .addressed (setRxraw e (recv sent)))

/-- `OW_WRITE_BIT_body(v)` (spec/40_codec.md R107). -/
def procWriteBit (v : Bool) : Proc := andThen (procSelect .high) (procExchange v .discard)

/-- `OW_READ_BIT_body` (spec/40_codec.md R108). -/
def procReadBit : Proc := andThen (procSelect .high) (procExchange true .toRxdata)

/-- `OW_WRITE_BYTE_body(d)` (spec/42_transaction.md R142). -/
def procWriteByte (d : Byte) : Proc :=
  andThen (doing fun s => checkPhase (s.phase == .addressed || s.phase == .exchanging) s) <|
  andThen (procSelect .high) <|
  andThen (forEach (fun i : Fin 8 =>
    andThen (doing fun s => { s with bitcnt := i.castLE (by decide) }) (procExchange (bitOf d i) .discard)) (List.finRange 8)) <|
  doing (setPhase .exchanging)

/-- `OW_READ_BYTE_body` (spec/42_transaction.md R143). -/
def procReadByte : Proc :=
  andThen (doing fun s => checkPhase (s.phase == .exchanging) s) <|
  andThen (procSelect .high) <|
  andThen (doing fun s => { s with shift := 0x00 }) <|
  andThen (forEach (fun i : Fin 8 =>
    andThen (doing fun s => { s with bitcnt := i.castLE (by decide) }) (procExchange true .toShift)) (List.finRange 8)) <|
  doing fun s => setPhase .exchanging (setRxdata s.shift s)

/-- `ReadBlock(SN, 8, 8)` (spec/43_sequences.md R161). -/
def procReadBlockSn : Proc :=
  andThen (doing (setCrc Config.crcInitValue)) <|
  andThen (forEach (fun k : Fin 8 =>
    andThen (doing fun s => { s with bytecnt := k.castLE (by decide) }) <|
    andThen procReadByte <|
    doing fun s => { s with sn := s.sn.set k s.rxdata, crc := crcStep s.crc s.rxdata }) (List.finRange 8)) <|
  doing (setPhase .idle)

/-- `ReadBlock(SP, 9, 8)` (spec/43_sequences.md R161). -/
def procReadBlockSp : Proc :=
  andThen (doing (setCrc Config.crcInitValue)) <|
  andThen (forEach (fun k : Fin 9 =>
    andThen (doing fun s => { s with bytecnt := k.castLE (by decide) }) <|
    andThen procReadByte <|
    doing fun s => { s with sp := s.sp.set k s.rxdata, crc := if k.val < 8 then crcStep s.crc s.rxdata else s.crc })
    (List.finRange 9)) <|
  doing (setPhase .idle)

/-- `SEQ_READ_ROM_body` (spec/43_sequences.md R162), with the ghost of R35 (Log 12). -/
def procReadRom : Proc :=
  andThen (doing fun s => { s with snValid := false }) <|
  andThen procReset <|
  andThen (procWriteByte Config.readRomCommand) <|
  andThen procReadBlockSn fun s =>
  if s.crc ≠ 0x00 then (.checksumMismatch, s) else (.ok, { s with snValid := true })

/-- `SEQ_CONVERT_body` (spec/43_sequences.md R163). -/
def procConvert : Proc :=
  andThen procReset <| andThen (procWriteByte Config.skipRomCommand) <| procWriteByte Config.convertCommand

/-- `SEQ_READ_SCRATCHPAD_body` (spec/43_sequences.md R164), with the ghost of R35 (Log 12). -/
def procReadScratchpad : Proc :=
  andThen (doing fun s => { s with spValid := false }) <|
  andThen procReset <|
  andThen (procWriteByte Config.skipRomCommand) <|
  andThen (procWriteByte Config.readScratchpadCommand) <|
  andThen procReadBlockSp fun s =>
  if s.crc ≠ s.sp[8] then (.checksumMismatch, s) else (.ok, { s with spValid := true })

/-- `SEQ_POLL_READ_body` (spec/43_sequences.md R165). -/
def procPollRead : Proc :=
  andThen (doing fun s => { s with spValid := false }) <|
  andThen procReadBit fun s =>
  if s.rxdata = 0x00 then (.busyConverting, s) else procReadScratchpad s

/-- The body of every command but SEQ_BLOCKING_READ; of that one, SEQ_CONVERT and one turn of the loop (spec/43_sequences.md
R166), where BUSY_CONVERTING means another turn. -/
def procOf : Instr → Proc
  | .nop => doing id
  | .owReset => procReset
  | .owWriteBit v => procWriteBit v
  | .owReadBit => procReadBit
  | .owWriteByte d => procWriteByte d
  | .owReadByte => procReadByte
  | .crcInit => doing (setCrc Config.crcInitValue)
  | .crcUpdate d => doing fun s => setCrc (crcStep s.crc d) s
  | .seqReadRom => procReadRom
  | .seqConvert => procConvert
  | .seqReadScratchpad => procReadScratchpad
  | .seqPollRead => procPollRead
  | .seqBlockingRead => andThen (doing fun s => { s with spValid := false }) (andThen procConvert procPollRead)

/-- The command done: `finish` with the code, or, for a busy poll of SEQ_BLOCKING_READ, still running with the poll next. -/
def procDone (i : Instr) (r : Result × State) : State :=
  if i = .seqBlockingRead ∧ r.1 = .busyConverting then { r.2 with seqpos := 57 } else finish r.1 r.2

end Sys2Proof.Machine
end

