-- ==== Sys2Proof/Safety.lean ====
section
/-! DEFINITION. The terms claims are stated in: when a command runs undisturbed, what its answers and its trace are, which codes
it may end with, and the invariants a step keeps. -/

namespace Sys2Proof.Machine

/-- No input lands before the running command is done: the outside world has nothing more to do, or waits for BUSY = 0. -/
def undisturbed (s : State) : Bool :=
  match s.inputs with
  | [] => true
  | .wait :: _ => true
  | _ => false

/-- An idle block whose next command runs through: nothing disturbs it and the transport has space. -/
abbrev Ready (s : State) : Prop := s.busy = false ∧ undisturbed s = true ∧ s.txSpace = true

/-- No model fault has been recorded (spec/60_exceptions.md R214): the premise of a claim about a host that keeps the rules. -/
abbrev NoFault (s : State) : Prop := s.faults = []

/-- t's STATUS is what `finish(c)` leaves of s's after an acceptance (spec/40_codec.md R100, R101), and t is idle. -/
abbrev FinishedWith (c : Result) (s t : State) : Prop :=
  statusBusy t.status = false ∧ statusOvr t.status = false ∧ statusResult t.status = resultCode c ∧
    statusReserved t.status = statusReserved s.status ∧ t.seqpos = 0

/-- The next n answers of the transport (spec/00_scope.md R9): scripted ones first, free values after them. -/
def nextAnswers : Nat → State → List Answer
  | 0, _ => []
  | n + 1, s => nextAnswer s :: nextAnswers n (consumeAnswer s)

/-- The state without its next n answers. -/
def consumeAnswers : Nat → State → State
  | 0, s => s
  | n + 1, s => consumeAnswers n (consumeAnswer s)

/-- The bus bit an answer decodes to, if it decodes to one (spec/40_codec.md R103, R104). -/
def answerBit (p : EchoPolicy) : Answer → Option Bool
  | .err => none
  | .byte e =>
    match decodeEcho p e with
    | .bit b => some b
    | .line => none

/-- The bus bits a list of answers decodes to, if every one decodes to a bit. -/
def answerBits (p : EchoPolicy) : List Answer → Option (List Bool)
  | [] => some []
  | a :: as => (answerBit p a).bind fun b => (answerBits p as).map (b :: ·)

/-- The code a bit exchange ends its command with, if its answer decodes to no bit (spec/40_codec.md R107, R108). -/
def answerFailure (p : EchoPolicy) : Answer → Option Result
  | .err => some .transportError
  | .byte e =>
    match decodeEcho p e with
    | .bit _ => none
    | .line => some .lineError

/-- The value of bits, the first one least significant (spec/42_transaction.md R144). -/
def bitsValue : List Bool → Nat
  | [] => 0
  | b :: bs => (if b then 1 else 0) + 2 * bitsValue bs

/-- Byte k of a run of bus bits, least significant bit first (spec/20_memory.md R55, R56). -/
def byteAt (bits : List Bool) (k : Nat) : Byte := BitVec.ofNat 8 (bitsValue ((bits.drop (8 * k)).take 8))

/-- The eight bits of a byte in the order they are sent (spec/20_memory.md R55). -/
def sentBits (d : Byte) : List Bool := (List.finRange 8).map (bitOf d)

/-- The echo byte of an answer replaces RXRAW, ERR leaves it (spec/10_state.md R24). -/
def rawAfter (old : Byte) : List Answer → Byte
  | [] => old
  | .byte e :: as => rawAfter e as
  | .err :: as => rawAfter old as

/-- The events of one bit exchange with its wait (spec/40_codec.md R104, R105). -/
def slotEvents (b : Bool) (a : Answer) : List Event := [.w, .s (encodeBit b), .r a]

/-- The events of the exchanges of some bits, with their answers. -/
def slotsEvents (bits : List Bool) (answers : List Answer) : List Event :=
  (List.zipWith slotEvents bits answers).flatten

/-- The events of OW_RESET with its answer (spec/42_transaction.md R140). -/
def resetEvents (a : Answer) : List Event := [.w, .b .low, .w, .s 0xF0, .r a]

/-- The events of OW_WRITE_BYTE or OW_READ_BYTE with its answers (spec/42_transaction.md R142, R143). -/
def byteEvents (d : Byte) (answers : List Answer) : List Event := [.w, .b .high] ++ slotsEvents (sentBits d) answers

/-- The events of a poll bit with its answer (spec/43_sequences.md R165). -/
def pollEvents (a : Answer) : List Event := [.w, .b .high, .w, .s 0xFF, .r a]

/-- FAIR_CONVERSION (spec/92_eei_decisions.md D32): some later answer, taken as a poll bit's, does not decode to 0. -/
abbrev FairConversion (s : State) : Prop :=
  ∃ n, ∃ a ∈ (nextAnswers (n + 1) s).getLast?, answerBit s.policy a ≠ some false

/-- The canonical echoes of a byte's bits: 0xFF for 1, 0x00 for 0 (spec/95_test_vectors.md). -/
def echoes (d : Byte) : List Answer := (sentBits d).map fun b => .byte (encodeBit b)

/-- Where the transport port stands between two events (spec/20_memory.md R61, R62). -/
inductive Port where
  | free
  | spaceConfirmed
  | sent
  deriving DecidableEq, Repr

/-- An event at the port: a SetBaud or a Send only with space just confirmed, a Recv only after a Send, and after a Send nothing
but a Recv (R61, R62). -/
def portAfter : Port → Event → Option Port
  | .free, .w => some .spaceConfirmed
  | .spaceConfirmed, .b _ => some .free
  | .spaceConfirmed, .s _ => some .sent
  | .sent, .r _ => some .free
  | _, _ => none

/-- Where the port stands after a list of events, or none if one of them is out of place. -/
def portAfterAll : Port → List Event → Option Port
  | p, [] => some p
  | p, e :: es => (portAfter p e).bind fun q => portAfterAll q es

/-- Where an operation that is a transport event leaves the port (R61, R62). -/
def portOf : Micro → Port
  | .waitTxSpace => .spaceConfirmed
  | .send _ => .sent
  | _ => .free

/-- Where the port stands after the next n transport events of a body, from p: the last of them decides it. -/
def portFrom (p : Port) (body : List Micro) (n : Nat) : Port := (((body.filter isEvent).take n).map portOf).getLastD p

/-- Where the port stands after the first n transport events of a command's body. -/
def portBefore (body : List Micro) (n : Nat) : Port := portFrom .free body n

/-- Where the block stands at the port: CUR and SEQPOS fix it while a command runs (spec/10_state.md R29), and an idle block has
nothing open. -/
def portAt (s : State) : Port :=
  if s.busy then
    match decodeWord s.cur with
    | some i => portBefore (bodyOf i) s.seqpos
    | none => .free
  else .free

/-- The whole trace is in order and leads to where the block stands at the port (R61, R62, spec/70_reset_and_hazards.md R244). -/
abbrev PortInOrder (s : State) : Prop := portAfterAll .free s.trace = some (portAt s)

/-- The codes a command may finish with (spec/60_exceptions.md R211); LINE_ERROR only under ECHO_POLICY = LINE_ERROR. -/
def allowedResults (p : EchoPolicy) (i : Instr) : List Result :=
  let line := if p = .lineError then [Result.lineError] else []
  match i with
  | .nop | .crcInit | .crcUpdate _ => [.ok]
  | .owReset => [.ok, .noDevice, .transportError]
  | .owWriteBit _ | .owReadBit | .owWriteByte _ | .owReadByte => [.ok, .transportError] ++ line
  | .seqConvert => [.ok, .noDevice, .transportError] ++ line
  | .seqReadRom | .seqReadScratchpad | .seqBlockingRead => [.ok, .noDevice, .transportError, .checksumMismatch] ++ line
  | .seqPollRead => [.ok, .noDevice, .transportError, .checksumMismatch, .busyConverting] ++ line

/-- The codes the word w may finish with, its command's or ILLEGAL_COMMAND (spec/60_exceptions.md R211). -/
def allowedForWord (p : EchoPolicy) (w : Word) : List Result :=
  match decodeWord w with
  | some i => allowedResults p i
  | none => [.illegalCommand]

/-- An idle block's RESULT is a code that the word in CUR may finish with (R211). After a reset these are OK and NOP's word. -/
abbrev ResultFits (s : State) : Prop :=
  s.busy = false → ∃ c ∈ allowedForWord s.policy s.cur, statusResult s.status = resultCode c

/-- RESULT is NO_DEVICE, TRANSPORT_ERROR or LINE_ERROR, after which the host owes a re-reset (spec/60_exceptions.md R216). -/
abbrev BusFailed (s : State) : Prop :=
  statusResult s.status = resultCode .noDevice ∨ statusResult s.status = resultCode .transportError ∨
    statusResult s.status = resultCode .lineError

/-- An idle block whose RESULT is a bus failure has PHASE IDLE (spec/42_transaction.md R146, spec/60_exceptions.md R216). -/
abbrev FailedIsIdle (s : State) : Prop := s.busy = false → BusFailed s → s.phase = .idle

/-- The columns of the table of who writes what (spec/10_state.md R36). -/
inductive Column where
  | rxdata
  | rxraw
  | crc
  | sn
  | sp
  | baud
  | phase
  deriving DecidableEq, Repr

/-- The rows of that table: what each command may write (R36). -/
def mayWrite : Instr → List Column
  | .nop => []
  | .owReset | .owWriteBit _ | .owWriteByte _ | .seqConvert => [.rxraw, .baud, .phase]
  | .owReadBit | .owReadByte => [.rxdata, .rxraw, .baud, .phase]
  | .crcInit | .crcUpdate _ => [.crc]
  | .seqReadRom => [.rxdata, .rxraw, .crc, .sn, .baud, .phase]
  | .seqReadScratchpad | .seqPollRead | .seqBlockingRead => [.rxdata, .rxraw, .crc, .sp, .baud, .phase]

/-- The state of a column is in t what it is in s. -/
def Column.same (c : Column) (s t : State) : Prop :=
  match c with
  | .rxdata => t.rxdata = s.rxdata
  | .rxraw => t.rxraw = s.rxraw
  | .crc => t.crc = s.crc
  | .sn => t.sn = s.sn
  | .sp => t.sp = s.sp
  | .baud => t.baud = s.baud
  | .phase => t.phase = s.phase

/-- The command a step acts for: the running one where it goes on, or the one an idle block takes from the command port. -/
def actingCommand (s : State) : Option Instr :=
  if s.busy then (if inputDue s then none else decodeWord s.cur)
  else
    match s.inputs with
    | .command w :: _ => decodeWord w
    | _ => none

/-- The running command's position lies inside its trace (spec/10_state.md R29). -/
def positionInTrace (s : State) : Bool :=
  match decodeWord s.cur with
  | some i => s.seqpos < eventCount (bodyOf i)
  | none => false

/-- The block's invariant: STATUS[5:4] reads 0 and RESULT is a produced code (spec/10_state.md R21, R22); SEQPOS is 0 when the
block is idle and inside the running command's trace when it is not (R29, R30). -/
abbrev Inv (s : State) : Prop :=
  statusReserved s.status = 0 ∧ (statusResult s.status).toNat ≤ 6 ∧
    (s.busy = false → s.seqpos = 0) ∧ (s.busy = true → positionInTrace s = true)

/-- What the spec says no output depends on: PHASE and the fault record (spec/10_state.md R32, spec/60_exceptions.md R214), and
BAUD (92_eei_decisions.md D22). -/
def eraseGhosts (s : State) : State := { s with phase := .idle, faults := [], baud := .unset }

/-- A step that answers a next state answers this one; every step of this machine does. -/
def nextOf (s : State) : Host.Outcome State Fault Refusal → State
  | .next t => t
  | .fault _ => s
  | .refused _ => s

end Sys2Proof.Machine
end

