-- ==== Sys2Proof/Certificates/Slice0/Obligations.lean ====
section
/-! DEFINITION. The statements for the provers. Each docstring names the rules of spec/ it formalises. -/

open Sys2Proof Sys2Proof.Machine

/-! ## Encoding -/

/-- 30_encoding.md R70, R72: decoding the word of any command, with any operand, gives the command. -/
def Obligations.DecodeOfEncodeIsTheCommand : Prop :=
  ∀ i : Instr, decodeWord (encode i) = some i

/-- 30_encoding.md R72: a word that decodes to a command is that command's only word. -/
def Obligations.EncodeOfDecodeIsTheWord : Prop :=
  ∀ (w : Word) (i : Instr), decodeWord w = some i → encode i = w

/-- 30_encoding.md R72, R73: no two rows of the opcode map select one word, and the decoder accepts exactly the words that
one row selects. -/
def Obligations.DecoderAcceptsExactlyTheOpcodeMap : Prop :=
  ∀ w : Word, (rowsOf w).length ≤ 1 ∧ ((decodeWord w).isSome = true ↔ validWord w = true)

/-- 30_encoding.md R74: 524 words are valid (10 fixed ones, 2 of OW_WRITE_BIT, 256 each of OW_WRITE_BYTE and CRC_UPDATE) and the
other 65012 are illegal. -/
def Obligations.ValidWordsAreCounted : Prop :=
  (Finset.univ.filter fun w : Word => validWord w = true).card = 524 ∧
  (Finset.univ.filter fun w : Word => validWord w = false).card = 65012 ∧
  (opcodeMap.filter fun r => r.mask == 0xFFFF).length = 10 ∧
  (Finset.univ.filter fun w : Word => ∃ v, decodeWord w = some (.owWriteBit v)).card = 2 ∧
  (Finset.univ.filter fun w : Word => ∃ d, decodeWord w = some (.owWriteByte d)).card = 256 ∧
  (Finset.univ.filter fun w : Word => ∃ d, decodeWord w = some (.crcUpdate d)).card = 256

/-- 30_encoding.md R72, R73, R80 and 95_test_vectors.md section 2.7: words written out from the map, the vectors and the
pseudo-instructions. -/
def Obligations.WordsOfTheSpecDecode : Prop :=
  decodeWord 0x0000 = some .nop ∧ decodeWord 0x1000 = some .owReset ∧ decodeWord 0x2100 = some (.owWriteBit true) ∧
  decodeWord 0x40F0 = some (.owWriteByte 0xF0) ∧ decodeWord 0x7001 = some (.crcUpdate 0x01) ∧
  decodeWord 0xB000 = some .seqPollRead ∧ decodeWord 0xC000 = some .seqBlockingRead ∧
  decode 0x2200 = .error .nonzeroReservedField ∧ decode 0x0001 = .error .nonzeroReservedField ∧
  decode 0x41F0 = .error .nonzeroReservedField ∧ decode 0xD000 = .error .reservedOpcode ∧
  decode 0xF0F0 = .error .reservedOpcode ∧
  [Pseudo.owWrite1, .owWrite0, .owReadRomCmd, .owMatchRomCmd, .owSkipRom, .owSearchRomCmd, .owAlarmSearchCmd, .owConvertT,
    .owWriteSpCmd, .owReadSpCmd, .owCopySpCmd, .owRecallCmd, .owReadPowerCmd].map (fun p => encode (expand p)) =
  [0x2100, 0x2000, 0x4033, 0x4055, 0x40CC, 0x40F0, 0x40EC, 0x4044, 0x404E, 0x40BE, 0x4048, 0x40B8, 0x40B4]

/-- 70_reset_and_hazards.md R250: the transport events of each command's body. SEQ_POLL_READ's count is its ready path's, and
SEQ_BLOCKING_READ's the count with no busy poll. -/
def Obligations.BodiesHaveTheSpecsLengths : Prop :=
  eventCount (bodyOf .nop) = 0 ∧ eventCount (bodyOf .crcInit) = 0 ∧ (∀ d, eventCount (bodyOf (.crcUpdate d)) = 0) ∧
  eventCount (bodyOf .owReset) = 5 ∧ (∀ v, eventCount (bodyOf (.owWriteBit v)) = 5) ∧ eventCount (bodyOf .owReadBit) = 5 ∧
  (∀ d, eventCount (bodyOf (.owWriteByte d)) = 26) ∧ eventCount (bodyOf .owReadByte) = 26 ∧
  eventCount (bodyOf .seqConvert) = 57 ∧ eventCount (bodyOf .seqReadRom) = 239 ∧
  eventCount (bodyOf .seqReadScratchpad) = 291 ∧ eventCount (bodyOf .seqPollRead) = 296 ∧
  eventCount (bodyOf .seqBlockingRead) = 57 + 296

/-! ## The step -/

/-- 40_codec.md R100 with 60_exceptions.md R218: when the next input is a command word that decodes to i, the step is exec of i
on the state with that input taken off (Log 5), whether the block is idle or busy. -/
def Obligations.StepRunsTheDecodedCommand : Prop :=
  ∀ (s : State) (w : Word) (i : Instr) (rest : List Input),
    s.inputs = .command w :: rest → decodeWord w = some i → step s = exec i { s with inputs := rest }

/-- 60_exceptions.md R213: an illegal word written to an idle block is accepted and finishes at once with ILLEGAL_COMMAND;
nothing else changes but CUR, the word executed. -/
def Obligations.IllegalWordFinishesWithIllegalCommand : Prop :=
  ∀ (s : State) (w : Word) (rest : List Input),
    s.busy = false → s.inputs = .command w :: rest → validWord w = false →
    ∃ t, step s = .next t ∧ FinishedWith .illegalCommand s t ∧
      t = { s with status := t.status, cur := w, seqpos := 0, inputs := rest }

/-- 60_exceptions.md R215: a command word written while BUSY = 1, legal or not, sets OVR and changes nothing else; OVR is
cleared when the next command is accepted. -/
def Obligations.WordWrittenWhileBusyIsIgnored : Prop :=
  (∀ (s : State) (w : Word) (rest : List Input), s.busy = true → s.inputs = .command w :: rest →
    ∃ t, step s = .next t ∧ statusOvr t.status = true ∧ statusBusy t.status = true ∧
      statusResult t.status = statusResult s.status ∧ statusReserved t.status = statusReserved s.status ∧
      t = { s with status := t.status, inputs := rest }) ∧
  (∀ (s : State) (w : Word) (rest : List Input), s.busy = false → s.inputs = .command w :: rest →
    ∃ t, step s = .next t ∧ statusOvr t.status = false)

/-- 40_codec.md R100: an accepted command's word is in CUR, OVR is 0, and while the command is still running RESULT keeps the
previous command's code; when it has finished, BUSY and SEQPOS are 0 (R101). -/
def Obligations.AcceptanceKeepsTheOldResult : Prop :=
  ∀ (s : State) (i : Instr), s.busy = false →
    ∃ t, exec i s = .next t ∧ t.cur = encode i ∧ statusOvr t.status = false ∧
      statusReserved t.status = statusReserved s.status ∧
      (t.busy = true → statusResult t.status = statusResult s.status) ∧ (t.busy = false → t.seqpos = 0)

/-- 60_exceptions.md R214, R219: the block takes no trap and no step stops; the spec's faults are recorded. -/
def Obligations.EveryStepAnswersANextState : Prop :=
  ∀ s : State, ∃ t, step s = .next t

/-- 00_scope.md R9, 92_eei_decisions.md D30, 93_implementation_defined.md I10 (Log 8): with no space, no input due and
WaitTxSpace next, the command holds: BUSY stays 1 and a step changes nothing. -/
def Obligations.CommandHoldsWithoutSpace : Prop :=
  ∀ (s : State) (i : Instr) (ms : List Micro), s.busy = true → undisturbed s = true → s.txSpace = false →
    decodeWord s.cur = some i → afterEvents s.seqpos (bodyOf i) = .waitTxSpace :: ms → step s = .next s

/-- 00_scope.md R11: "one transport primitive per step". A running command that a step carries on has done some number of the
block's own steps; at least one where no input is due. -/
def Obligations.ResumingIsBlockSteps : Prop :=
  ∀ s : State, s.busy = true → ∃ n, resume s = blockSteps n s ∧ (inputDue s = false → 1 ≤ n)

/-- 00_scope.md R11, 40_codec.md R100: a command written to an idle block is its acceptance and then some number of the block's
own steps. -/
def Obligations.CommandIsBlockSteps : Prop :=
  ∀ (s : State) (i : Instr), s.busy = false → ∃ n, exec i s = .next (blockSteps n (begin i s))

/-- The pseudocode of 40_codec.md to 43_sequences.md: on a ready block every meaning is the spec's body procedure run from the
acceptance and finished with its code, whatever the transport answers. SEQ_BLOCKING_READ with a busy poll is not finished: its
step ends there, still running, with SEQPOS at 57 (Log 7). The procedures carry the model's ghosts snValid and spValid (Log 12). -/
def Obligations.MeaningsAreTheSpecsPseudocode : Prop :=
  ∀ (s : State) (i : Instr), Ready s → exec i s = .next (procDone i (procOf i (accept (encode i) s)))

/-! ## Registers and reset -/

/-- 20_memory.md R51: the register map, and every register reads 0x00 after reset. -/
def Obligations.RegisterMapReads : Prop :=
  (∀ s : State, regRead 0x00 s = s.status ∧ regRead 0x01 s = s.rxdata ∧ regRead 0x02 s = s.rxraw ∧ regRead 0x03 s = s.crc) ∧
  (∀ (s : State) (i : Fin 8), regRead (BitVec.ofNat 8 (0x08 + i.val)) s = s.sn[i]) ∧
  (∀ (s : State) (i : Fin 9), regRead (BitVec.ofNat 8 (0x10 + i.val)) s = s.sp[i]) ∧
  (∀ (s : State) (a : Byte), (0x04 ≤ a.toNat ∧ a.toNat ≤ 0x07) ∨ 0x19 ≤ a.toNat → regRead a s = 0x00) ∧
  (∀ a : Byte, regRead a State.reset = 0x00)

/-- 20_memory.md R52, R53: a register read gives the host the register's current value, at any time, and changes no
register, so that a second read gives the same. -/
def Obligations.RegisterReadHasNoSideEffect : Prop :=
  ∀ (s : State) (a : Byte) (rest : List Input), s.inputs = .readReg a :: rest →
    ∃ t, step s = .next t ∧ t = { s with inputs := rest, hostLog := s.hostLog ++ [.reg a (regRead a s)] } ∧
      ∀ b, regRead b t = regRead b s

/-- 10_state.md R34: the values after reset that the spec gives; BAUD is the open parameter. -/
def Obligations.ResetValues : Prop :=
  State.reset.status = 0x00 ∧ State.reset.rxdata = 0x00 ∧ State.reset.rxraw = 0x00 ∧ State.reset.crc = 0x00 ∧
  (∀ i : Fin 8, State.reset.sn[i] = 0x00) ∧ (∀ i : Fin 9, State.reset.sp[i] = 0x00) ∧
  State.reset.seqpos = 0 ∧ State.reset.shift = 0x00 ∧ State.reset.bitcnt = 0 ∧ State.reset.bytecnt = 0 ∧
  State.reset.cur = 0x0000 ∧ State.reset.baud = Config.baudAtReset ∧ State.reset.phase = .idle ∧ State.reset.faults = []

/-- 70_reset_and_hazards.md R240, R241, R242: block reset, also in the middle of a command, puts the block's registers, the
internal registers and PHASE at their reset values, sends nothing, and leaves the transport alone; BAUD keeps its value if no
command was running (after an abandoned one it is a free value, Log 11). The fault record stays (Log 10: the model's reading of
R34 against R214). -/
def Obligations.BlockResetAbandonsAndClears : Prop :=
  ∀ (s : State) (rest : List Input), s.inputs = .blockReset :: rest →
    ∃ t, step s = .next t ∧ t.status = 0x00 ∧ t.rxdata = 0x00 ∧ t.rxraw = 0x00 ∧ t.crc = 0x00 ∧
      t.sn = Vector.replicate 8 0x00 ∧ t.sp = Vector.replicate 9 0x00 ∧ t.seqpos = 0 ∧ t.shift = 0x00 ∧ t.bitcnt = 0 ∧
      t.bytecnt = 0 ∧ t.cur = 0x0000 ∧ t.phase = .idle ∧ t.trace = s.trace ∧ t.txSpace = s.txSpace ∧ t.rx = s.rx ∧
      t.faults = s.faults ∧ (s.busy = false → t.baud = s.baud) ∧ t.inputs = rest

/-- 10_state.md R21, R22, R29, 20_memory.md R61, 42_transaction.md R146, 60_exceptions.md R211: the invariants of the step hold
right after reset. -/
def Obligations.ResetMeetsTheInvariant : Prop :=
  Inv State.reset ∧ ResultFits State.reset ∧ FailedIsIdle State.reset ∧ PortInOrder State.reset

/-- 10_state.md R21, R22, R29, R30: from every state that meets the invariant (STATUS[5:4] reads 0, RESULT a produced code,
SEQPOS 0 when idle and inside the running command's trace when not), a step gives a state that meets it. -/
def Obligations.EveryStepKeepsTheInvariant : Prop :=
  ∀ s t : State, Inv s → step s = .next t → Inv t

/-- 60_exceptions.md R214 ("no later step clears"), 00_scope.md R9: the fault record, the transport trace and what the host has
read only grow, and ECHO_POLICY stays (Log 4). -/
def Obligations.RecordsOnlyGrow : Prop :=
  ∀ s t : State, step s = .next t →
    s.faults <+: t.faults ∧ s.trace <+: t.trace ∧ s.hostLog <+: t.hostLog ∧ t.policy = s.policy

/-- 10_state.md R36, with R23 to R27: in every step without a block reset, also one that carries a command on after an
interruption, RXDATA, RXRAW, CRC, SN, SP, BAUD and PHASE each stay unless the command the step acts for may write it by the table;
where the table says "on error", PHASE changes only to IDLE, in the step that ends the command with the error. -/
def Obligations.BuffersChangeOnlyUnderTheirSequences : Prop :=
  ∀ s t : State, s.inputs.head? ≠ some .blockReset → step s = .next t →
    (∀ c : Column, (∀ i, actingCommand s = some i → c ∉ mayWrite i) → c.same s t) ∧
    ((actingCommand s = some .owReadBit ∨ ∃ v, actingCommand s = some (.owWriteBit v)) →
      t.phase = s.phase ∨ (t.phase = .idle ∧ t.busy = false ∧
        (statusResult t.status = resultCode .transportError ∨ statusResult t.status = resultCode .lineError)))

/-- 10_state.md R32, 60_exceptions.md R214, 92_eei_decisions.md D22: PHASE, the fault record and BAUD change nothing else: two
states that differ only in them step to states that differ only in them. -/
def Obligations.GhostsAndRateChangeNothingElse : Prop :=
  ∀ s : State, ∃ t t', step s = .next t ∧ step (eraseGhosts s) = .next t' ∧ eraseGhosts t = eraseGhosts t'

/-! ## Frames: what a command leaves unchanged, in every state, also one in which it is ignored or interrupted -/

/-- 10_state.md R36: NOP, CRC_INIT and CRC_UPDATE write STATUS, CUR and SEQPOS, and the latter two CRC; nothing else. -/
def Obligations.QuietCommandsFrame : Prop :=
  ∀ (s t : State) (i : Instr), (i = .nop ∨ i = .crcInit ∨ ∃ d, i = .crcUpdate d) → exec i s = .next t →
    t = { s with status := t.status, crc := t.crc, cur := t.cur, seqpos := t.seqpos } ∧ (i = .nop → t.crc = s.crc)

/-- 10_state.md R36: OW_RESET, OW_WRITE_BIT and OW_READ_BIT write none of CRC, SN, SP, SHIFT, BITCNT, BYTECNT and record no
fault; the first two do not write RXDATA; the bit commands leave PHASE or make it IDLE. -/
def Obligations.ResetAndBitCommandsFrame : Prop :=
  ∀ (s t : State) (i : Instr), (i = .owReset ∨ i = .owReadBit ∨ ∃ v, i = .owWriteBit v) → exec i s = .next t →
    t.crc = s.crc ∧ t.sn = s.sn ∧ t.sp = s.sp ∧ t.shift = s.shift ∧ t.bitcnt = s.bitcnt ∧ t.bytecnt = s.bytecnt ∧
    t.faults = s.faults ∧ t.txSpace = s.txSpace ∧ t.policy = s.policy ∧ t.hostLog = s.hostLog ∧
    t.snValid = s.snValid ∧ t.spValid = s.spValid ∧ (t.cur = s.cur ∨ t.cur = encode i) ∧
    (i ≠ .owReadBit → t.rxdata = s.rxdata ∧ t.rxValid = s.rxValid) ∧
    (i ≠ .owReset → t.phase = s.phase ∨ t.phase = .idle)

/-- 10_state.md R36: OW_WRITE_BYTE, OW_READ_BYTE and SEQ_CONVERT write none of CRC, SN, SP, BYTECNT; all but OW_READ_BYTE leave
RXDATA and SHIFT. -/
def Obligations.ByteCommandsAndConvertFrame : Prop :=
  ∀ (s t : State) (i : Instr), (i = .seqConvert ∨ i = .owReadByte ∨ ∃ d, i = .owWriteByte d) → exec i s = .next t →
    t.crc = s.crc ∧ t.sn = s.sn ∧ t.sp = s.sp ∧ t.bytecnt = s.bytecnt ∧ t.txSpace = s.txSpace ∧ t.policy = s.policy ∧
    t.hostLog = s.hostLog ∧ t.snValid = s.snValid ∧ t.spValid = s.spValid ∧ (t.cur = s.cur ∨ t.cur = encode i) ∧
    (i ≠ .owReadByte → t.rxdata = s.rxdata ∧ t.rxValid = s.rxValid ∧ t.shift = s.shift) ∧
    (i = .seqConvert → t.faults = s.faults)

/-- 10_state.md R36: SEQ_READ_ROM does not write SP, and SEQ_READ_SCRATCHPAD, SEQ_POLL_READ and SEQ_BLOCKING_READ do not write
SN; none of the four records a fault or changes ECHO_POLICY, "has space" or what the host has read. -/
def Obligations.ReadSequencesFrame : Prop :=
  ∀ (s t : State) (i : Instr),
    (i = .seqReadRom ∨ i = .seqReadScratchpad ∨ i = .seqPollRead ∨ i = .seqBlockingRead) → exec i s = .next t →
    t.txSpace = s.txSpace ∧ t.policy = s.policy ∧ t.hostLog = s.hostLog ∧ t.faults = s.faults ∧
    (t.cur = s.cur ∨ t.cur = encode i) ∧
    (i = .seqReadRom → t.sp = s.sp ∧ t.spValid = s.spValid) ∧ (i ≠ .seqReadRom → t.sn = s.sn ∧ t.snValid = s.snValid)

/-! ## The codec -/

/-- 40_codec.md R102, R103, R109: the slot bytes, what each echo byte decodes to under either ECHO_POLICY, and that decoding an
encoded bit gives the bit. -/
def Obligations.SlotBytesAndEchoDecoding : Prop :=
  encodeBit true = 0xFF ∧ encodeBit false = 0x00 ∧
  (∀ p, decodeEcho p 0xFF = .bit true) ∧
  (∀ e : Byte, e ≠ 0xFF → decodeEcho .aliasZero e = .bit false) ∧
  decodeEcho .lineError 0x00 = .bit false ∧
  (∀ e : Byte, e ≠ 0xFF → e ≠ 0x00 → decodeEcho .lineError e = .line) ∧
  (∀ (p : EchoPolicy) (b : Bool), decodeEcho p (encodeBit b) = .bit b)

/-- 40_codec.md R106: NOP on any idle block finishes OK, with no event and no other change than CUR. -/
def Obligations.NopFinishesOk : Prop :=
  ∀ s : State, s.busy = false →
    ∃ t, exec .nop s = .next t ∧ FinishedWith .ok s t ∧ t = { s with status := t.status, cur := 0x0000, seqpos := 0 }

/-- 40_codec.md R107: OW_WRITE_BIT v on a ready block, for every v and every answer. -/
def Obligations.WriteBitResult : Prop :=
  ∀ (s : State) (v : Bool), Ready s →
    ∃ t, exec (.owWriteBit v) s = .next t ∧
      t.trace = s.trace ++ [.w, .b .high, .w, .s (if v then 0xFF else 0x00), .r (nextAnswer s)] ∧
      t.baud = .rate .high ∧ t.rxdata = s.rxdata ∧ t.rxraw = rawAfter s.rxraw [nextAnswer s] ∧
      (match answerFailure s.policy (nextAnswer s) with
        | none => FinishedWith .ok s t ∧ t.phase = s.phase
        | some c => FinishedWith c s t ∧ t.phase = .idle)

/-- 40_codec.md R108: OW_READ_BIT on a ready block, for every answer. -/
def Obligations.ReadBitResult : Prop :=
  ∀ s : State, Ready s →
    ∃ t, exec .owReadBit s = .next t ∧
      t.trace = s.trace ++ [.w, .b .high, .w, .s 0xFF, .r (nextAnswer s)] ∧
      t.baud = .rate .high ∧ t.rxraw = rawAfter s.rxraw [nextAnswer s] ∧
      (match answerBit s.policy (nextAnswer s) with
        | some b => FinishedWith .ok s t ∧ t.phase = s.phase ∧ t.rxdata = (if b then 0x01 else 0x00)
        | none => t.phase = .idle ∧ t.rxdata = s.rxdata ∧
            ∃ c, answerFailure s.policy (nextAnswer s) = some c ∧ FinishedWith c s t)

/-! ## The CRC engine -/

/-- 41_crc8.md R120, R121: crcStep is the XOR and eight shifts, and crc8 folds it over a list from 0. -/
def Obligations.CrcFunctionsAreTheSpecs : Prop :=
  (∀ acc b : Byte, crcStep acc b =
    (fun a : Byte => if a.getLsbD 0 then (a >>> 1) ^^^ 0x8C else a >>> 1)^[8] (acc ^^^ b)) ∧
  crc8 [] = 0x00 ∧ ∀ (xs : List Byte) (b : Byte), crc8 (xs ++ [b]) = crcStep (crc8 xs) b

/-- 41_crc8.md R123, R124: a list followed by its own CRC has CRC 0, and the two validation forms agree for every list and
byte. -/
def Obligations.CrcValidationFormsAgree : Prop :=
  (∀ xs : List Byte, crc8 (xs ++ [crc8 xs]) = 0x00) ∧
  (∀ (xs : List Byte) (c : Byte), crc8 (xs ++ [c]) = 0x00 ↔ crc8 xs = c)

/-- 41_crc8.md R127: crcStep depends on the XOR of its arguments only, and is linear in it; its first 16 values from 0 are the
rule's. -/
def Obligations.CrcStepIsLinear : Prop :=
  (∀ a b : Byte, crcStep a b = crcStep 0x00 (a ^^^ b)) ∧
  (∀ x y : Byte, crcStep 0x00 (x ^^^ y) = crcStep 0x00 x ^^^ crcStep 0x00 y) ∧
  (List.range 16).map (fun x => crcStep 0x00 (BitVec.ofNat 8 x)) =
    [0x00, 0x5E, 0xBC, 0xE2, 0x61, 0x3F, 0xDD, 0x83, 0xC2, 0x9C, 0x7E, 0x20, 0xA3, 0xFD, 0x1F, 0x41]

/-- 41_crc8.md R125, R126: CRC_INIT and CRC_UPDATE d on any idle block finish OK with the new accumulator, with no event and no
other change than CUR. -/
def Obligations.CrcCommandsResult : Prop :=
  ∀ s : State, s.busy = false →
    (∃ t, exec .crcInit s = .next t ∧ FinishedWith .ok s t ∧
      t = { s with status := t.status, crc := 0x00, cur := 0x6000, seqpos := 0 }) ∧
    (∀ d, ∃ t, exec (.crcUpdate d) s = .next t ∧ FinishedWith .ok s t ∧
      t = { s with status := t.status, crc := crcStep s.crc d, cur := encode (.crcUpdate d), seqpos := 0 })

/-- 41_crc8.md R126: CRC_INIT followed by CRC_UPDATE of the bytes in order leaves crc8 of them in CRC. That it takes as many
steps as there are commands, with the words written back to back and no wait between (R245), is the model's choice: a command
without events finishes in its accepting step (Log 6). -/
def Obligations.CrcProgramComputesCrc8 : Prop :=
  ∀ (s : State) (bytes : List Byte), s.busy = false →
    s.inputs = .command (encode .crcInit) :: bytes.map (fun d => .command (encode (.crcUpdate d))) →
    ∃ t, Host.Core.run core (bytes.length + 1) s = .next t ∧ t.crc = crc8 bytes ∧ t.busy = false ∧
      statusResult t.status = 0 ∧ t.trace = s.trace ∧ t.inputs = []

/-! ## The transaction engine -/

/-- 42_transaction.md R140, R141: OW_RESET on a ready block, for every answer and under both policies. -/
def Obligations.ResetPulseResult : Prop :=
  ∀ s : State, Ready s →
    ∃ t, exec .owReset s = .next t ∧ t.trace = s.trace ++ [.w, .b .low, .w, .s 0xF0, .r (nextAnswer s)] ∧
      t.baud = .rate .low ∧ t.rxdata = s.rxdata ∧ t.crc = s.crc ∧ t.sn = s.sn ∧ t.sp = s.sp ∧
      (match nextAnswer s with
        | .err => FinishedWith .transportError s t ∧ t.phase = .idle ∧ t.rxraw = s.rxraw
        | .byte e => t.rxraw = e ∧
            if e = 0xF0 then FinishedWith .noDevice s t ∧ t.phase = .idle
            else FinishedWith .ok s t ∧ t.phase = .addressed)

/-- 42_transaction.md R142, 20_memory.md R55: OW_WRITE_BYTE d on a ready block whose eight echoes decode: the bits of d go out
least significant first and PHASE is EXCHANGING. -/
def Obligations.WriteByteResult : Prop :=
  ∀ (s : State) (d : Byte) (as : List Answer) (bits : List Bool), Ready s → nextAnswers 8 s = as →
    answerBits s.policy as = some bits →
    ∃ t, exec (.owWriteByte d) s = .next t ∧ FinishedWith .ok s t ∧ t.trace = s.trace ++ byteEvents d as ∧
      t.rxraw = rawAfter s.rxraw as ∧ t.rxdata = s.rxdata ∧ t.baud = .rate .high ∧ t.phase = .exchanging

/-- 42_transaction.md R143, R144: OW_READ_BYTE on a ready block whose eight echoes decode: RXDATA is the sum of r_i * 2^i. -/
def Obligations.ReadByteResult : Prop :=
  ∀ (s : State) (as : List Answer) (bits : List Bool), Ready s → nextAnswers 8 s = as →
    answerBits s.policy as = some bits →
    ∃ t, exec .owReadByte s = .next t ∧ FinishedWith .ok s t ∧ t.trace = s.trace ++ byteEvents 0xFF as ∧
      t.rxdata.toNat = bitsValue bits ∧ t.rxraw = rawAfter s.rxraw as ∧ t.baud = .rate .high ∧ t.phase = .exchanging

/-- 42_transaction.md R145: the first answer that decodes to no bit ends OW_WRITE_BYTE or OW_READ_BYTE there: its code, no
further event, RXDATA as before, PHASE IDLE. -/
def Obligations.ByteCommandsAbortAtTheFirstFailure : Prop :=
  ∀ (s : State) (as : List Answer) (a : Answer) (bits : List Bool) (c : Result), Ready s → as.length < 8 →
    nextAnswers (as.length + 1) s = as ++ [a] → answerBits s.policy as = some bits → answerFailure s.policy a = some c →
    (∀ d, ∃ t, exec (.owWriteByte d) s = .next t ∧ FinishedWith c s t ∧
      t.trace = s.trace ++ [.w, .b .high] ++ slotsEvents ((sentBits d).take (as.length + 1)) (as ++ [a]) ∧
      t.rxraw = rawAfter s.rxraw (as ++ [a]) ∧ t.rxdata = s.rxdata ∧ t.phase = .idle) ∧
    (∃ t, exec .owReadByte s = .next t ∧ FinishedWith c s t ∧
      t.trace = s.trace ++ [.w, .b .high] ++ slotsEvents ((sentBits 0xFF).take (as.length + 1)) (as ++ [a]) ∧
      t.rxraw = rawAfter s.rxraw (as ++ [a]) ∧ t.rxdata = s.rxdata ∧ t.phase = .idle)

/-- 42_transaction.md R147: ProtocolViolation is recorded for OW_WRITE_BYTE in IDLE or RESET_ISSUED and for OW_READ_BYTE outside
EXCHANGING, once, and then only; and the PHASE the command starts in changes nothing but ghosts. -/
def Obligations.ProtocolViolationIsRecordedAndNoMore : Prop :=
  ∀ (s t : State) (d : Byte), s.busy = false →
    (exec (.owWriteByte d) s = .next t →
      t.faults = s.faults ++ (if s.phase = .idle ∨ s.phase = .resetIssued then [.protocolViolation] else [])) ∧
    (exec .owReadByte s = .next t →
      t.faults = s.faults ++ (if s.phase = .exchanging then [] else [.protocolViolation])) ∧
    (∀ (p : Phase) (i : Instr), i = .owWriteByte d ∨ i = .owReadByte →
      ∃ u u', exec i s = .next u ∧ exec i { s with phase := p } = .next u' ∧ eraseGhosts u = eraseGhosts u')

/-- 42_transaction.md R148: of OW_RESET, OW_WRITE_BYTE and OW_READ_BYTE, the result code, the trace and the register writes
depend only on the operand, the transport and ECHO_POLICY, never on what earlier commands left; and the command's first two
events select its own rate. -/
def Obligations.EngineHasNoCrossCallState : Prop :=
  ∀ (s s' : State) (i : Instr) (d : Byte), (i = .owReset ∨ i = .owWriteByte d ∨ i = .owReadByte) →
    s.busy = false → s'.busy = false → s.policy = s'.policy → s.rx = s'.rx → s.draws = s'.draws →
    s.txSpace = s'.txSpace → s.inputs = s'.inputs →
    ∃ t t' es, exec i s = .next t ∧ exec i s' = .next t' ∧ t.trace = s.trace ++ es ∧ t'.trace = s'.trace ++ es ∧
      t.busy = t'.busy ∧ (t.busy = false → statusResult t.status = statusResult t'.status) ∧
      (t.rxraw = t'.rxraw ∨ (t.rxraw = s.rxraw ∧ t'.rxraw = s'.rxraw)) ∧
      (t.rxdata = t'.rxdata ∨ (t.rxdata = s.rxdata ∧ t'.rxdata = s'.rxdata)) ∧
      (es <+: [.w, .b (if i = .owReset then .low else .high)] ∨ [.w, .b (if i = .owReset then .low else .high)] <+: es)

/-- 60_exceptions.md R216, 42_transaction.md R146: a command that finishes with NO_DEVICE, TRANSPORT_ERROR or LINE_ERROR leaves
PHASE IDLE, so that the next byte command without a reset is a ProtocolViolation: where it finishes in its accepting step, where
it finishes in a later one, and as an invariant that every step keeps from every state that meets it. -/
def Obligations.FailureLeavesPhaseIdle : Prop :=
  (∀ (s : State) (i : Instr), s.busy = false → ∃ t, exec i s = .next t ∧ FailedIsIdle t) ∧
  (∀ s t : State, s.busy = true → step s = .next t → FailedIsIdle t) ∧
  (∀ s t : State, FailedIsIdle s → step s = .next t → FailedIsIdle t)

/-- 20_memory.md R61, R62, 70_reset_and_hazards.md R244: a WaitTxSpace stands directly before every SetBaud and Send, a Recv
directly after every Send and nowhere else. CUR and SEQPOS fix where the port stands between two steps; every step without a
block reset, the accepting one and each that carries the command on, goes on from there, and a finished command leaves no Send
unanswered. So a whole trace in order stays in order. A block reset makes no event and leaves the block free at the port (R241). -/
def Obligations.TransportPortIsUsedInOrder : Prop :=
  (∀ (s : State) (i : Instr), s.busy = false →
    ∃ t es, exec i s = .next t ∧ t.trace = s.trace ++ es ∧ portAfterAll .free es = some (portAt t) ∧
      (t.busy = false → portAt t = .free)) ∧
  (∀ s t : State, s.inputs.head? ≠ some .blockReset → step s = .next t →
    ∃ es, t.trace = s.trace ++ es ∧ portAfterAll (portAt s) es = some (portAt t)) ∧
  (∀ s t : State, PortInOrder s → s.inputs.head? ≠ some .blockReset → step s = .next t → PortInOrder t) ∧
  (∀ s t : State, s.inputs.head? = some .blockReset → step s = .next t → t.trace = s.trace ∧ portAt t = .free)

/-- 60_exceptions.md R211: a finished command's RESULT is one of the codes the table allows it, LINE_ERROR only under ECHO_POLICY
= LINE_ERROR: where it finishes in its accepting step, where it finishes in a later one (after an interruption, a hold or a busy
poll) without a block reset, and as an invariant that every step keeps: an idle block's RESULT is allowed to the word in CUR. -/
def Obligations.CommandsFinishOnlyWithTheirCodes : Prop :=
  (∀ (s : State) (i : Instr), s.busy = false →
    ∃ t, exec i s = .next t ∧ (t.busy = false → ∃ c ∈ allowedResults s.policy i, statusResult t.status = resultCode c)) ∧
  (∀ (s t : State) (i : Instr), s.busy = true → decodeWord s.cur = some i → s.inputs.head? ≠ some .blockReset →
    step s = .next t → t.busy = false → ∃ c ∈ allowedResults s.policy i, statusResult t.status = resultCode c) ∧
  (∀ s t : State, ResultFits s → step s = .next t → ResultFits t)

/-! ## The sequences -/

/-- 43_sequences.md R160, R162, R163, R164, R166 (D17, D18): a sequence that begins with a reset finishes with its code when it
fails, after the five events of the reset. -/
def Obligations.SequencesEndWithAFailedReset : Prop :=
  ∀ (s : State) (i : Instr), Ready s →
    (i = .seqReadRom ∨ i = .seqConvert ∨ i = .seqReadScratchpad ∨ i = .seqBlockingRead) →
    (nextAnswer s = .err ∨ nextAnswer s = .byte 0xF0) →
    ∃ t, exec i s = .next t ∧ t.trace = s.trace ++ resetEvents (nextAnswer s) ∧ t.phase = .idle ∧
      t.rxdata = s.rxdata ∧ t.crc = s.crc ∧ t.sn = s.sn ∧ t.sp = s.sp ∧
      FinishedWith (if nextAnswer s = .err then .transportError else .noDevice) s t

/-- 43_sequences.md R163: SEQ_CONVERT with a device present and echoes that decode: reset, skip-ROM, convert, 57 events. -/
def Obligations.ConvertResult : Prop :=
  ∀ (s : State) (e : Byte) (as : List Answer) (bits : List Bool), Ready s → nextAnswers 17 s = .byte e :: as → e ≠ 0xF0 →
    answerBits s.policy as = some bits →
    ∃ t, exec .seqConvert s = .next t ∧ FinishedWith .ok s t ∧
      t.trace = s.trace ++ resetEvents (.byte e) ++ byteEvents 0xCC (as.take 8) ++ byteEvents 0x44 (as.drop 8) ∧
      t.trace.length = s.trace.length + 57 ∧ t.rxraw = rawAfter e as ∧ t.phase = .exchanging ∧ t.faults = s.faults

/-- 43_sequences.md R161, R162: SEQ_READ_ROM with a device present and echoes that decode: the eight bytes read are SN, CRC is
their crc8, and the result says whether it is 0. -/
def Obligations.ReadRomResult : Prop :=
  ∀ (s : State) (e : Byte) (as : List Answer) (bits : List Bool), Ready s → nextAnswers 73 s = .byte e :: as → e ≠ 0xF0 →
    answerBits s.policy as = some bits →
    ∃ t, exec .seqReadRom s = .next t ∧ (∀ k : Fin 8, t.sn[k] = byteAt bits (k.val + 1)) ∧
      t.crc = crc8 t.sn.toList ∧ t.rxdata = t.sn[7] ∧ t.rxraw = rawAfter e as ∧
      FinishedWith (if crc8 t.sn.toList = 0x00 then .ok else .checksumMismatch) s t ∧
      t.snValid = decide (crc8 t.sn.toList = 0x00) ∧ t.phase = .idle ∧ t.faults = s.faults ∧
      t.trace = s.trace ++ resetEvents (.byte e) ++ byteEvents 0x33 (as.take 8) ++
        (List.range 8).flatMap (fun k => byteEvents 0xFF ((as.drop (8 * (k + 1))).take 8)) ∧
      t.trace.length = s.trace.length + 239

/-- 43_sequences.md R161, R164: SEQ_READ_SCRATCHPAD with a device present and echoes that decode: the nine bytes read are SP,
CRC is crc8 of the first eight, and the result says whether it is the ninth. -/
def Obligations.ReadScratchpadResult : Prop :=
  ∀ (s : State) (e : Byte) (as : List Answer) (bits : List Bool), Ready s → nextAnswers 89 s = .byte e :: as → e ≠ 0xF0 →
    answerBits s.policy as = some bits →
    ∃ t, exec .seqReadScratchpad s = .next t ∧ (∀ k : Fin 9, t.sp[k] = byteAt bits (k.val + 2)) ∧
      t.crc = crc8 (t.sp.toList.take 8) ∧ t.rxdata = t.sp[8] ∧ t.rxraw = rawAfter e as ∧
      FinishedWith (if crc8 (t.sp.toList.take 8) = t.sp[8] then .ok else .checksumMismatch) s t ∧
      t.spValid = decide (crc8 (t.sp.toList.take 8) = t.sp[8]) ∧ t.phase = .idle ∧ t.faults = s.faults ∧
      t.trace = s.trace ++ resetEvents (.byte e) ++ byteEvents 0xCC (as.take 8) ++ byteEvents 0xBE ((as.drop 8).take 8) ++
        (List.range 9).flatMap (fun k => byteEvents 0xFF ((as.drop (8 * (k + 2))).take 8)) ∧
      t.trace.length = s.trace.length + 291

/-- 43_sequences.md R167: SEQ_POLL_READ whose poll bit is 0 reports BUSY_CONVERTING after exactly five events, the last of them
the poll bit's Recv, and leaves SP and CRC. -/
def Obligations.PollReadBusyStopsAtThePollBit : Prop :=
  ∀ s : State, Ready s → answerBit s.policy (nextAnswer s) = some false →
    ∃ t, exec .seqPollRead s = .next t ∧ FinishedWith .busyConverting s t ∧
      t.trace = s.trace ++ [.w, .b .high, .w, .s 0xFF, .r (nextAnswer s)] ∧ t.rxdata = 0x00 ∧
      t.sp = s.sp ∧ t.crc = s.crc ∧ t.phase = s.phase

/-- 43_sequences.md R165 (D19): SEQ_POLL_READ ends with the poll bit's own failure. -/
def Obligations.PollReadEndsWithAFailedPollBit : Prop :=
  ∀ (s : State) (c : Result), Ready s → answerFailure s.policy (nextAnswer s) = some c →
    ∃ t, exec .seqPollRead s = .next t ∧ FinishedWith c s t ∧
      t.trace = s.trace ++ [.w, .b .high, .w, .s 0xFF, .r (nextAnswer s)] ∧ t.rxdata = s.rxdata ∧ t.sp = s.sp ∧
      t.phase = .idle

/-- 43_sequences.md R165: SEQ_POLL_READ whose poll bit is 1, with a device present and echoes that decode, reads the scratchpad:
5 + 291 events. -/
def Obligations.PollReadReadyReadsTheScratchpad : Prop :=
  ∀ (s : State) (p : Answer) (e : Byte) (as : List Answer) (bits : List Bool), Ready s →
    nextAnswers 90 s = p :: .byte e :: as → answerBit s.policy p = some true → e ≠ 0xF0 → answerBits s.policy as = some bits →
    ∃ t, exec .seqPollRead s = .next t ∧ (∀ k : Fin 9, t.sp[k] = byteAt bits (k.val + 2)) ∧
      t.crc = crc8 (t.sp.toList.take 8) ∧ t.rxdata = t.sp[8] ∧
      FinishedWith (if crc8 (t.sp.toList.take 8) = t.sp[8] then .ok else .checksumMismatch) s t ∧ t.phase = .idle ∧
      t.trace.length = s.trace.length + 296

/-- 43_sequences.md R169: a scratchpad of nine bytes whose ninth is the CRC of the first eight, with one bit of the first eight
flipped on the bus, makes SEQ_POLL_READ finish with CHECKSUM_MISMATCH; the model's ghost spValid is then false (Log 12). -/
def Obligations.FlippedBitGivesChecksumMismatch : Prop :=
  ∀ (s : State) (p : Answer) (e : Byte) (cmds : List Answer) (cmdBits : List Bool) (data : List Byte) (k : Fin 8) (j : Fin 8),
    Ready s → answerBit s.policy p = some true → e ≠ 0xF0 → cmds.length = 16 → answerBits s.policy cmds = some cmdBits →
    data.length = 8 →
    nextAnswers 90 s = p :: .byte e :: cmds ++
      ((data.modify k.val (fun d => d ^^^ ((0x01 : Byte) <<< j.val))) ++ [crc8 data]).flatMap echoes →
    ∃ t, exec .seqPollRead s = .next t ∧ FinishedWith .checksumMismatch s t ∧ t.spValid = false

/-- 43_sequences.md R166: SEQ_BLOCKING_READ whose conversion and whose first poll succeed, with a device present and echoes that
decode, converts and reads the scratchpad: 57 + 296 events. -/
def Obligations.BlockingReadResult : Prop :=
  ∀ (s : State) (e e' : Byte) (as as' : List Answer) (p : Answer) (bits bits' : List Bool), Ready s →
    nextAnswers 107 s = .byte e :: as ++ p :: .byte e' :: as' → as.length = 16 → e ≠ 0xF0 → e' ≠ 0xF0 →
    answerBits s.policy as = some bits → answerBit s.policy p = some true → answerBits s.policy as' = some bits' →
    ∃ t, exec .seqBlockingRead s = .next t ∧ (∀ k : Fin 9, t.sp[k] = byteAt bits' (k.val + 2)) ∧
      t.crc = crc8 (t.sp.toList.take 8) ∧
      FinishedWith (if crc8 (t.sp.toList.take 8) = t.sp[8] then .ok else .checksumMismatch) s t ∧ t.phase = .idle ∧
      t.trace.length = s.trace.length + 57 + 296

/-- 43_sequences.md R168, 60_exceptions.md R212 (Log 7: one poll cycle per step): with N polls busy and the next one ready,
SEQ_BLOCKING_READ makes exactly N + 1 poll cycles, 57 + 5 N + 296 events, and its result is the last poll's: SP is the
scratchpad that poll read. -/
def Obligations.BlockingReadPollsUntilReady : Prop :=
  ∀ (s : State) (e e' : Byte) (as busy as' : List Answer) (p : Answer) (bits bits' : List Bool) (rest : List Input),
    s.busy = false → s.txSpace = true → s.inputs = .command 0xC000 :: rest → undisturbed { s with inputs := rest } = true →
    nextAnswers (busy.length + 107) s = .byte e :: as ++ busy ++ p :: .byte e' :: as' → as.length = 16 →
    e ≠ 0xF0 → e' ≠ 0xF0 → answerBits s.policy as = some bits → (∀ a ∈ busy, answerBit s.policy a = some false) →
    answerBit s.policy p = some true → answerBits s.policy as' = some bits' →
    ∃ t, Host.Core.run core (busy.length + 1) s = .next t ∧ (∀ k : Fin 9, t.sp[k] = byteAt bits' (k.val + 2)) ∧
      FinishedWith (if crc8 (t.sp.toList.take 8) = t.sp[8] then .ok else .checksumMismatch) s t ∧
      t.trace = s.trace ++ resetEvents (.byte e) ++ byteEvents 0xCC (as.take 8) ++ byteEvents 0x44 (as.drop 8) ++
        (busy ++ [p]).flatMap pollEvents ++
        resetEvents (.byte e') ++ byteEvents 0xCC (as'.take 8) ++ byteEvents 0xBE ((as'.drop 8).take 8) ++
        (List.range 9).flatMap (fun k => byteEvents 0xFF ((as'.drop (8 * (k + 2))).take 8)) ∧
      t.trace.length = s.trace.length + 57 + 5 * busy.length + 296

/-- 43_sequences.md R166, 92_eei_decisions.md D32: under FAIR_CONVERSION a SEQ_BLOCKING_READ that polls, with nothing else
happening and transmit space, finishes, and never with BUSY_CONVERTING. That it stands at SEQPOS 57 before each poll and does one
busy poll in a step is the model's choice (Log 7). -/
def Obligations.BlockingReadEndsUnderFairConversion : Prop :=
  ∀ s : State, s.busy = true → s.cur = 0xC000 → s.seqpos = 57 → undisturbed s = true → s.txSpace = true →
    FairConversion s →
    ∃ k t, Host.Core.run core k s = .next t ∧ t.busy = false ∧ statusResult t.status ≠ resultCode .busyConverting

/-! ## The host's decodes and its programs -/

/-- 44_temperature_decode.md R191, R192, R193, R196: tempInt is the floor of half the 9-bit value, a signed byte; there is no
temperature where sp[7] = 0, else the exact rational of the formula; and the worked decode is 485/12. -/
def Obligations.TemperatureIsTheFormula : Prop :=
  (∀ sp : Vector Byte 9, tempInt sp = ((sp[0].toNat : Int) - 256 * (if sp[1] = 0 then 0 else 1)) / 2 ∧
    -128 ≤ tempInt sp ∧ tempInt sp ≤ 127) ∧
  (∀ sp : Vector Byte 9, temperature sp = none ↔ sp[7] = 0) ∧
  (∀ (sp : Vector Byte 9) (t : Rat), temperature sp = some t →
    t = (tempInt sp : Rat) - 1 / 4 + ((sp[7].toNat : Rat) - (sp[6].toNat : Rat)) / (sp[7].toNat : Rat)) ∧
  temperature #v[0x50, 0x00, 0x4B, 0x46, 0xFF, 0xFF, 0x04, 0x0C, 0x44] = some (485 / 12)

/-- 44_temperature_decode.md R190, 60_exceptions.md R214 (Log 12): a host decode of bytes not delivered with RESULT = OK, or of
a temperature with sp[7] = 0, records TempDecodeUndefined and gives the host nothing; any other gives its value and records
nothing. -/
def Obligations.HostDecodesFaultOrAnswer : Prop :=
  ∀ (s : State) (rest : List Input),
    (s.inputs = .decodeTemperature :: rest → s.spValid = false ∨ s.sp[7] = 0 →
      step s = .next { s with inputs := rest, faults := s.faults ++ [.tempDecodeUndefined] }) ∧
    (s.inputs = .decodeTemperature :: rest → s.spValid = true → s.sp[7] ≠ 0 →
      ∃ t, temperature s.sp = some t ∧
        step s = .next { s with inputs := rest, hostLog := s.hostLog ++ [.temperature t] }) ∧
    (s.inputs = .decodeTempInt :: rest →
      step s = .next (if s.spValid then { s with inputs := rest, hostLog := s.hostLog ++ [.tempInt (tempInt s.sp)] }
        else { s with inputs := rest, faults := s.faults ++ [.tempDecodeUndefined] })) ∧
    (s.inputs = .decodeSerial :: rest →
      step s = .next (if s.snValid then
          { s with inputs := rest, hostLog := s.hostLog ++ [.serial s.sn[0] (serial s.sn) s.sn[7]] }
        else { s with inputs := rest, faults := s.faults ++ [.tempDecodeUndefined] }))

/-- 44_temperature_decode.md R195: the serial number's 48 bits, byte 1 the most significant. -/
def Obligations.SerialIsBigEndian : Prop :=
  ∀ sn : Vector Byte 8, serial sn = (sn[1] ++ sn[2] ++ sn[3] ++ sn[4] ++ sn[5] ++ sn[6] : BitVec 48).toNat
end

