-- ==== Sys2Proof/Laws/State.lean ====
section
/-! SUPPORT. One lemma per field per update of the state, so that no proof unfolds a record update. -/

namespace Sys2Proof.Machine

variable (s : State)

/-! ### record -/

@[simp] theorem record_status (e : Event) : (record e s).status = s.status := rfl
@[simp] theorem record_rxdata (e : Event) : (record e s).rxdata = s.rxdata := rfl
@[simp] theorem record_rxraw (e : Event) : (record e s).rxraw = s.rxraw := rfl
@[simp] theorem record_crc (e : Event) : (record e s).crc = s.crc := rfl
@[simp] theorem record_sn (e : Event) : (record e s).sn = s.sn := rfl
@[simp] theorem record_sp (e : Event) : (record e s).sp = s.sp := rfl
@[simp] theorem record_seqpos (e : Event) : (record e s).seqpos = s.seqpos + 1 := rfl
@[simp] theorem record_shift (e : Event) : (record e s).shift = s.shift := rfl
@[simp] theorem record_bitcnt (e : Event) : (record e s).bitcnt = s.bitcnt := rfl
@[simp] theorem record_bytecnt (e : Event) : (record e s).bytecnt = s.bytecnt := rfl
@[simp] theorem record_cur (e : Event) : (record e s).cur = s.cur := rfl
@[simp] theorem record_baud (e : Event) : (record e s).baud = s.baud := rfl
@[simp] theorem record_txSpace (e : Event) : (record e s).txSpace = s.txSpace := rfl
@[simp] theorem record_rx (e : Event) : (record e s).rx = s.rx := rfl
@[simp] theorem record_draws (e : Event) : (record e s).draws = s.draws := rfl
@[simp] theorem record_phase (e : Event) : (record e s).phase = s.phase := rfl
@[simp] theorem record_faults (e : Event) : (record e s).faults = s.faults := rfl
@[simp] theorem record_trace (e : Event) : (record e s).trace = s.trace ++ [e] := rfl
@[simp] theorem record_policy (e : Event) : (record e s).policy = s.policy := rfl
@[simp] theorem record_inputs (e : Event) : (record e s).inputs = countDown s.inputs := rfl
@[simp] theorem record_hostLog (e : Event) : (record e s).hostLog = s.hostLog := rfl
@[simp] theorem record_rxValid (e : Event) : (record e s).rxValid = s.rxValid := rfl
@[simp] theorem record_snValid (e : Event) : (record e s).snValid = s.snValid := rfl
@[simp] theorem record_spValid (e : Event) : (record e s).spValid = s.spValid := rfl

/-! ### setPhase -/

@[simp] theorem setPhase_status (p : Phase) : (setPhase p s).status = s.status := rfl
@[simp] theorem setPhase_rxdata (p : Phase) : (setPhase p s).rxdata = s.rxdata := rfl
@[simp] theorem setPhase_rxraw (p : Phase) : (setPhase p s).rxraw = s.rxraw := rfl
@[simp] theorem setPhase_crc (p : Phase) : (setPhase p s).crc = s.crc := rfl
@[simp] theorem setPhase_sn (p : Phase) : (setPhase p s).sn = s.sn := rfl
@[simp] theorem setPhase_sp (p : Phase) : (setPhase p s).sp = s.sp := rfl
@[simp] theorem setPhase_seqpos (p : Phase) : (setPhase p s).seqpos = s.seqpos := rfl
@[simp] theorem setPhase_shift (p : Phase) : (setPhase p s).shift = s.shift := rfl
@[simp] theorem setPhase_bitcnt (p : Phase) : (setPhase p s).bitcnt = s.bitcnt := rfl
@[simp] theorem setPhase_bytecnt (p : Phase) : (setPhase p s).bytecnt = s.bytecnt := rfl
@[simp] theorem setPhase_cur (p : Phase) : (setPhase p s).cur = s.cur := rfl
@[simp] theorem setPhase_baud (p : Phase) : (setPhase p s).baud = s.baud := rfl
@[simp] theorem setPhase_txSpace (p : Phase) : (setPhase p s).txSpace = s.txSpace := rfl
@[simp] theorem setPhase_rx (p : Phase) : (setPhase p s).rx = s.rx := rfl
@[simp] theorem setPhase_draws (p : Phase) : (setPhase p s).draws = s.draws := rfl
@[simp] theorem setPhase_phase (p : Phase) : (setPhase p s).phase = p := rfl
@[simp] theorem setPhase_faults (p : Phase) : (setPhase p s).faults = s.faults := rfl
@[simp] theorem setPhase_trace (p : Phase) : (setPhase p s).trace = s.trace := rfl
@[simp] theorem setPhase_policy (p : Phase) : (setPhase p s).policy = s.policy := rfl
@[simp] theorem setPhase_inputs (p : Phase) : (setPhase p s).inputs = s.inputs := rfl
@[simp] theorem setPhase_hostLog (p : Phase) : (setPhase p s).hostLog = s.hostLog := rfl
@[simp] theorem setPhase_rxValid (p : Phase) : (setPhase p s).rxValid = s.rxValid := rfl
@[simp] theorem setPhase_snValid (p : Phase) : (setPhase p s).snValid = s.snValid := rfl
@[simp] theorem setPhase_spValid (p : Phase) : (setPhase p s).spValid = s.spValid := rfl

/-! ### setRxraw -/

@[simp] theorem setRxraw_status (v : Byte) : (setRxraw v s).status = s.status := rfl
@[simp] theorem setRxraw_rxdata (v : Byte) : (setRxraw v s).rxdata = s.rxdata := rfl
@[simp] theorem setRxraw_rxraw (v : Byte) : (setRxraw v s).rxraw = v := rfl
@[simp] theorem setRxraw_crc (v : Byte) : (setRxraw v s).crc = s.crc := rfl
@[simp] theorem setRxraw_sn (v : Byte) : (setRxraw v s).sn = s.sn := rfl
@[simp] theorem setRxraw_sp (v : Byte) : (setRxraw v s).sp = s.sp := rfl
@[simp] theorem setRxraw_seqpos (v : Byte) : (setRxraw v s).seqpos = s.seqpos := rfl
@[simp] theorem setRxraw_shift (v : Byte) : (setRxraw v s).shift = s.shift := rfl
@[simp] theorem setRxraw_bitcnt (v : Byte) : (setRxraw v s).bitcnt = s.bitcnt := rfl
@[simp] theorem setRxraw_bytecnt (v : Byte) : (setRxraw v s).bytecnt = s.bytecnt := rfl
@[simp] theorem setRxraw_cur (v : Byte) : (setRxraw v s).cur = s.cur := rfl
@[simp] theorem setRxraw_baud (v : Byte) : (setRxraw v s).baud = s.baud := rfl
@[simp] theorem setRxraw_txSpace (v : Byte) : (setRxraw v s).txSpace = s.txSpace := rfl
@[simp] theorem setRxraw_rx (v : Byte) : (setRxraw v s).rx = s.rx := rfl
@[simp] theorem setRxraw_draws (v : Byte) : (setRxraw v s).draws = s.draws := rfl
@[simp] theorem setRxraw_phase (v : Byte) : (setRxraw v s).phase = s.phase := rfl
@[simp] theorem setRxraw_faults (v : Byte) : (setRxraw v s).faults = s.faults := rfl
@[simp] theorem setRxraw_trace (v : Byte) : (setRxraw v s).trace = s.trace := rfl
@[simp] theorem setRxraw_policy (v : Byte) : (setRxraw v s).policy = s.policy := rfl
@[simp] theorem setRxraw_inputs (v : Byte) : (setRxraw v s).inputs = s.inputs := rfl
@[simp] theorem setRxraw_hostLog (v : Byte) : (setRxraw v s).hostLog = s.hostLog := rfl
@[simp] theorem setRxraw_rxValid (v : Byte) : (setRxraw v s).rxValid = s.rxValid := rfl
@[simp] theorem setRxraw_snValid (v : Byte) : (setRxraw v s).snValid = s.snValid := rfl
@[simp] theorem setRxraw_spValid (v : Byte) : (setRxraw v s).spValid = s.spValid := rfl

/-! ### setRxdata -/

@[simp] theorem setRxdata_status (v : Byte) : (setRxdata v s).status = s.status := rfl
@[simp] theorem setRxdata_rxdata (v : Byte) : (setRxdata v s).rxdata = v := rfl
@[simp] theorem setRxdata_rxraw (v : Byte) : (setRxdata v s).rxraw = s.rxraw := rfl
@[simp] theorem setRxdata_crc (v : Byte) : (setRxdata v s).crc = s.crc := rfl
@[simp] theorem setRxdata_sn (v : Byte) : (setRxdata v s).sn = s.sn := rfl
@[simp] theorem setRxdata_sp (v : Byte) : (setRxdata v s).sp = s.sp := rfl
@[simp] theorem setRxdata_seqpos (v : Byte) : (setRxdata v s).seqpos = s.seqpos := rfl
@[simp] theorem setRxdata_shift (v : Byte) : (setRxdata v s).shift = s.shift := rfl
@[simp] theorem setRxdata_bitcnt (v : Byte) : (setRxdata v s).bitcnt = s.bitcnt := rfl
@[simp] theorem setRxdata_bytecnt (v : Byte) : (setRxdata v s).bytecnt = s.bytecnt := rfl
@[simp] theorem setRxdata_cur (v : Byte) : (setRxdata v s).cur = s.cur := rfl
@[simp] theorem setRxdata_baud (v : Byte) : (setRxdata v s).baud = s.baud := rfl
@[simp] theorem setRxdata_txSpace (v : Byte) : (setRxdata v s).txSpace = s.txSpace := rfl
@[simp] theorem setRxdata_rx (v : Byte) : (setRxdata v s).rx = s.rx := rfl
@[simp] theorem setRxdata_draws (v : Byte) : (setRxdata v s).draws = s.draws := rfl
@[simp] theorem setRxdata_phase (v : Byte) : (setRxdata v s).phase = s.phase := rfl
@[simp] theorem setRxdata_faults (v : Byte) : (setRxdata v s).faults = s.faults := rfl
@[simp] theorem setRxdata_trace (v : Byte) : (setRxdata v s).trace = s.trace := rfl
@[simp] theorem setRxdata_policy (v : Byte) : (setRxdata v s).policy = s.policy := rfl
@[simp] theorem setRxdata_inputs (v : Byte) : (setRxdata v s).inputs = s.inputs := rfl
@[simp] theorem setRxdata_hostLog (v : Byte) : (setRxdata v s).hostLog = s.hostLog := rfl
@[simp] theorem setRxdata_rxValid (v : Byte) : (setRxdata v s).rxValid = true := rfl
@[simp] theorem setRxdata_snValid (v : Byte) : (setRxdata v s).snValid = s.snValid := rfl
@[simp] theorem setRxdata_spValid (v : Byte) : (setRxdata v s).spValid = s.spValid := rfl

/-! ### setCrc -/

@[simp] theorem setCrc_status (v : Byte) : (setCrc v s).status = s.status := rfl
@[simp] theorem setCrc_rxdata (v : Byte) : (setCrc v s).rxdata = s.rxdata := rfl
@[simp] theorem setCrc_rxraw (v : Byte) : (setCrc v s).rxraw = s.rxraw := rfl
@[simp] theorem setCrc_crc (v : Byte) : (setCrc v s).crc = v := rfl
@[simp] theorem setCrc_sn (v : Byte) : (setCrc v s).sn = s.sn := rfl
@[simp] theorem setCrc_sp (v : Byte) : (setCrc v s).sp = s.sp := rfl
@[simp] theorem setCrc_seqpos (v : Byte) : (setCrc v s).seqpos = s.seqpos := rfl
@[simp] theorem setCrc_shift (v : Byte) : (setCrc v s).shift = s.shift := rfl
@[simp] theorem setCrc_bitcnt (v : Byte) : (setCrc v s).bitcnt = s.bitcnt := rfl
@[simp] theorem setCrc_bytecnt (v : Byte) : (setCrc v s).bytecnt = s.bytecnt := rfl
@[simp] theorem setCrc_cur (v : Byte) : (setCrc v s).cur = s.cur := rfl
@[simp] theorem setCrc_baud (v : Byte) : (setCrc v s).baud = s.baud := rfl
@[simp] theorem setCrc_txSpace (v : Byte) : (setCrc v s).txSpace = s.txSpace := rfl
@[simp] theorem setCrc_rx (v : Byte) : (setCrc v s).rx = s.rx := rfl
@[simp] theorem setCrc_draws (v : Byte) : (setCrc v s).draws = s.draws := rfl
@[simp] theorem setCrc_phase (v : Byte) : (setCrc v s).phase = s.phase := rfl
@[simp] theorem setCrc_faults (v : Byte) : (setCrc v s).faults = s.faults := rfl
@[simp] theorem setCrc_trace (v : Byte) : (setCrc v s).trace = s.trace := rfl
@[simp] theorem setCrc_policy (v : Byte) : (setCrc v s).policy = s.policy := rfl
@[simp] theorem setCrc_inputs (v : Byte) : (setCrc v s).inputs = s.inputs := rfl
@[simp] theorem setCrc_hostLog (v : Byte) : (setCrc v s).hostLog = s.hostLog := rfl
@[simp] theorem setCrc_rxValid (v : Byte) : (setCrc v s).rxValid = s.rxValid := rfl
@[simp] theorem setCrc_snValid (v : Byte) : (setCrc v s).snValid = s.snValid := rfl
@[simp] theorem setCrc_spValid (v : Byte) : (setCrc v s).spValid = s.spValid := rfl

/-! ### recordFault -/

@[simp] theorem recordFault_status (f : Fault) : (recordFault f s).status = s.status := rfl
@[simp] theorem recordFault_rxdata (f : Fault) : (recordFault f s).rxdata = s.rxdata := rfl
@[simp] theorem recordFault_rxraw (f : Fault) : (recordFault f s).rxraw = s.rxraw := rfl
@[simp] theorem recordFault_crc (f : Fault) : (recordFault f s).crc = s.crc := rfl
@[simp] theorem recordFault_sn (f : Fault) : (recordFault f s).sn = s.sn := rfl
@[simp] theorem recordFault_sp (f : Fault) : (recordFault f s).sp = s.sp := rfl
@[simp] theorem recordFault_seqpos (f : Fault) : (recordFault f s).seqpos = s.seqpos := rfl
@[simp] theorem recordFault_shift (f : Fault) : (recordFault f s).shift = s.shift := rfl
@[simp] theorem recordFault_bitcnt (f : Fault) : (recordFault f s).bitcnt = s.bitcnt := rfl
@[simp] theorem recordFault_bytecnt (f : Fault) : (recordFault f s).bytecnt = s.bytecnt := rfl
@[simp] theorem recordFault_cur (f : Fault) : (recordFault f s).cur = s.cur := rfl
@[simp] theorem recordFault_baud (f : Fault) : (recordFault f s).baud = s.baud := rfl
@[simp] theorem recordFault_txSpace (f : Fault) : (recordFault f s).txSpace = s.txSpace := rfl
@[simp] theorem recordFault_rx (f : Fault) : (recordFault f s).rx = s.rx := rfl
@[simp] theorem recordFault_draws (f : Fault) : (recordFault f s).draws = s.draws := rfl
@[simp] theorem recordFault_phase (f : Fault) : (recordFault f s).phase = s.phase := rfl
@[simp] theorem recordFault_faults (f : Fault) : (recordFault f s).faults = s.faults ++ [f] := rfl
@[simp] theorem recordFault_trace (f : Fault) : (recordFault f s).trace = s.trace := rfl
@[simp] theorem recordFault_policy (f : Fault) : (recordFault f s).policy = s.policy := rfl
@[simp] theorem recordFault_inputs (f : Fault) : (recordFault f s).inputs = s.inputs := rfl
@[simp] theorem recordFault_hostLog (f : Fault) : (recordFault f s).hostLog = s.hostLog := rfl
@[simp] theorem recordFault_rxValid (f : Fault) : (recordFault f s).rxValid = s.rxValid := rfl
@[simp] theorem recordFault_snValid (f : Fault) : (recordFault f s).snValid = s.snValid := rfl
@[simp] theorem recordFault_spValid (f : Fault) : (recordFault f s).spValid = s.spValid := rfl

/-! ### accept -/

@[simp] theorem accept_status (w : Word) : (accept w s).status = withOvr false (withBusy true s.status) := rfl
@[simp] theorem accept_rxdata (w : Word) : (accept w s).rxdata = s.rxdata := rfl
@[simp] theorem accept_rxraw (w : Word) : (accept w s).rxraw = s.rxraw := rfl
@[simp] theorem accept_crc (w : Word) : (accept w s).crc = s.crc := rfl
@[simp] theorem accept_sn (w : Word) : (accept w s).sn = s.sn := rfl
@[simp] theorem accept_sp (w : Word) : (accept w s).sp = s.sp := rfl
@[simp] theorem accept_seqpos (w : Word) : (accept w s).seqpos = 0 := rfl
@[simp] theorem accept_shift (w : Word) : (accept w s).shift = s.shift := rfl
@[simp] theorem accept_bitcnt (w : Word) : (accept w s).bitcnt = s.bitcnt := rfl
@[simp] theorem accept_bytecnt (w : Word) : (accept w s).bytecnt = s.bytecnt := rfl
@[simp] theorem accept_cur (w : Word) : (accept w s).cur = w := rfl
@[simp] theorem accept_baud (w : Word) : (accept w s).baud = s.baud := rfl
@[simp] theorem accept_txSpace (w : Word) : (accept w s).txSpace = s.txSpace := rfl
@[simp] theorem accept_rx (w : Word) : (accept w s).rx = s.rx := rfl
@[simp] theorem accept_draws (w : Word) : (accept w s).draws = s.draws := rfl
@[simp] theorem accept_phase (w : Word) : (accept w s).phase = s.phase := rfl
@[simp] theorem accept_faults (w : Word) : (accept w s).faults = s.faults := rfl
@[simp] theorem accept_trace (w : Word) : (accept w s).trace = s.trace := rfl
@[simp] theorem accept_policy (w : Word) : (accept w s).policy = s.policy := rfl
@[simp] theorem accept_inputs (w : Word) : (accept w s).inputs = s.inputs := rfl
@[simp] theorem accept_hostLog (w : Word) : (accept w s).hostLog = s.hostLog := rfl
@[simp] theorem accept_rxValid (w : Word) : (accept w s).rxValid = s.rxValid := rfl
@[simp] theorem accept_snValid (w : Word) : (accept w s).snValid = s.snValid := rfl
@[simp] theorem accept_spValid (w : Word) : (accept w s).spValid = s.spValid := rfl

/-! ### overrun -/

@[simp] theorem overrun_status : (overrun s).status = withOvr true s.status := rfl
@[simp] theorem overrun_rxdata : (overrun s).rxdata = s.rxdata := rfl
@[simp] theorem overrun_rxraw : (overrun s).rxraw = s.rxraw := rfl
@[simp] theorem overrun_crc : (overrun s).crc = s.crc := rfl
@[simp] theorem overrun_sn : (overrun s).sn = s.sn := rfl
@[simp] theorem overrun_sp : (overrun s).sp = s.sp := rfl
@[simp] theorem overrun_seqpos : (overrun s).seqpos = s.seqpos := rfl
@[simp] theorem overrun_shift : (overrun s).shift = s.shift := rfl
@[simp] theorem overrun_bitcnt : (overrun s).bitcnt = s.bitcnt := rfl
@[simp] theorem overrun_bytecnt : (overrun s).bytecnt = s.bytecnt := rfl
@[simp] theorem overrun_cur : (overrun s).cur = s.cur := rfl
@[simp] theorem overrun_baud : (overrun s).baud = s.baud := rfl
@[simp] theorem overrun_txSpace : (overrun s).txSpace = s.txSpace := rfl
@[simp] theorem overrun_rx : (overrun s).rx = s.rx := rfl
@[simp] theorem overrun_draws : (overrun s).draws = s.draws := rfl
@[simp] theorem overrun_phase : (overrun s).phase = s.phase := rfl
@[simp] theorem overrun_faults : (overrun s).faults = s.faults := rfl
@[simp] theorem overrun_trace : (overrun s).trace = s.trace := rfl
@[simp] theorem overrun_policy : (overrun s).policy = s.policy := rfl
@[simp] theorem overrun_inputs : (overrun s).inputs = s.inputs := rfl
@[simp] theorem overrun_hostLog : (overrun s).hostLog = s.hostLog := rfl
@[simp] theorem overrun_rxValid : (overrun s).rxValid = s.rxValid := rfl
@[simp] theorem overrun_snValid : (overrun s).snValid = s.snValid := rfl
@[simp] theorem overrun_spValid : (overrun s).spValid = s.spValid := rfl

/-! ### finish -/

@[simp] theorem finish_status (c : Result) : (finish c s).status = withBusy false (withResult c s.status) := rfl
@[simp] theorem finish_rxdata (c : Result) : (finish c s).rxdata = s.rxdata := rfl
@[simp] theorem finish_rxraw (c : Result) : (finish c s).rxraw = s.rxraw := rfl
@[simp] theorem finish_crc (c : Result) : (finish c s).crc = s.crc := rfl
@[simp] theorem finish_sn (c : Result) : (finish c s).sn = s.sn := rfl
@[simp] theorem finish_sp (c : Result) : (finish c s).sp = s.sp := rfl
@[simp] theorem finish_seqpos (c : Result) : (finish c s).seqpos = 0 := rfl
@[simp] theorem finish_shift (c : Result) : (finish c s).shift = s.shift := rfl
@[simp] theorem finish_bitcnt (c : Result) : (finish c s).bitcnt = s.bitcnt := rfl
@[simp] theorem finish_bytecnt (c : Result) : (finish c s).bytecnt = s.bytecnt := rfl
@[simp] theorem finish_cur (c : Result) : (finish c s).cur = s.cur := rfl
@[simp] theorem finish_baud (c : Result) : (finish c s).baud = s.baud := rfl
@[simp] theorem finish_txSpace (c : Result) : (finish c s).txSpace = s.txSpace := rfl
@[simp] theorem finish_rx (c : Result) : (finish c s).rx = s.rx := rfl
@[simp] theorem finish_draws (c : Result) : (finish c s).draws = s.draws := rfl
@[simp] theorem finish_phase (c : Result) : (finish c s).phase = s.phase := rfl
@[simp] theorem finish_faults (c : Result) : (finish c s).faults = s.faults := rfl
@[simp] theorem finish_trace (c : Result) : (finish c s).trace = s.trace := rfl
@[simp] theorem finish_policy (c : Result) : (finish c s).policy = s.policy := rfl
@[simp] theorem finish_inputs (c : Result) : (finish c s).inputs = s.inputs := rfl
@[simp] theorem finish_hostLog (c : Result) : (finish c s).hostLog = s.hostLog := rfl
@[simp] theorem finish_rxValid (c : Result) : (finish c s).rxValid = s.rxValid := rfl
@[simp] theorem finish_snValid (c : Result) : (finish c s).snValid = s.snValid := rfl
@[simp] theorem finish_spValid (c : Result) : (finish c s).spValid = s.spValid := rfl

/-! ### logHost -/

@[simp] theorem logHost_status (r : HostRecord) : (logHost r s).status = s.status := rfl
@[simp] theorem logHost_rxdata (r : HostRecord) : (logHost r s).rxdata = s.rxdata := rfl
@[simp] theorem logHost_rxraw (r : HostRecord) : (logHost r s).rxraw = s.rxraw := rfl
@[simp] theorem logHost_crc (r : HostRecord) : (logHost r s).crc = s.crc := rfl
@[simp] theorem logHost_sn (r : HostRecord) : (logHost r s).sn = s.sn := rfl
@[simp] theorem logHost_sp (r : HostRecord) : (logHost r s).sp = s.sp := rfl
@[simp] theorem logHost_seqpos (r : HostRecord) : (logHost r s).seqpos = s.seqpos := rfl
@[simp] theorem logHost_shift (r : HostRecord) : (logHost r s).shift = s.shift := rfl
@[simp] theorem logHost_bitcnt (r : HostRecord) : (logHost r s).bitcnt = s.bitcnt := rfl
@[simp] theorem logHost_bytecnt (r : HostRecord) : (logHost r s).bytecnt = s.bytecnt := rfl
@[simp] theorem logHost_cur (r : HostRecord) : (logHost r s).cur = s.cur := rfl
@[simp] theorem logHost_baud (r : HostRecord) : (logHost r s).baud = s.baud := rfl
@[simp] theorem logHost_txSpace (r : HostRecord) : (logHost r s).txSpace = s.txSpace := rfl
@[simp] theorem logHost_rx (r : HostRecord) : (logHost r s).rx = s.rx := rfl
@[simp] theorem logHost_draws (r : HostRecord) : (logHost r s).draws = s.draws := rfl
@[simp] theorem logHost_phase (r : HostRecord) : (logHost r s).phase = s.phase := rfl
@[simp] theorem logHost_faults (r : HostRecord) : (logHost r s).faults = s.faults := rfl
@[simp] theorem logHost_trace (r : HostRecord) : (logHost r s).trace = s.trace := rfl
@[simp] theorem logHost_policy (r : HostRecord) : (logHost r s).policy = s.policy := rfl
@[simp] theorem logHost_inputs (r : HostRecord) : (logHost r s).inputs = s.inputs := rfl
@[simp] theorem logHost_hostLog (r : HostRecord) : (logHost r s).hostLog = s.hostLog ++ [r] := rfl
@[simp] theorem logHost_rxValid (r : HostRecord) : (logHost r s).rxValid = s.rxValid := rfl
@[simp] theorem logHost_snValid (r : HostRecord) : (logHost r s).snValid = s.snValid := rfl
@[simp] theorem logHost_spValid (r : HostRecord) : (logHost r s).spValid = s.spValid := rfl

/-! ### State.popInput -/

@[simp] theorem popInput_status : (State.popInput s).status = s.status := rfl
@[simp] theorem popInput_rxdata : (State.popInput s).rxdata = s.rxdata := rfl
@[simp] theorem popInput_rxraw : (State.popInput s).rxraw = s.rxraw := rfl
@[simp] theorem popInput_crc : (State.popInput s).crc = s.crc := rfl
@[simp] theorem popInput_sn : (State.popInput s).sn = s.sn := rfl
@[simp] theorem popInput_sp : (State.popInput s).sp = s.sp := rfl
@[simp] theorem popInput_seqpos : (State.popInput s).seqpos = s.seqpos := rfl
@[simp] theorem popInput_shift : (State.popInput s).shift = s.shift := rfl
@[simp] theorem popInput_bitcnt : (State.popInput s).bitcnt = s.bitcnt := rfl
@[simp] theorem popInput_bytecnt : (State.popInput s).bytecnt = s.bytecnt := rfl
@[simp] theorem popInput_cur : (State.popInput s).cur = s.cur := rfl
@[simp] theorem popInput_baud : (State.popInput s).baud = s.baud := rfl
@[simp] theorem popInput_txSpace : (State.popInput s).txSpace = s.txSpace := rfl
@[simp] theorem popInput_rx : (State.popInput s).rx = s.rx := rfl
@[simp] theorem popInput_draws : (State.popInput s).draws = s.draws := rfl
@[simp] theorem popInput_phase : (State.popInput s).phase = s.phase := rfl
@[simp] theorem popInput_faults : (State.popInput s).faults = s.faults := rfl
@[simp] theorem popInput_trace : (State.popInput s).trace = s.trace := rfl
@[simp] theorem popInput_policy : (State.popInput s).policy = s.policy := rfl
@[simp] theorem popInput_inputs : (State.popInput s).inputs = s.inputs.tail := rfl
@[simp] theorem popInput_hostLog : (State.popInput s).hostLog = s.hostLog := rfl
@[simp] theorem popInput_rxValid : (State.popInput s).rxValid = s.rxValid := rfl
@[simp] theorem popInput_snValid : (State.popInput s).snValid = s.snValid := rfl
@[simp] theorem popInput_spValid : (State.popInput s).spValid = s.spValid := rfl

/-! ### consumeAnswer -/

@[simp] theorem consumeAnswer_status : (consumeAnswer s).status = s.status := by unfold consumeAnswer; split <;> rfl
@[simp] theorem consumeAnswer_rxdata : (consumeAnswer s).rxdata = s.rxdata := by unfold consumeAnswer; split <;> rfl
@[simp] theorem consumeAnswer_rxraw : (consumeAnswer s).rxraw = s.rxraw := by unfold consumeAnswer; split <;> rfl
@[simp] theorem consumeAnswer_crc : (consumeAnswer s).crc = s.crc := by unfold consumeAnswer; split <;> rfl
@[simp] theorem consumeAnswer_sn : (consumeAnswer s).sn = s.sn := by unfold consumeAnswer; split <;> rfl
@[simp] theorem consumeAnswer_sp : (consumeAnswer s).sp = s.sp := by unfold consumeAnswer; split <;> rfl
@[simp] theorem consumeAnswer_seqpos : (consumeAnswer s).seqpos = s.seqpos := by unfold consumeAnswer; split <;> rfl
@[simp] theorem consumeAnswer_shift : (consumeAnswer s).shift = s.shift := by unfold consumeAnswer; split <;> rfl
@[simp] theorem consumeAnswer_bitcnt : (consumeAnswer s).bitcnt = s.bitcnt := by unfold consumeAnswer; split <;> rfl
@[simp] theorem consumeAnswer_bytecnt : (consumeAnswer s).bytecnt = s.bytecnt := by unfold consumeAnswer; split <;> rfl
@[simp] theorem consumeAnswer_cur : (consumeAnswer s).cur = s.cur := by unfold consumeAnswer; split <;> rfl
@[simp] theorem consumeAnswer_baud : (consumeAnswer s).baud = s.baud := by unfold consumeAnswer; split <;> rfl
@[simp] theorem consumeAnswer_txSpace : (consumeAnswer s).txSpace = s.txSpace := by unfold consumeAnswer; split <;> rfl
@[simp] theorem consumeAnswer_phase : (consumeAnswer s).phase = s.phase := by unfold consumeAnswer; split <;> rfl
@[simp] theorem consumeAnswer_faults : (consumeAnswer s).faults = s.faults := by unfold consumeAnswer; split <;> rfl
@[simp] theorem consumeAnswer_trace : (consumeAnswer s).trace = s.trace := by unfold consumeAnswer; split <;> rfl
@[simp] theorem consumeAnswer_policy : (consumeAnswer s).policy = s.policy := by unfold consumeAnswer; split <;> rfl
@[simp] theorem consumeAnswer_inputs : (consumeAnswer s).inputs = s.inputs := by unfold consumeAnswer; split <;> rfl
@[simp] theorem consumeAnswer_hostLog : (consumeAnswer s).hostLog = s.hostLog := by unfold consumeAnswer; split <;> rfl
@[simp] theorem consumeAnswer_rxValid : (consumeAnswer s).rxValid = s.rxValid := by unfold consumeAnswer; split <;> rfl
@[simp] theorem consumeAnswer_snValid : (consumeAnswer s).snValid = s.snValid := by unfold consumeAnswer; split <;> rfl
@[simp] theorem consumeAnswer_spValid : (consumeAnswer s).spValid = s.spValid := by unfold consumeAnswer; split <;> rfl

/-! ### resetBlock: what block reset leaves alone -/

@[simp] theorem resetBlock_txSpace : (resetBlock s).txSpace = s.txSpace := rfl
@[simp] theorem resetBlock_rx : (resetBlock s).rx = s.rx := rfl
@[simp] theorem resetBlock_faults : (resetBlock s).faults = s.faults := rfl
@[simp] theorem resetBlock_trace : (resetBlock s).trace = s.trace := rfl
@[simp] theorem resetBlock_policy : (resetBlock s).policy = s.policy := rfl
@[simp] theorem resetBlock_inputs : (resetBlock s).inputs = s.inputs := rfl
@[simp] theorem resetBlock_hostLog : (resetBlock s).hostLog = s.hostLog := rfl

/-! ### The transport primitives in terms of `record` -/

theorem setBaud_eq (r : Rate) : setBaud r s = record (.b r) { s with baud := .rate r } := rfl

theorem send_eq (b : Byte) : send b s = record (.s b) s := rfl

theorem recv_eq : recv s = record (.r (nextAnswer s)) (consumeAnswer s) := rfl

end Sys2Proof.Machine
end

