-- ==== Sys2Proof/Laws/Flags.lean ====
section
/-! SUPPORT. The fields of STATUS after each write of it, and what acceptance, `finish` and overrun do to them. -/

namespace Sys2Proof.Machine

@[simp] theorem statusBusy_withBusy (b : Bool) (st : Byte) : statusBusy (withBusy b st) = b := by
  revert st; cases b <;> decide

@[simp] theorem statusOvr_withBusy (b : Bool) (st : Byte) : statusOvr (withBusy b st) = statusOvr st := by
  revert st; cases b <;> decide

@[simp] theorem statusReserved_withBusy (b : Bool) (st : Byte) : statusReserved (withBusy b st) = statusReserved st := by
  revert st; cases b <;> decide

@[simp] theorem statusResult_withBusy (b : Bool) (st : Byte) : statusResult (withBusy b st) = statusResult st := by
  revert st; cases b <;> decide

@[simp] theorem statusBusy_withOvr (b : Bool) (st : Byte) : statusBusy (withOvr b st) = statusBusy st := by
  revert st; cases b <;> decide

@[simp] theorem statusOvr_withOvr (b : Bool) (st : Byte) : statusOvr (withOvr b st) = b := by
  revert st; cases b <;> decide

@[simp] theorem statusReserved_withOvr (b : Bool) (st : Byte) : statusReserved (withOvr b st) = statusReserved st := by
  revert st; cases b <;> decide

@[simp] theorem statusResult_withOvr (b : Bool) (st : Byte) : statusResult (withOvr b st) = statusResult st := by
  revert st; cases b <;> decide

@[simp] theorem statusBusy_withResult (c : Result) (st : Byte) : statusBusy (withResult c st) = statusBusy st := by
  revert st; cases c <;> decide

@[simp] theorem statusOvr_withResult (c : Result) (st : Byte) : statusOvr (withResult c st) = statusOvr st := by
  revert st; cases c <;> decide

@[simp] theorem statusReserved_withResult (c : Result) (st : Byte) :
    statusReserved (withResult c st) = statusReserved st := by
  revert st; cases c <;> decide

@[simp] theorem statusResult_withResult (c : Result) (st : Byte) : statusResult (withResult c st) = resultCode c := by
  revert st; cases c <;> decide

/-- Only seven codes are produced (spec/10_state.md R22). -/
theorem resultCode_le (c : Result) : (resultCode c).toNat ≤ 6 := by cases c <;> decide

/-- The codes tell the results apart. -/
theorem resultCode_injective (c d : Result) (h : resultCode c = resultCode d) : c = d := by
  revert h; cases c <;> cases d <;> decide

@[simp] theorem accept_busy (w : Word) (s : State) : (accept w s).busy = true := by simp [State.busy]

@[simp] theorem finish_busy (c : Result) (s : State) : (finish c s).busy = false := by simp [State.busy]

@[simp] theorem overrun_busy (s : State) : (overrun s).busy = s.busy := by simp [State.busy]

end Sys2Proof.Machine
end

