-- ==== Sys2Proof/Laws/Micro.lean ====
section
/-! SUPPORT. Running bodies: composition, the induction over a body packaged once, and what no operation of a body touches. -/

namespace Sys2Proof.Machine

/-- The state a progress stands at. -/
def stateOf : Progress → State
  | .going s => s
  | .ended _ s => s
  | .paused s => s

/-- A progress followed by what is left of the body. -/
def thenRun (p : Progress) (ms : List Micro) : Progress :=
  match p with
  | .going s => run ms s
  | .ended c s => .ended c s
  | .paused s => .paused s

@[simp] theorem thenRun_going (s : State) (ms : List Micro) : thenRun (.going s) ms = run ms s := rfl

@[simp] theorem thenRun_ended (c : Result) (s : State) (ms : List Micro) : thenRun (.ended c s) ms = .ended c s := rfl

@[simp] theorem thenRun_paused (s : State) (ms : List Micro) : thenRun (.paused s) ms = .paused s := rfl

@[simp] theorem run_nil (s : State) : run [] s = .going s := rfl

theorem run_cons (m : Micro) (ms : List Micro) (s : State) : run (m :: ms) s = thenRun (perform m s) ms := by
  unfold run; cases perform m s <;> rfl

/-- A body made of two runs the first and, if it goes on, the second (spec/43_sequences.md R160). -/
theorem run_append (p q : List Micro) (s : State) : run (p ++ q) s = thenRun (run p s) q := by
  induction p generalizing s with
  | nil => rfl
  | cons m ms ih =>
    rw [List.cons_append, run_cons, run_cons]
    cases perform m s with
    | going t => exact ih t
    | ended c t => rfl
    | paused t => rfl

/-- An operation that no due input precedes does what `act` says. -/
theorem perform_of_not_due (m : Micro) (s : State) (h : inputDue s = false) : perform m s = act m s := by
  simp [perform, h]

/-- An operation that is no event does what `act` says. -/
theorem perform_silent (m : Micro) (s : State) (h : isEvent m = false) : perform m s = act m s := by
  simp [perform, h]

/-- `perform` either leaves the state for an input that lands first, or acts. -/
theorem perform_cases (m : Micro) (s : State) :
    (perform m s = .paused s ∧ isEvent m = true ∧ inputDue s = true) ∨ perform m s = act m s := by
  unfold perform
  by_cases h : (isEvent m && inputDue s) = true
  · simp_all
  · simp_all

/-- The induction over a body, once: what every operation of it keeps, running it keeps. -/
theorem run_keeps (P : State → Prop) (body : List Micro) (h : ∀ m ∈ body, ∀ s, P s → P (stateOf (act m s)))
    (s : State) (hs : P s) : P (stateOf (run body s)) := by
  induction body generalizing s with
  | nil => exact hs
  | cons m ms ih =>
    have step := h m (by simp) s hs
    have rest := fun t ht => ih (fun m' hm' => h m' (by simp [hm'])) t ht
    rw [run_cons]
    rcases perform_cases m s with ⟨hp, -, -⟩ | hp
    · rw [hp]; exact hs
    · rw [hp]
      cases ha : act m s with
      | going t => rw [ha] at step; exact rest t step
      | ended c t => rw [ha] at step; exact step
      | paused t => rw [ha] at step; exact step

/-- What is left of a body is part of it. -/
theorem afterEvents_mem (n : Nat) (body : List Micro) (m : Micro) (hm : m ∈ afterEvents n body) : m ∈ body := by
  induction body generalizing n with
  | nil => cases n <;> simp_all [afterEvents]
  | cons a as ih =>
    cases n with
    | zero =>
      rw [afterEvents] at hm
      split at hm
      · exact hm
      · exact List.mem_cons_of_mem _ (ih 0 hm)
    | succ n =>
      rw [afterEvents] at hm
      split at hm
      · exact List.mem_cons_of_mem _ (ih n hm)
      · exact List.mem_cons_of_mem _ (ih (n + 1) hm)

/-- What is left of a body after a pause begins with an event. -/
theorem afterEvents_head (n : Nat) (body : List Micro) (m : Micro) (ms : List Micro) (h : afterEvents n body = m :: ms) :
    isEvent m = true := by
  induction body generalizing n with
  | nil => cases n <;> simp_all [afterEvents]
  | cons a as ih =>
    cases n with
    | zero =>
      rw [afterEvents] at h
      split at h
      · simp_all
      · exact ih 0 h
    | succ n =>
      rw [afterEvents] at h
      split at h
      · exact ih n h
      · exact ih (n + 1) h

/-- The registers no operation of any body writes: STATUS and CUR (only acceptance, `finish` and overrun do), whether the
transmit buffer has space, ECHO_POLICY, and what the host has read. -/
theorem act_untouched (m : Micro) (s : State) :
    (stateOf (act m s)).status = s.status ∧ (stateOf (act m s)).cur = s.cur ∧
      (stateOf (act m s)).txSpace = s.txSpace ∧ (stateOf (act m s)).policy = s.policy ∧
      (stateOf (act m s)).hostLog = s.hostLog := by
  cases m <;> simp only [act, doWaitTxSpace, doRecvPresence, doRecvBit, checkPhase] <;>
    (repeat' split) <;> simp [stateOf, setBaud, send, recv, useBit]; split <;> simp

/-- The same of a whole body. -/
theorem run_untouched (body : List Micro) (s : State) :
    (stateOf (run body s)).status = s.status ∧ (stateOf (run body s)).cur = s.cur ∧
      (stateOf (run body s)).txSpace = s.txSpace ∧ (stateOf (run body s)).policy = s.policy ∧
      (stateOf (run body s)).hostLog = s.hostLog := by
  refine run_keeps (fun t => t.status = s.status ∧ t.cur = s.cur ∧ t.txSpace = s.txSpace ∧ t.policy = s.policy ∧
    t.hostLog = s.hostLog) body (fun m _ t ht => ?_) s ⟨rfl, rfl, rfl, rfl, rfl⟩
  obtain ⟨h1, h2, h3, h4, h5⟩ := act_untouched m t
  exact ⟨h1.trans ht.1, h2.trans ht.2.1, h3.trans ht.2.2.1, h4.trans ht.2.2.2.1, h5.trans ht.2.2.2.2⟩

/-- What `conclude` makes of a progress. -/
theorem conclude_cases (p : Progress) :
    (∃ c, conclude p = finish c (stateOf p)) ∨ (∃ t, p = .paused t ∧ conclude p = t) := by
  cases p with
  | going s => exact .inl ⟨.ok, rfl⟩
  | ended c s => exact .inl ⟨c, rfl⟩
  | paused s => exact .inr ⟨s, rfl, rfl⟩

/-- Everything a command word can do: an overrun, or its body run from the acceptance (spec/60_exceptions.md R218). -/
theorem issue_cases (w : Word) (body : List Micro) (s : State) :
    (s.busy = true ∧ issue w body s = overrun s) ∨
      (s.busy = false ∧ issue w body s = conclude (run body (accept w s))) := by
  unfold issue
  cases s.busy <;> simp

/-- Every meaning is its word and body issued. -/
theorem exec_eq_issue (i : Instr) (s : State) : exec i s = .next (issue (encode i) (bodyOf i) s) := by
  cases i <;> rfl

/-- Undisturbed means no input is due, and events do not change that. -/
theorem not_due_of_undisturbed (s : State) (h : undisturbed s = true) : inputDue s = false := by
  unfold undisturbed at h; unfold inputDue; split at h <;> simp_all

/-- An undisturbed timeline does not count down. -/
theorem countDown_of_undisturbed (s : State) (h : undisturbed s = true) : countDown s.inputs = s.inputs := by
  unfold undisturbed at h; split at h <;> simp_all [countDown]

@[simp] theorem nextAnswers_length (n : Nat) (s : State) : (nextAnswers n s).length = n := by
  induction n generalizing s with
  | zero => rfl
  | succ n ih => simp [nextAnswers, ih]

/-- Scripted answers are the next ones (spec/00_scope.md R9). -/
theorem nextAnswers_of_script (as rest : List Answer) (s : State) (h : s.rx = as ++ rest) :
    nextAnswers as.length s = as := by
  induction as generalizing s with
  | nil => rfl
  | cons a as ih =>
    rw [List.length_cons, nextAnswers]
    rw [ih (consumeAnswer s) (by simp [consumeAnswer, h])]
    simp [nextAnswer, h]

end Sys2Proof.Machine
end

