-- ==== Sys2Proof/Laws/Step.lean ====
section
/-! SUPPORT. Everything a step can do, and everything the transport primitives' tests can do, said once. -/

namespace Sys2Proof.Machine

/-- The four things a step can be: the running command goes on, nothing happens, a command word is taken, or another input
lands, into a running command only where it is due. -/
theorem step_cases (s : State) :
    (s.busy = true ∧ inputDue s = false ∧ step s = .next (resume s)) ∨
    (s.busy = false ∧ s.inputs = [] ∧ step s = .next s) ∨
    (∃ w, s.inputs.head? = some (.command w) ∧
      ((∃ i, decodeWord w = some i ∧ step s = exec i s.popInput) ∨
        (decodeWord w = none ∧ step s = .next (execIllegal w s.popInput)))) ∨
    (∃ i, s.inputs.head? = some i ∧ (∀ w, i ≠ .command w) ∧ (s.busy = true → inputDue s = true) ∧
      step s = .next (land i s.popInput)) := by
  unfold step
  cases hb : s.busy <;> cases hd : inputDue s
  case true.false => left; simp
  all_goals
    cases hi : s.inputs with
    | nil => simp_all [inputDue]
    | cons i rest =>
      cases i
      case command w =>
        right; right; left
        refine ⟨w, by simp, ?_⟩
        cases hw : decodeWord w <;> simp [hw]
      all_goals simp

/-- `WaitTxSpace` goes on with `W` recorded, or holds. -/
theorem doWaitTxSpace_cases (s : State) :
    (s.txSpace = true ∧ doWaitTxSpace s = .going (record .w s)) ∨
    (s.txSpace = false ∧ doWaitTxSpace s = .paused { s with inputs := endPause s.inputs }) := by
  unfold doWaitTxSpace
  cases s.txSpace <;> simp

/-- OW_RESET's `Recv` (spec/42_transaction.md R140). -/
theorem doRecvPresence_cases (s : State) :
    (nextAnswer s = .err ∧ doRecvPresence s = .ended .transportError (setPhase .idle (recv s))) ∨
    (nextAnswer s = .byte 0xF0 ∧ doRecvPresence s = .ended .noDevice (setPhase .idle (setRxraw 0xF0 (recv s)))) ∨
    (∃ e, e ≠ 0xF0 ∧ nextAnswer s = .byte e ∧
      doRecvPresence s = .going (setPhase .addressed (setRxraw e (recv s)))) := by
  unfold doRecvPresence
  cases nextAnswer s with
  | err => simp
  | byte e =>
    by_cases h : e = Config.resetPulse
    · subst h; right; left; exact ⟨rfl, rfl⟩
    · right; right; exact ⟨e, h, rfl, if_neg h⟩

/-- `BitExchange`'s `Recv` (spec/40_codec.md R104): a failure ends the command with its code, a bit goes on. -/
theorem doRecvBit_cases (use : BitUse) (s : State) :
    (nextAnswer s = .err ∧ doRecvBit use s = .ended .transportError (setPhase .idle (recv s))) ∨
    (∃ e, nextAnswer s = .byte e ∧ decodeEcho s.policy e = .line ∧
      doRecvBit use s = .ended .lineError (setPhase .idle (setRxraw e (recv s)))) ∨
    (∃ e b, nextAnswer s = .byte e ∧ decodeEcho s.policy e = .bit b ∧
      doRecvBit use s = .going (useBit use b (setRxraw e (recv s)))) := by
  unfold doRecvBit
  cases nextAnswer s with
  | err => simp
  | byte e =>
    right
    cases h : decodeEcho s.policy e with
    | line => exact .inl ⟨e, rfl, h, by simp only [h]⟩
    | bit b => exact .inr ⟨e, b, rfl, h, by simp only [h]⟩

/-- A non-canonical echo is a failure only under ECHO_POLICY = LINE_ERROR (spec/40_codec.md R103). -/
theorem decodeEcho_line (p : EchoPolicy) (e : Byte) (h : decodeEcho p e = .line) : p = .lineError := by
  cases p
  · unfold decodeEcho at h; split at h <;> simp_all
  · rfl

/-- `endPause` and `countDown` leave every action but a pause (Log 5, Log 8). -/
theorem countDown_length (l : List Input) : (countDown l).length = l.length := by
  unfold countDown; split <;> simp

end Sys2Proof.Machine
end

