-- ==== Sys2Proof/Laws/Commands.lean ====
section
/-! SUPPORT. What a whole command can do, in the step that accepts it and in one that carries it on: which columns of the table of
spec/10_state.md R36 it writes, how it ends (spec/60_exceptions.md R211, R216), and where it stands at the transport port
(spec/20_memory.md R61, R62). Each is said once of an operation and carried to bodies. -/

namespace Sys2Proof.Machine

/-- To check every operation of every command's body it is enough to check the bodies as they stand, operands open. -/
theorem bodies_all (f : Instr → Micro → Bool) (closed : ∀ i ∈ [Instr.nop, .owReset, .owReadBit, .owReadByte, .crcInit,
      .seqReadRom, .seqConvert, .seqReadScratchpad, .seqPollRead, .seqBlockingRead], (bodyOf i).all (f i) = true)
    (bit : ∀ v, (owWriteBitBody v).all (f (.owWriteBit v)) = true)
    (byte : ∀ d, (owWriteByteBody d).all (f (.owWriteByte d)) = true)
    (crc : ∀ d, f (.crcUpdate d) (.foldCrc d) = true) (i : Instr) : ∀ m ∈ bodyOf i, f i m = true := by
  apply List.all_eq_true.mp
  cases i with
  | owWriteBit v => exact bit v
  | owWriteByte d => exact byte d
  | crcUpdate d => simpa [bodyOf, crcUpdateBody] using crc d
  | _ => exact closed _ (by simp)

/-! ## What is written -/

/-- The columns of R36 an operation may write. -/
def microWrites : Micro → List Column
  | .setBaud _ => [.baud]
  | .recvPresence => [.rxraw, .phase]
  | .recvBit .toRxdata => [.rxdata, .rxraw, .phase]
  | .recvBit _ => [.rxraw, .phase]
  | .setPhase _ => [.phase]
  | .shiftToRxdata => [.rxdata]
  | .clearCrc | .foldCrc _ | .foldCrcSn _ | .foldCrcSp _ => [.crc]
  | .storeSn _ => [.sn]
  | .storeSp _ => [.sp]
  | _ => []

theorem Column.same_refl (c : Column) (s : State) : c.same s s := by cases c <;> rfl

theorem Column.same_trans {c : Column} {s t u : State} (h : c.same s t) (h' : c.same t u) : c.same s u := by
  cases c <;> exact Eq.trans h' h

/-- An operation leaves every column it may not write. -/
theorem act_same (m : Micro) (c : Column) (hc : c ∉ microWrites m) (s : State) : c.same s (stateOf (act m s)) := by
  cases m
  case recvBit use =>
    rcases doRecvBit_cases use s with ⟨-, h⟩ | ⟨e, -, -, h⟩ | ⟨e, b, -, -, h⟩ <;> rw [act, h] <;> cases use <;> cases c <;>
      first | simp [stateOf, Column.same, useBit, recv]; done | exact absurd (by simp [microWrites]) hc
  case recvPresence =>
    rcases doRecvPresence_cases s with ⟨-, h⟩ | ⟨-, h⟩ | ⟨e, -, -, h⟩ <;> rw [act, h] <;> cases c <;>
      first | simp [stateOf, Column.same, recv]; done | exact absurd (by simp [microWrites]) hc
  case waitTxSpace => rcases doWaitTxSpace_cases s with ⟨-, h⟩ | ⟨-, h⟩ <;> rw [act, h] <;> cases c <;> rfl
  all_goals
    simp only [act, checkPhase]
    (repeat' split) <;> cases c <;> first | rfl | exact absurd (by simp [microWrites]) hc

/-- Every command's body writes only what its row of the table allows. -/
theorem body_writes (i : Instr) : ∀ m ∈ bodyOf i, ∀ c ∈ microWrites m, c ∈ mayWrite i := by
  have h := bodies_all (fun i m => (microWrites m).all fun c => (mayWrite i).contains c) (by decide +kernel) (fun _ => rfl)
    (fun _ => rfl) (fun _ => rfl) i
  simpa using h

/-- Part of a command's body, run from anywhere, leaves every column the command may not write. -/
theorem run_same (i : Instr) (ms : List Micro) (hms : ∀ m ∈ ms, m ∈ bodyOf i) (c : Column) (hc : c ∉ mayWrite i) (s : State) :
    c.same s (stateOf (run ms s)) :=
  run_keeps (fun t => c.same s t) ms
    (fun m hm t ht => Column.same_trans ht (act_same m c (fun h => hc (body_writes i m (hms m hm) c h)) t)) s (c.same_refl s)

/-! ## How a command ends -/

/-- The codes an operation may end its command with (spec/60_exceptions.md R210). -/
def endCodes (p : EchoPolicy) : Micro → List Result
  | .recvPresence => [.noDevice, .transportError]
  | .recvBit _ => if p = .lineError then [.transportError, .lineError] else [.transportError]
  | .checkCrcZero | .checkCrcSp => [.checksumMismatch]
  | .pollTest => [.busyConverting]
  | _ => []

/-- A code after which the host owes a re-reset (spec/60_exceptions.md R216). -/
def Result.busFailed (c : Result) : Bool := c == .noDevice || c == .transportError || c == .lineError

/-- An operation ends its command only with its codes, and leaves PHASE IDLE with a bus failure (spec/42_transaction.md R146). -/
theorem act_ended (m : Micro) (s t : State) (c : Result) (h : act m s = .ended c t) :
    c ∈ endCodes s.policy m ∧ (c.busFailed = true → t.phase = .idle) := by
  cases m
  case recvBit use =>
    rcases doRecvBit_cases use s with ⟨-, h'⟩ | ⟨e, -, hl, h'⟩ | ⟨e, b, -, -, h'⟩ <;> rw [act, h'] at h <;>
      simp only [Progress.ended.injEq, reduceCtorEq] at h
    · obtain ⟨rfl, rfl⟩ := h
      exact ⟨by simp [endCodes]; split <;> simp, fun _ => rfl⟩
    · obtain ⟨rfl, rfl⟩ := h
      exact ⟨by simp [endCodes, decodeEcho_line _ _ hl], fun _ => rfl⟩
  case recvPresence =>
    rcases doRecvPresence_cases s with ⟨-, h'⟩ | ⟨-, h'⟩ | ⟨e, -, -, h'⟩ <;> rw [act, h'] at h <;>
      simp only [Progress.ended.injEq, reduceCtorEq] at h
    all_goals
      obtain ⟨rfl, rfl⟩ := h
      exact ⟨by simp [endCodes], fun _ => rfl⟩
  case waitTxSpace => rcases doWaitTxSpace_cases s with ⟨-, h'⟩ | ⟨-, h'⟩ <;> rw [act, h'] at h <;> cases h
  all_goals
    simp only [act] at h
    try split at h
    all_goals first | cases h; exact ⟨by simp [endCodes], fun hc => absurd hc (by decide)⟩ | cases h

/-- A body ends with what one of its operations ends with. -/
theorem run_ended (ms : List Micro) (s t : State) (c : Result) (h : run ms s = .ended c t) :
    ∃ m ∈ ms, ∃ u, u.policy = s.policy ∧ act m u = .ended c t := by
  induction ms generalizing s with
  | nil => cases h
  | cons m ms ih =>
    rw [run_cons] at h
    rcases perform_cases m s with ⟨hp, -, -⟩ | hp <;> rw [hp] at h
    · cases h
    · cases ha : act m s with
      | going u =>
        rw [ha] at h
        obtain ⟨m', hm', v, hv, hav⟩ := ih u h
        have hu : u.policy = s.policy := by simpa [ha, stateOf] using (act_untouched m s).2.2.2.1
        exact ⟨m', by simp [hm'], v, hv.trans hu, hav⟩
      | ended c' u => exact ⟨m, by simp, s, rfl, by rw [ha] at h ⊢; exact h⟩
      | paused u => rw [ha] at h; cases h

/-- Every command's operations end it only with codes the table allows it (spec/60_exceptions.md R211). -/
theorem body_ends (p : EchoPolicy) (i : Instr) : ∀ m ∈ bodyOf i, ∀ c ∈ endCodes p m, c ∈ allowedResults p i := by
  have h := bodies_all (fun i m => (endCodes p m).all fun c => (allowedResults p i).contains c) (by cases p <;> decide +kernel)
    (by cases p <;> exact fun _ => rfl) (by cases p <;> exact fun _ => rfl) (by cases p <;> exact fun _ => rfl) i
  simpa using h

/-- A command that is done, having run any part of its body while BUSY = 1, has a RESULT allowed to it, and PHASE IDLE with a bus
failure (spec/60_exceptions.md R211, R216). -/
theorem conclude_done (i : Instr) (ms : List Micro) (hms : ∀ m ∈ ms, m ∈ bodyOf i) (s : State) (hb : s.busy = true)
    (hd : (conclude (run ms s)).busy = false) :
    ∃ c ∈ allowedResults s.policy i, statusResult (conclude (run ms s)).status = resultCode c ∧
      (c.busFailed = true → (conclude (run ms s)).phase = .idle) := by
  have hu := run_untouched ms s
  cases hr : run ms s with
  | going t => exact ⟨.ok, by cases i <;> simp [allowedResults], by simp [conclude], fun h => absurd h (by decide)⟩
  | ended c t =>
    obtain ⟨m, hm, u, hp, ha⟩ := run_ended ms s t c hr
    obtain ⟨hc, hi⟩ := act_ended m u t c ha
    exact ⟨c, body_ends _ i m (hms m hm) c (hp ▸ hc), by simp [conclude], hi⟩
  | paused t =>
    rw [hr] at hu hd
    have : t.busy = s.busy := congrArg statusBusy hu.1
    simp [conclude, this, hb] at hd

/-! ## Where a command stands at the transport port -/

@[simp] theorem portFrom_nil (p : Port) (n : Nat) : portFrom p [] n = p := by simp [portFrom]

@[simp] theorem portFrom_zero (p : Port) (ms : List Micro) : portFrom p ms 0 = p := by simp [portFrom]

theorem portFrom_event {m : Micro} (hm : isEvent m = true) (p : Port) (ms : List Micro) (n : Nat) :
    portFrom p (m :: ms) (n + 1) = portFrom (portOf m) ms n := by
  simp only [portFrom, List.filter_cons_of_pos hm, List.take_succ_cons, List.map_cons, List.getLastD_cons]

theorem portFrom_silent {m : Micro} (hm : isEvent m = false) (p : Port) (ms : List Micro) (n : Nat) :
    portFrom p (m :: ms) n = portFrom p ms n := by simp [portFrom, hm]

/-- Going on from what is left of a body after n events. -/
theorem portFrom_add (p : Port) (ms : List Micro) (n k : Nat) :
    portFrom p ms (n + k) = portFrom (portFrom p ms n) (afterEvents n ms) k := by
  induction ms generalizing p n with
  | nil => cases n <;> simp [afterEvents]
  | cons m ms ih =>
    cases hm : isEvent m <;> cases n with
    | zero => simp [afterEvents, hm]; try simpa [portFrom_silent hm] using ih p 0
    | succ n =>
      rw [afterEvents, hm]
      first
      | rw [show n + 1 + k = (n + k) + 1 by omega, portFrom_event hm, portFrom_event hm]; exact ih _ n
      | rw [portFrom_silent hm, portFrom_silent hm]; exact ih p (n + 1)

/-- Whether an operation may come next at the port: a wait or a command's end where it is free, a SetBaud or a Send with space
confirmed, a Recv after a Send (R61, R62). -/
def mayComeNext (p : Port) : Micro → Bool
  | .waitTxSpace | .checkCrcZero | .checkCrcSp | .pollTest | .pollLoop _ => p == .free
  | .setBaud _ | .send _ => p == .spaceConfirmed
  | .recvPresence | .recvBit _ => p == .sent
  | _ => true

/-- Every operation of a body comes where it may, and the body leaves the port free. -/
def ordered : Port → List Micro → Bool
  | p, [] => p == .free
  | p, m :: ms => mayComeNext p m && ordered (if isEvent m then portOf m else p) ms

theorem ordered_afterEvents (p : Port) (ms : List Micro) (n : Nat) (h : ordered p ms = true) :
    ordered (portFrom p ms n) (afterEvents n ms) = true := by
  induction ms generalizing p n with
  | nil => cases n <;> simpa [afterEvents] using h
  | cons m ms ih =>
    have h' := h
    rw [ordered, Bool.and_eq_true] at h'
    cases hm : isEvent m <;> simp only [hm, Bool.false_eq_true, if_false, if_true] at h' <;> cases n with
    | zero => simp [afterEvents, hm]; first | exact h | simpa [portFrom_silent hm] using ih p 0 h'.2
    | succ n =>
      rw [afterEvents, hm]
      first
      | rw [portFrom_event hm]; exact ih _ n h'.2
      | rw [portFrom_silent hm]; exact ih p (n + 1) h'.2

/-- Every command's body is in order, and a busy poll goes back to where the port is free. -/
theorem body_ordered (i : Instr) : ordered .free (bodyOf i) = true := by
  cases i with
  | owWriteBit v => rfl
  | owWriteByte d => rfl
  | crcUpdate d => rfl
  | _ => decide +kernel

theorem body_back (i : Instr) (back : Nat) (h : Micro.pollLoop back ∈ bodyOf i) : portBefore (bodyOf i) back = .free := by
  have := bodies_all (fun i m => match m with | .pollLoop b => portBefore (bodyOf i) b == .free | _ => true)
    (by decide +kernel) (fun _ => rfl) (fun _ => rfl) (fun _ => rfl) i _ h
  simpa using this

theorem portAfterAll_append (p : Port) (es fs : List Event) :
    portAfterAll p (es ++ fs) = (portAfterAll p es).bind fun q => portAfterAll q fs := by
  induction es generalizing p with
  | nil => rfl
  | cons e es ih =>
    rw [List.cons_append, portAfterAll, portAfterAll]
    cases portAfter p e with
    | none => rfl
    | some q => exact ih q

/-- What an operation that may come next does at the port: one event in order, or none. -/
theorem act_port (p : Port) (m : Micro) (s : State) (h : mayComeNext p m = true) :
    (∃ t e, act m s = .going t ∧ isEvent m = true ∧ t.trace = s.trace ++ [e] ∧ portAfter p e = some (portOf m) ∧
      t.seqpos = s.seqpos + 1) ∨
    (∃ t, act m s = .going t ∧ isEvent m = false ∧ t.trace = s.trace ∧ t.seqpos = s.seqpos) ∨
    (∃ c t es, act m s = .ended c t ∧ t.trace = s.trace ++ es ∧ portAfterAll p es = some .free) ∨
    (∃ t, act m s = .paused t ∧ t.trace = s.trace ∧ t.seqpos = s.seqpos) ∨
    (∃ t back, m = .pollLoop back ∧ p = .free ∧ act m s = .paused t ∧ t.trace = s.trace ∧ t.seqpos = back) := by
  have hrecv : ∀ q, (recv q).trace = q.trace ++ [.r (nextAnswer q)] ∧ (recv q).seqpos = q.seqpos + 1 := by
    intro q; unfold recv consumeAnswer; split <;> simp
  cases m
  case recvBit use =>
    have hp : p = .sent := by simpa [mayComeNext] using h
    subst hp
    rcases doRecvBit_cases use s with ⟨-, h'⟩ | ⟨e, -, -, h'⟩ | ⟨e, b, -, -, h'⟩ <;> rw [act, h']
    · exact .inr (.inr (.inl ⟨_, _, [_], rfl, (hrecv s).1, rfl⟩))
    · exact .inr (.inr (.inl ⟨_, _, [_], rfl, (hrecv s).1, rfl⟩))
    · refine .inl ⟨_, .r (nextAnswer s), rfl, rfl, ?_, rfl, ?_⟩
      · cases use <;> exact (hrecv s).1
      · cases use <;> exact (hrecv s).2
  case recvPresence =>
    have hp : p = .sent := by simpa [mayComeNext] using h
    subst hp
    rcases doRecvPresence_cases s with ⟨-, h'⟩ | ⟨-, h'⟩ | ⟨e, -, -, h'⟩ <;> rw [act, h']
    · exact .inr (.inr (.inl ⟨_, _, [_], rfl, (hrecv s).1, rfl⟩))
    · exact .inr (.inr (.inl ⟨_, _, [_], rfl, (hrecv s).1, rfl⟩))
    · exact .inl ⟨_, _, rfl, rfl, (hrecv s).1, rfl, (hrecv s).2⟩
  case waitTxSpace =>
    have hp : p = .free := by simpa [mayComeNext] using h
    subst hp
    rcases doWaitTxSpace_cases s with ⟨-, h'⟩ | ⟨-, h'⟩ <;> rw [act, h']
    · exact .inl ⟨_, _, rfl, rfl, rfl, rfl, rfl⟩
    · exact .inr (.inr (.inr (.inl ⟨_, rfl, rfl, rfl⟩)))
  case setBaud r =>
    have hp : p = .spaceConfirmed := by simpa [mayComeNext] using h
    subst hp
    exact .inl ⟨_, _, rfl, rfl, rfl, rfl, rfl⟩
  case send b =>
    have hp : p = .spaceConfirmed := by simpa [mayComeNext] using h
    subst hp
    exact .inl ⟨_, _, rfl, rfl, rfl, rfl, rfl⟩
  case pollLoop back =>
    have hp : p = .free := by simpa [mayComeNext] using h
    rw [act]
    split
    · exact .inr (.inr (.inr (.inr ⟨_, back, rfl, hp, rfl, rfl, rfl⟩)))
    · exact .inr (.inl ⟨_, rfl, rfl, rfl, rfl⟩)
  case checkCrcZero | checkCrcSp | pollTest =>
    have hp : p = .free := by simpa [mayComeNext] using h
    subst hp
    rw [act]
    split
    all_goals first
      | exact .inr (.inl ⟨_, rfl, rfl, rfl, rfl⟩)
      | exact .inr (.inr (.inl ⟨_, _, [], rfl, by simp, rfl⟩))
  case checkWritePhase | checkReadPhase =>
    refine .inr (.inl ⟨_, rfl, rfl, ?_, ?_⟩) <;> unfold checkPhase <;> split <;> rfl
  all_goals exact .inr (.inl ⟨_, rfl, rfl, rfl, rfl⟩)

/-- Running an ordered body makes events in order. Done, it leaves the port free; paused, it leaves the port where SEQPOS says. -/
theorem run_port (ms : List Micro) (p : Port) (s : State) (h : ordered p ms = true) :
    ∃ es q, (stateOf (run ms s)).trace = s.trace ++ es ∧ portAfterAll p es = some q ∧
      match run ms s with
      | .going _ => q = .free
      | .ended _ _ => q = .free
      | .paused t => (∃ k, t.seqpos = s.seqpos + k ∧ q = portFrom p ms k) ∨
          ∃ back, Micro.pollLoop back ∈ ms ∧ t.seqpos = back ∧ q = .free := by
  induction ms generalizing p s with
  | nil => exact ⟨[], p, by simp [stateOf], rfl, by simpa [ordered] using h⟩
  | cons m ms ih =>
    rw [ordered, Bool.and_eq_true] at h
    rw [run_cons]
    rcases perform_cases m s with ⟨hp, -, -⟩ | hp <;> rw [hp]
    · exact ⟨[], p, by simp [stateOf], rfl, .inl ⟨0, rfl, by simp⟩⟩
    rcases act_port p m s h.1 with ⟨t, e, ha, hm, ht, he, hs⟩ | ⟨t, ha, hm, ht, hs⟩ | ⟨c, t, es, ha, ht, he⟩ | ⟨t, ha, ht, hs⟩ |
      ⟨t, back, hm, hf, ha, ht, hs⟩ <;> rw [ha]
    · obtain ⟨es, q, h1, h2, h3⟩ := ih (portOf m) t (by simpa [hm] using h.2)
      refine ⟨e :: es, q, by simp [h1, ht], by simp [portAfterAll, he, h2], ?_⟩
      rw [thenRun_going]
      revert h3
      cases run ms t with
      | going u => exact id
      | ended c u => exact id
      | paused u =>
        rintro (⟨k, hk, hq⟩ | ⟨back, hmem, hb, hq⟩)
        · exact .inl ⟨k + 1, by omega, by rw [portFrom_event hm]; exact hq⟩
        · exact .inr ⟨back, by simp [hmem], hb, hq⟩
    · obtain ⟨es, q, h1, h2, h3⟩ := ih p t (by simpa [hm] using h.2)
      refine ⟨es, q, by simp [h1, ht], h2, ?_⟩
      rw [thenRun_going]
      revert h3
      cases run ms t with
      | going u => exact id
      | ended c u => exact id
      | paused u =>
        rintro (⟨k, hk, hq⟩ | ⟨back, hmem, hb, hq⟩)
        · exact .inl ⟨k, by omega, by rw [portFrom_silent hm]; exact hq⟩
        · exact .inr ⟨back, by simp [hmem], hb, hq⟩
    · exact ⟨es, .free, by simp [stateOf, ht], he, rfl⟩
    · exact ⟨[], p, by simp [stateOf, ht], rfl, .inl ⟨0, by simp [hs], by simp⟩⟩
    · exact ⟨[], p, by simp [stateOf, ht], rfl, .inr ⟨back, by simp [hm], hs, hf⟩⟩

/-! ## What a step does with a command -/

/-- A step acts for the command i: from u, which is s with the command accepted or just going on, it runs ms, what is left of i's
body, and finishes or pauses. -/
structure Acts (s t : State) (i : Instr) (ms : List Micro) (u : State) : Prop where
  acting : actingCommand s = some i
  result : t = conclude (run ms u)
  busy : u.busy = true
  part : ∀ m ∈ ms, m ∈ bodyOf i
  word : decodeWord u.cur = some i
  columns : ∀ c : Column, c.same s u
  policy : u.policy = s.policy
  trace : u.trace = s.trace
  inOrder : ordered (portAt s) ms = true
  position : ∀ k, portFrom (portAt s) ms k = portBefore (bodyOf i) (u.seqpos + k)

/-- A step that acts for no command and resets nothing: it leaves the columns, the trace and ECHO_POLICY, and either the command
in CUR, where it stands and its RESULT too, or it finishes an illegal word (spec/60_exceptions.md R213). -/
structure Quiet (s t : State) : Prop where
  acting : actingCommand s = none
  columns : ∀ c : Column, c.same s t
  policy : t.policy = s.policy
  trace : t.trace = s.trace
  status : (t.busy = s.busy ∧ statusResult t.status = statusResult s.status ∧ t.cur = s.cur ∧ t.seqpos = s.seqpos) ∨
    (t.busy = false ∧ statusResult t.status = resultCode .illegalCommand ∧ decodeWord t.cur = none ∧
      (s.busy = true → decodeWord s.cur = none))

theorem portAt_idle (s : State) (h : s.busy = false) : portAt s = .free := by simp [portAt, h]

/-- A step that acts for no command leaves the block where it stood at the port. -/
theorem Quiet.portAt_eq {s t : State} (q : Quiet s t) : portAt t = portAt s := by
  rcases q.status with ⟨hb, -, hc, hp⟩ | ⟨hb, -, -, hs⟩
  · simp only [portAt, hb, hc, hp]
  · rw [portAt_idle t hb, portAt]
    split
    · rename_i h; rw [hs h]
    · rfl

/-- A step that acts for a command makes events in order from where the block stood to where it stands then. -/
theorem Acts.port {s t u : State} {i : Instr} {ms : List Micro} (a : Acts s t i ms u) :
    ∃ es, t.trace = s.trace ++ es ∧ portAfterAll (portAt s) es = some (portAt t) := by
  obtain ⟨es, q, h1, h2, h3⟩ := run_port ms (portAt s) u a.inOrder
  have hu := run_untouched ms u
  rw [a.trace] at h1
  rw [a.result]
  cases hr : run ms u with
  | going v => rw [hr] at h1 h3; exact ⟨es, h1, by rw [h2, portAt_idle _ (by simp [conclude]), h3]⟩
  | ended c v => rw [hr] at h1 h3; exact ⟨es, h1, by rw [h2, portAt_idle _ (by simp [conclude]), h3]⟩
  | paused v =>
    rw [hr] at h1 h3 hu
    have hb : v.busy = true := (congrArg statusBusy hu.1).trans a.busy
    have hw : decodeWord v.cur = some i := by rw [show v.cur = u.cur from hu.2.1, a.word]
    have hv : portAt v = portBefore (bodyOf i) v.seqpos := by simp [portAt, hb, hw]
    refine ⟨es, h1, ?_⟩
    rw [h2, conclude, hv]
    rcases h3 with ⟨k, hk, hq⟩ | ⟨back, hmem, hk, hq⟩
    · rw [hq, hk, a.position]
    · rw [hq, hk, body_back i back (a.part _ hmem)]

/-- Everything a step can do that resets nothing. The first premise is statement DecodeOfEncodeIsTheCommand. -/
theorem step_acts (decodes : ∀ i, decodeWord (encode i) = some i) (s t : State) (hr : s.inputs.head? ≠ some .blockReset) (h : step s = .next t) :
    (∃ i ms u, Acts s t i ms u) ∨ Quiet s t := by
  rcases step_cases s with ⟨hb, hd, hs⟩ | ⟨hb, hi, hs⟩ | ⟨w, hw, hs⟩ | ⟨x, hx, hn, hdue, hs⟩
  · obtain rfl : resume s = t := by simpa [hs] using h
    unfold resume
    cases hc : decodeWord s.cur with
    | some i =>
      have hp : portAt s = portBefore (bodyOf i) s.seqpos := by simp [portAt, hb, hc]
      refine .inl ⟨i, _, s, ⟨by simp [actingCommand, hb, hd, hc], rfl, hb, fun m => afterEvents_mem _ _ m, hc,
        fun c => c.same_refl s, rfl, rfl, ?_, fun k => ?_⟩⟩
      · rw [hp]; exact ordered_afterEvents _ _ _ (body_ordered i)
      · rw [hp, portBefore, portBefore, portFrom_add]
    | none =>
      exact .inr ⟨by simp [actingCommand, hb, hd, hc], fun c => by cases c <;> rfl, rfl, rfl,
        .inr ⟨by simp, by simp, hc, fun _ => hc⟩⟩
  · obtain rfl : s = t := by simpa [hs] using h
    exact .inr ⟨by simp [actingCommand, hb, hi], fun c => c.same_refl s, rfl, rfl, .inl ⟨rfl, rfl, rfl, rfl⟩⟩
  · obtain ⟨rest, hin⟩ : ∃ rest, s.inputs = .command w :: rest := by
      cases hin : s.inputs with
      | nil => simp [hin] at hw
      | cons y ys => exact ⟨ys, by simpa [hin] using hw⟩
    have hd : inputDue s = true := by simp [inputDue, hin]
    have hpop : s.popInput.busy = s.busy := rfl
    cases hb : s.busy with
    | true =>
      obtain rfl : overrun s.popInput = t := by
        rcases hs with ⟨i, -, hs⟩ | ⟨-, hs⟩
        · rw [exec_eq_issue, issue, hpop, hb] at hs; simpa [hs] using h
        · rw [execIllegal, hpop, hb] at hs; simpa [hs] using h
      exact .inr ⟨by simp [actingCommand, hb, hd], fun c => by cases c <;> rfl, rfl, rfl,
        .inl ⟨by simp [hpop], by simp [overrun, State.popInput], rfl, rfl⟩⟩
    | false =>
      have hp := portAt_idle s hb
      rcases hs with ⟨i, hi, hs⟩ | ⟨hi, hs⟩
      · rw [exec_eq_issue, issue, hpop, hb] at hs
        refine .inl ⟨i, bodyOf i, accept (encode i) s.popInput, ⟨by simp [actingCommand, hb, hin, hi], ?_, by simp,
          fun _ => id, decodes i, fun c => by cases c <;> rfl, rfl, rfl, ?_, fun k => ?_⟩⟩
        · simpa [hs] using h.symm
        · rw [hp]; exact body_ordered i
        · rw [hp]; simp [portBefore, accept]
      · rw [execIllegal, hpop, hb] at hs
        obtain rfl : finish .illegalCommand (accept w s.popInput) = t := by simpa [hs] using h
        exact .inr ⟨by simp [actingCommand, hb, hin, hi], fun c => by cases c <;> rfl, rfl, rfl,
          .inr ⟨by simp, by simp, hi, by simp [hb]⟩⟩
  · have ha : actingCommand s = none := by
      unfold actingCommand
      cases hb : s.busy with
      | true => simp [hdue hb]
      | false =>
        cases hin : s.inputs with
        | nil => simp [hin] at hx
        | cons y ys =>
          obtain rfl : y = x := by simpa [hin] using hx
          cases y <;> simp_all
    obtain rfl : land x s.popInput = t := by simpa [hs] using h
    cases x with
    | command w => exact absurd rfl (hn w)
    | blockReset => exact absurd hx hr
    | wait | pause | readReg | txSpace =>
      exact .inr ⟨ha, fun c => by cases c <;> rfl, rfl, rfl, .inl ⟨rfl, rfl, rfl, rfl⟩⟩
    | decodeTempInt | decodeTemperature | decodeSerial =>
      refine .inr ⟨ha, fun c => ?_, ?_, ?_, .inl ⟨?_, ?_, ?_, ?_⟩⟩
      all_goals
        simp only [land, hostTempInt, hostTemperature, hostSerial]
        (repeat' split) <;> first | rfl | cases c <;> rfl

end Sys2Proof.Machine
end

