-- ==== Sys2Proof/Laws/PerInstr.lean ====
section
/-! SUPPORT. Of every command: its word is one the opcode map calls valid (spec/30_encoding.md R72, R73). -/

namespace Sys2Proof.Laws.EncodeValid

/-- The word of i belongs to exactly one row of the opcode map. -/
def Statement (i : Instr) : Prop := validWord (encode i) = true

theorem nop : Statement .nop := by unfold Statement; decide
theorem owReset : Statement .owReset := by unfold Statement; decide
theorem owWriteBit (v : Bool) : Statement (.owWriteBit v) := by unfold Statement; revert v; decide
theorem owReadBit : Statement .owReadBit := by unfold Statement; decide
theorem owWriteByte (d : Byte) : Statement (.owWriteByte d) := by unfold Statement; revert d; decide
theorem owReadByte : Statement .owReadByte := by unfold Statement; decide
theorem crcInit : Statement .crcInit := by unfold Statement; decide
theorem crcUpdate (d : Byte) : Statement (.crcUpdate d) := by unfold Statement; revert d; decide
theorem seqReadRom : Statement .seqReadRom := by unfold Statement; decide
theorem seqConvert : Statement .seqConvert := by unfold Statement; decide
theorem seqReadScratchpad : Statement .seqReadScratchpad := by unfold Statement; decide
theorem seqPollRead : Statement .seqPollRead := by unfold Statement; decide
theorem seqBlockingRead : Statement .seqBlockingRead := by unfold Statement; decide

end Sys2Proof.Laws.EncodeValid
end

