-- ==== Sys2Proof/Laws/Pseudocode.lean ====
section
/-! SUPPORT. Each primitive command's body, run undisturbed and with transmit space, is the spec's body procedure. The lemmas
here stop at the bodies; that every meaning is its pseudocode is a statement of the certificates. -/

namespace Sys2Proof.Machine

/-- Nothing lands and nothing holds. -/
abbrev Free (s : State) : Prop := undisturbed s = true ∧ s.txSpace = true

/-- A body procedure's outcome as a progress: OK goes on, any other code ends the command. -/
def ofProc : Result × State → Progress
  | (.ok, s) => .going s
  | (c, s) => .ended c s

/-- A body runs as its procedure says and keeps the state free. -/
def Agrees (body : List Micro) (f : Proc) : Prop :=
  ∀ s, Free s → run body s = ofProc (f s) ∧ Free (f s).2

theorem ofProc_of_ne (c : Result) (s : State) (h : c ≠ .ok) : ofProc (c, s) = .ended c s := by
  cases c <;> simp_all [ofProc]

/-- Two bodies in a row are the two procedures, the second only after OK (spec/43_sequences.md R160). -/
theorem Agrees.append {p q : List Micro} {f g : Proc} (hp : Agrees p f) (hq : Agrees q g) :
    Agrees (p ++ q) (andThen f g) := by
  intro s hs
  obtain ⟨hr, hf⟩ := hp s hs
  rw [run_append, hr]
  rcases hfs : f s with ⟨c, t⟩
  rw [hfs] at hf
  by_cases hc : c = .ok
  · subst hc
    have : andThen f g s = g t := by simp [andThen, hfs]
    rw [this]; exact hq t hf
  · have : andThen f g s = (c, t) := by
      simp only [andThen, hfs]
    rw [this, ofProc_of_ne c t hc]
    exact ⟨rfl, hf⟩

/-- An operation that is no event, in its place in a body. -/
theorem run_silent {m : Micro} {ms : List Micro} {s t : State} (hm : isEvent m = false) (ha : act m s = .going t) :
    run (m :: ms) s = run ms t := by
  rw [run_cons, perform_silent m s hm, ha, thenRun_going]

/-- An operation that is no event and only writes registers. -/
theorem Agrees.silent {m : Micro} {f : State → State} (hm : isEvent m = false) (ha : ∀ s, act m s = .going (f s))
    (hi : ∀ s, (f s).inputs = s.inputs) (ht : ∀ s, (f s).txSpace = s.txSpace) : Agrees [m] (doing f) := by
  intro s hs
  refine ⟨run_silent hm (ha s), ?_, ?_⟩
  · simpa [doing, undisturbed, hi] using hs.1
  · simpa [doing, ht] using hs.2

theorem Agrees.nil : Agrees [] (doing id) := fun _ hs => ⟨rfl, hs⟩

/-- A loop of bodies is the loop of the procedures. -/
theorem Agrees.forEach {α : Type} {body : α → List Micro} {f : α → Proc} (h : ∀ a, Agrees (body a) (f a)) (l : List α) :
    Agrees (l.flatMap body) (forEach f l) := by
  induction l with
  | nil => exact Agrees.nil
  | cons a l ih => rw [List.flatMap_cons]; exact (h a).append ih

/-- Procedures may be regrouped: a code other than OK leaves the whole either way. -/
theorem andThen_assoc (f g h : Proc) : andThen (andThen f g) h = andThen f (andThen g h) := by
  funext s
  unfold andThen
  rcases f s with ⟨c, t⟩
  cases c <;> simp

theorem record_free (e : Event) (s : State) (hs : Free s) : Free (record e s) := by
  refine ⟨?_, hs.2⟩
  have := hs.1
  simp only [undisturbed, record_inputs, countDown_of_undisturbed s hs.1]
  exact this

theorem free_congr (s t : State) (hi : t.inputs = s.inputs) (ht : t.txSpace = s.txSpace) (hs : Free s) : Free t := by
  refine ⟨?_, by rw [ht]; exact hs.2⟩
  have := hs.1
  unfold undisturbed at *
  rw [hi]; exact this

theorem recv_free (s : State) (hs : Free s) : Free (recv s) :=
  record_free _ _ (free_congr s _ (by simp) (by simp) hs)

theorem perform_free (m : Micro) (s : State) (hs : Free s) : perform m s = act m s :=
  perform_of_not_due m s (not_due_of_undisturbed s hs.1)

/-- `SelectHigh`, and OW_RESET's selection of the low rate (spec/40_codec.md R105, spec/42_transaction.md R140). -/
theorem select_agrees (r : Rate) : Agrees [.waitTxSpace, .setBaud r] (procSelect r) := by
  intro s hs
  have h1 : Free (record .w s) := record_free _ _ hs
  have h2 : Free (setBaud r (record .w s)) := record_free _ _ (free_congr (record .w s) _ rfl rfl h1)
  refine ⟨?_, h2⟩
  rw [run_cons, perform_free _ s hs, act, doWaitTxSpace, if_pos hs.2, thenRun_going, run_cons, perform_free _ _ h1]
  rfl

theorem useBit_free (u : BitUse) (b : Bool) (s : State) (hs : Free s) : Free (useBit u b s) := by
  cases u
  · exact hs
  · exact free_congr s _ rfl rfl hs
  · exact free_congr s _ rfl rfl hs

/-- A bit exchange with its wait (spec/40_codec.md R104). -/
theorem exchange_agrees (b : Bool) (u : BitUse) : Agrees ([.waitTxSpace] ++ bitExchange b u) (procExchange b u) := by
  intro s hs
  have h1 : Free (record .w s) := record_free _ _ hs
  have h2 : Free (send (encodeBit b) (record .w s)) := record_free _ _ h1
  have h3 := recv_free _ h2
  have hp : (send (encodeBit b) (record .w s)).policy = s.policy := rfl
  have hrun : run ([.waitTxSpace] ++ bitExchange b u) s =
      thenRun (doRecvBit u (send (encodeBit b) (record .w s))) [] := by
    rw [List.singleton_append, bitExchange, run_cons, perform_free _ s hs, act, doWaitTxSpace, if_pos hs.2, thenRun_going,
      run_cons, perform_free _ _ h1, act, thenRun_going, run_cons, perform_free _ _ h2, act]
  rw [hrun, doRecvBit, hp]
  unfold procExchange
  dsimp only
  generalize nextAnswer (send (encodeBit b) (record .w s)) = a
  cases a with
  | err => exact ⟨rfl, free_congr _ _ rfl rfl h3⟩
  | byte e =>
    dsimp only
    cases decodeEcho s.policy e with
    | line => exact ⟨rfl, free_congr _ _ rfl rfl h3⟩
    | bit r => exact ⟨rfl, useBit_free _ _ _ (free_congr _ _ rfl rfl h3)⟩

/-- `OW_RESET_body` (spec/42_transaction.md R140). -/
theorem reset_agrees : Agrees owResetBody procReset := by
  intro s hs
  have h0 : Free (setPhase .resetIssued s) := free_congr s _ rfl rfl hs
  have h1 : Free (record .w (setPhase .resetIssued s)) := record_free _ _ h0
  have h2 : Free (setBaud .low (record .w (setPhase .resetIssued s))) := record_free _ _ (free_congr _ _ rfl rfl h1)
  have h3 := record_free .w _ h2
  have h4 : Free (send Config.resetPulse (record .w (setBaud .low (record .w (setPhase .resetIssued s))))) :=
    record_free _ _ h3
  have h5 := recv_free _ h4
  have hrun : run owResetBody s = thenRun (doRecvPresence
      (send Config.resetPulse (record .w (setBaud .low (record .w (setPhase .resetIssued s)))))) [] := by
    rw [owResetBody, run_cons, perform_free _ s hs, act, thenRun_going, run_cons, perform_free _ _ h0, act, doWaitTxSpace,
      if_pos h0.2, thenRun_going, run_cons, perform_free _ _ h1, act, thenRun_going, run_cons, perform_free _ _ h2, act,
      doWaitTxSpace, if_pos h2.2, thenRun_going, run_cons, perform_free _ _ h3, act, thenRun_going, run_cons,
      perform_free _ _ h4, act]
  rw [hrun, doRecvPresence]
  unfold procReset
  dsimp only
  generalize nextAnswer (send Config.resetPulse (record .w (setBaud .low (record .w (setPhase .resetIssued s))))) = a
  cases a with
  | err => exact ⟨rfl, free_congr _ _ rfl rfl h5⟩
  | byte e =>
    dsimp only
    by_cases he : e = Config.resetPulse
    · simp only [if_pos he]; exact ⟨rfl, free_congr _ _ rfl rfl h5⟩
    · simp only [if_neg he]; exact ⟨rfl, free_congr _ _ rfl rfl h5⟩

theorem writeBit_agrees (v : Bool) : Agrees (owWriteBitBody v) (procWriteBit v) := by
  rw [owWriteBitBody, List.append_assoc]
  exact (select_agrees .high).append (exchange_agrees v .discard)

theorem readBit_agrees : Agrees owReadBitBody procReadBit := by
  rw [owReadBitBody, List.append_assoc]
  exact (select_agrees .high).append (exchange_agrees true .toRxdata)

/-- One exchange of a byte (spec/42_transaction.md R142, R143). -/
theorem slot_agrees (i : Fin 9) (b : Bool) (u : BitUse) :
    Agrees ([.setBitcnt i, .waitTxSpace] ++ bitExchange b u)
      (andThen (doing fun s => { s with bitcnt := i }) (procExchange b u)) :=
  Agrees.append (p := [.setBitcnt i])
    (Agrees.silent rfl (fun _ => rfl) (fun _ => rfl) (fun _ => rfl)) (exchange_agrees b u)

theorem checkPhase_inputs (b : Bool) (s : State) : (checkPhase b s).inputs = s.inputs := by cases b <;> rfl

theorem checkPhase_txSpace (b : Bool) (s : State) : (checkPhase b s).txSpace = s.txSpace := by cases b <;> rfl

/-- `OW_WRITE_BYTE_body` (spec/42_transaction.md R142). -/
theorem writeByte_agrees (d : Byte) : Agrees (owWriteByteBody d) (procWriteByte d) := by
  unfold owWriteByteBody procWriteByte
  rw [List.append_assoc, List.append_assoc]
  refine Agrees.append ?_ (Agrees.append (select_agrees .high) (Agrees.append ?_ ?_))
  · exact Agrees.silent rfl (fun _ => rfl) (fun _ => checkPhase_inputs _ _) (fun _ => checkPhase_txSpace _ _)
  · exact Agrees.forEach (fun i => slot_agrees _ _ _) _
  · exact Agrees.silent rfl (fun _ => rfl) (fun _ => rfl) (fun _ => rfl)

/-- `OW_READ_BYTE_body` (spec/42_transaction.md R143). -/
theorem readByte_agrees : Agrees owReadByteBody procReadByte := by
  unfold owReadByteBody procReadByte
  rw [List.append_assoc, List.append_assoc, List.append_assoc]
  refine Agrees.append ?_ (Agrees.append (select_agrees .high) (Agrees.append ?_ (Agrees.append ?_ ?_)))
  · exact Agrees.silent rfl (fun _ => rfl) (fun _ => checkPhase_inputs _ _) (fun _ => checkPhase_txSpace _ _)
  · exact Agrees.silent rfl (fun _ => rfl) (fun _ => rfl) (fun _ => rfl)
  · exact Agrees.forEach (fun i => slot_agrees _ _ _) _
  · intro s hs
    exact ⟨(run_silent rfl rfl).trans (run_silent rfl rfl), free_congr s _ rfl rfl hs⟩

/-- Byte k of SEQ_READ_ROM's read phase (spec/43_sequences.md R161). -/
theorem readSnByte_agrees (k : Fin 8) : Agrees (readSnByte k)
    (andThen (doing fun s => { s with bytecnt := k.castLE (by decide) }) (andThen procReadByte
      (doing fun s => { s with sn := s.sn.set k s.rxdata, crc := crcStep s.crc s.rxdata }))) := by
  unfold readSnByte
  rw [List.append_assoc]
  refine Agrees.append ?_ (Agrees.append readByte_agrees ?_)
  · exact Agrees.silent rfl (fun _ => rfl) (fun _ => rfl) (fun _ => rfl)
  · intro s hs
    refine ⟨(run_silent rfl rfl).trans ((run_silent rfl rfl).trans ?_), free_congr s _ rfl rfl hs⟩
    simp [doing, ofProc, setCrc]

/-- Byte k of SEQ_READ_SCRATCHPAD's read phase (spec/43_sequences.md R161). -/
theorem readSpByte_agrees (k : Fin 9) : Agrees (readSpByte k)
    (andThen (doing fun s => { s with bytecnt := k.castLE (by decide) }) (andThen procReadByte
      (doing fun s =>
        { s with sp := s.sp.set k s.rxdata, crc := if k.val < 8 then crcStep s.crc s.rxdata else s.crc }))) := by
  unfold readSpByte
  rw [List.append_assoc, List.append_assoc]
  refine Agrees.append ?_ (Agrees.append readByte_agrees ?_)
  · exact Agrees.silent rfl (fun _ => rfl) (fun _ => rfl) (fun _ => rfl)
  · intro s hs
    refine ⟨(run_silent rfl rfl).trans ?_, free_congr s _ rfl rfl hs⟩
    by_cases hk : k.val < 8
    · rw [if_pos hk]
      refine (run_silent rfl rfl).trans ?_
      simp [doing, ofProc, setCrc, hk]
    · simp [doing, ofProc, hk]

/-- `ReadBlock(SN, 8, 8)` (spec/43_sequences.md R161). -/
theorem readBlockSn_agrees : Agrees readBlockSn procReadBlockSn := by
  unfold readBlockSn procReadBlockSn crcInitBody
  rw [List.append_assoc]
  refine Agrees.append ?_ (Agrees.append (Agrees.forEach readSnByte_agrees _) ?_)
  · exact Agrees.silent rfl (fun _ => rfl) (fun _ => rfl) (fun _ => rfl)
  · exact Agrees.silent rfl (fun _ => rfl) (fun _ => rfl) (fun _ => rfl)

/-- `ReadBlock(SP, 9, 8)` (spec/43_sequences.md R161). -/
theorem readBlockSp_agrees : Agrees readBlockSp procReadBlockSp := by
  unfold readBlockSp procReadBlockSp crcInitBody
  rw [List.append_assoc]
  refine Agrees.append ?_ (Agrees.append (Agrees.forEach readSpByte_agrees _) ?_)
  · exact Agrees.silent rfl (fun _ => rfl) (fun _ => rfl) (fun _ => rfl)
  · exact Agrees.silent rfl (fun _ => rfl) (fun _ => rfl) (fun _ => rfl)

end Sys2Proof.Machine
end

