-- ==== Sys2Proof/Tests/Slice0.lean ====
section
/-! SUPPORT. Tests whose expected results are the spec's (95_test_vectors.md, and hand calculation from the rules), and for
every statement of the certificates with hypotheses a state that meets them. -/

namespace Sys2Proof.Machine

/-- An idle block after reset whose transport answers as listed. -/
def ready (as : List Answer) : State := { State.reset with rx := as }

/-- The same under ECHO_POLICY = LINE_ERROR. -/
def readyStrict (as : List Answer) : State := { State.reset with rx := as, policy := .lineError }

/-- A block in the middle of a command: its word, the events done, the answers to come. -/
def running (w : Word) (pos : Nat) (as : List Answer) : State :=
  { State.reset with status := 0x80, cur := w, seqpos := pos, rx := as }

/-- The state after a command (the state before, were there none). -/
def after (i : Instr) (s : State) : State := nextOf s (exec i s)

/-- The state after a step. -/
def stepped (s : State) : State := nextOf s (step s)

/-! ## WellFormed and Decode -/

/-- R73: a reserved opcode is refused. -/
theorem test_ill_formed_opcode : validWord 0xD000 = false ∧ decode 0xD000 = .error .reservedOpcode := by decide +kernel

/-- R73, 95_test_vectors.md 2.7: a non-zero A field is refused. -/
theorem test_ill_formed_a : validWord 0x3100 = false ∧ decode 0x3100 = .error .nonzeroReservedField := by decide +kernel

/-- R73, 95_test_vectors.md 2.7: a non-zero A[3:1] of OW_WRITE_BIT is refused. -/
theorem test_ill_formed_write_bit : validWord 0x2200 = false ∧ decode 0x2200 = .error .nonzeroReservedField := by decide +kernel

/-- R73, 95_test_vectors.md 2.7: a non-zero D field is refused. -/
theorem test_ill_formed_d : validWord 0x6001 = false ∧ decode 0x6001 = .error .nonzeroReservedField := by decide +kernel

/-- R72: every row's word, bits 15..0 written out. -/
theorem test_decode_words :
    decode 0b0000000000000000 = .ok .nop ∧ decode 0b0001000000000000 = .ok .owReset ∧
    decode 0b0010000100000000 = .ok (.owWriteBit true) ∧ decode 0b0010000000000000 = .ok (.owWriteBit false) ∧
    decode 0b0011000000000000 = .ok .owReadBit ∧ decode 0b0100000011001100 = .ok (.owWriteByte 0xCC) ∧
    decode 0b0101000000000000 = .ok .owReadByte := by decide +kernel

/-- R72: the other rows. -/
theorem test_decode_words_2 :
    decode 0b0110000000000000 = .ok .crcInit ∧ decode 0b0111000000011100 = .ok (.crcUpdate 0x1C) ∧
    decode 0b1000000000000000 = .ok .seqReadRom ∧ decode 0b1001000000000000 = .ok .seqConvert ∧
    decode 0b1010000000000000 = .ok .seqReadScratchpad ∧ decode 0b1011000000000000 = .ok .seqPollRead ∧
    decode 0b1100000000000000 = .ok .seqBlockingRead := by decide +kernel

/-- R72: the words an encoder gives (95_test_vectors.md K2, T5, Q1). -/
theorem test_encode_words :
    encode (.owWriteBit true) = 0x2100 ∧ encode (.owWriteByte 0xCC) = 0x40CC ∧ encode (.crcUpdate 0xA2) = 0x70A2 ∧
    encode .seqReadRom = 0x8000 ∧ encode .seqBlockingRead = 0xC000 := by decide +kernel

/-- The first instruction after reset (R243). -/
theorem test_first_step_runs :
    decodeTableWord 16 0x40CC = some (.owWriteByte 0xCC) ∧
    stepped ((ready []).withFetchWord 16 0x7001) = after (.crcUpdate 0x01) (ready []) := by
  refine ⟨by decide +kernel, rfl⟩

/-! ## The codec and the CRC engine -/

/-- 95_test_vectors.md 2.1. -/
theorem test_decode_echo :
    decodeEcho .aliasZero 0xFE = .bit false ∧ decodeEcho .lineError 0xFE = .line ∧ decodeEcho .lineError 0x3C = .line ∧
    decodeEcho .lineError 0xFF = .bit true ∧ decodeEcho .lineError 0x00 = .bit false := by decide +kernel

/-- R106's example: after OW_RESET with NO_DEVICE, NOP gives STATUS 0x00 and no event. -/
theorem test_nop :
    (after .nop (after .owReset (ready [.byte 0xF0]))).status = 0x00 ∧
    (after .nop (after .owReset (ready [.byte 0xF0]))).trace.length = 5 := by decide +kernel

/-- K2, K7: a written 1 that reads back 0 is OK. -/
theorem test_write_bit :
    (after (.owWriteBit true) (ready [.byte 0x00])).trace = [.w, .b .high, .w, .s 0xFF, .r (.byte 0x00)] ∧
    (after (.owWriteBit true) (ready [.byte 0x00])).status = 0x00 := by decide +kernel

/-- K4. -/
theorem test_read_bit :
    (after .owReadBit (ready [.byte 0xFE])).rxdata = 0x00 ∧ (after .owReadBit (ready [.byte 0xFE])).rxraw = 0xFE ∧
    (after .owReadBit (ready [.byte 0xFF])).rxdata = 0x01 := by decide +kernel

/-- K5. -/
theorem test_read_bit_line_error :
    (after .owReadBit (readyStrict [.byte 0x3C])).status = 0x05 ∧
    (after .owReadBit (readyStrict [.byte 0x3C])).rxraw = 0x3C := by decide +kernel

/-- R125's example. -/
theorem test_crc_init : (after .crcInit { ready [] with crc := 0x5E }).crc = 0x00 := by decide +kernel

/-- R126's example, and 95_test_vectors.md 2.3: CRC_UPDATE 0x5E from 5E gives 00. -/
theorem test_crc_update :
    (after (.crcUpdate 0x01) (ready [])).crc = 0x5E ∧
    (after (.crcUpdate 0x5E) { ready [] with crc := 0x5E }).crc = 0x00 := by decide +kernel

/-- 95_test_vectors.md 2.3. -/
theorem test_crc8_vectors :
    crc8 [0x02, 0x1C, 0xB8, 0x01, 0x00, 0x00, 0x00] = 0xA2 ∧
    crc8 [0x31, 0x32, 0x33, 0x34, 0x35, 0x36, 0x37, 0x38, 0x39] = 0xA1 ∧
    crc8 [0xFF, 0xFF, 0xFF, 0xFF, 0xFF, 0xFF, 0xFF, 0xFF] = 0xC9 ∧
    crc8 [0x50, 0x00, 0x4B, 0x46, 0xFF, 0xFF, 0x04, 0x0C] = 0x44 := by decide +kernel

/-! ## The transaction engine -/

/-- T1. -/
theorem test_reset_present :
    (after .owReset (ready [.byte 0xE0])).trace = [.w, .b .low, .w, .s 0xF0, .r (.byte 0xE0)] ∧
    (after .owReset (ready [.byte 0xE0])).phase = .addressed := by decide +kernel

/-- T2, T3. -/
theorem test_reset_fails :
    (after .owReset (ready [.byte 0xF0])).status = 0x01 ∧ (after .owReset (ready [.err])).status = 0x02 ∧
    (after .owReset (ready [.err])).phase = .idle := by decide +kernel

/-- T8: 0x33 goes out as FF FF 00 00 FF FF 00 00. -/
theorem test_write_byte_bit_order :
    ((after (.owWriteByte 0x33) { ready (echoes 0x33) with phase := .addressed }).trace.filter
      fun e => e = .s 0xFF ∨ e = .s 0x00) =
    [.s 0xFF, .s 0xFF, .s 0x00, .s 0x00, .s 0xFF, .s 0xFF, .s 0x00, .s 0x00] := by decide +kernel

/-- T6: ERR at bit 3 ends OW_WRITE_BYTE after 14 events. -/
theorem test_write_byte_abort :
    (after (.owWriteByte 0xCC) (ready [.byte 0x00, .byte 0x00, .byte 0xFF, .err])).trace.length = 14 ∧
    (after (.owWriteByte 0xCC) (ready [.byte 0x00, .byte 0x00, .byte 0xFF, .err])).status = 0x02 := by decide +kernel

/-- T12. -/
theorem test_read_byte :
    (after .owReadByte { ready [.byte 0x00, .byte 0x00, .byte 0x00, .byte 0xFF, .byte 0x00, .byte 0xFF, .byte 0x00, .byte 0x00]
      with phase := .exchanging }).rxdata = 0x28 := by decide +kernel

/-- T18: a read before any command byte records ProtocolViolation. -/
theorem test_read_byte_violation :
    (after .owReadByte { ready (echoes 0xFF) with phase := .addressed }).faults = [.protocolViolation] := by decide +kernel

/-! ## The sequences -/

/-- The answers of Q1. -/
def romAnswers : List Answer :=
  .byte 0xE0 :: ([0x33, 0x02, 0x1C, 0xB8, 0x01, 0x00, 0x00, 0x00, 0xA2] : List Byte).flatMap echoes

/-- The answers of Q9. -/
def scratchpadAnswers : List Answer :=
  .byte 0xE0 :: ([0xCC, 0xBE, 0x50, 0x00, 0x4B, 0x46, 0xFF, 0xFF, 0x04, 0x0C, 0x44] : List Byte).flatMap echoes

/-- The answers of Q5, after the poll bit: SP[0] with bit 0 flipped. -/
def flippedAnswers : List Answer :=
  .byte 0xE0 :: ([0xCC, 0xBE, 0x51, 0x00, 0x4B, 0x46, 0xFF, 0xFF, 0x04, 0x0C, 0x44] : List Byte).flatMap echoes

/-- The answers of a successful SEQ_CONVERT (Q4). -/
def convertAnswers : List Answer := .byte 0xE0 :: ([0xCC, 0x44] : List Byte).flatMap echoes

/-- Q1. -/
theorem test_read_rom :
    (after .seqReadRom (ready romAnswers)).sn = #v[0x02, 0x1C, 0xB8, 0x01, 0x00, 0x00, 0x00, 0xA2] ∧
    (after .seqReadRom (ready romAnswers)).crc = 0x00 ∧ (after .seqReadRom (ready romAnswers)).status = 0x00 := by
  decide +kernel

/-- Q2. -/
theorem test_read_rom_no_device : (after .seqReadRom (ready [.byte 0xF0])).status = 0x01 := by decide +kernel

/-- Q4. -/
theorem test_convert :
    (after .seqConvert (ready convertAnswers)).trace.length = 57 ∧
    (after .seqConvert (ready convertAnswers)).phase = .exchanging := by decide +kernel

/-- Q9. -/
theorem test_read_scratchpad :
    (after .seqReadScratchpad (ready scratchpadAnswers)).sp = #v[0x50, 0x00, 0x4B, 0x46, 0xFF, 0xFF, 0x04, 0x0C, 0x44] ∧
    (after .seqReadScratchpad (ready scratchpadAnswers)).status = 0x00 := by decide +kernel

/-- Q7. -/
theorem test_poll_read_busy :
    (after .seqPollRead (ready [.byte 0x00])).status = 0x04 ∧
    (after .seqPollRead (ready [.byte 0x00])).trace.length = 5 := by decide +kernel

/-- Q5. -/
theorem test_poll_read_mismatch :
    (after .seqPollRead (ready (.byte 0xFF :: flippedAnswers))).status = 0x03 ∧
    (after .seqPollRead (ready (.byte 0xFF :: flippedAnswers))).crc = 0x07 := by decide +kernel

/-- Q11: no poll is made. -/
theorem test_blocking_read_no_device : (after .seqBlockingRead (ready [.byte 0xF0])).trace.length = 5 := by
  decide +kernel

/-- R166: a busy first poll leaves the command running, 62 events in. -/
theorem test_blocking_read_busy :
    (after .seqBlockingRead (ready (convertAnswers ++ [.byte 0xFE]))).status = 0x80 ∧
    (after .seqBlockingRead (ready (convertAnswers ++ [.byte 0xFE]))).trace.length = 62 := by decide +kernel

/-! ## The outside world -/

/-- R215: a word written while BUSY = 1 sets OVR and no more. -/
theorem test_overrun :
    (stepped { running 0x1000 0 [] with inputs := [.command 0x0000] }).status = 0xC0 ∧
    (stepped { running 0x1000 0 [] with inputs := [.command 0x0000] }).cur = 0x1000 := by decide +kernel

/-- R53, Log 5: a command that a read interrupts after two events stands at SEQPOS 2 with BUSY = 1. -/
theorem test_pause :
    (stepped { ready [.byte 0xE0] with inputs := [.command 0x1000, .pause 2, .readReg 0x00] }).seqpos = 2 ∧
    (stepped { ready [.byte 0xE0] with inputs := [.command 0x1000, .pause 2, .readReg 0x00] }).status = 0x80 := by decide +kernel

/-- R241: block reset in the middle of OW_RESET. -/
theorem test_block_reset :
    (stepped { running 0x1000 4 [] with inputs := [.blockReset] }).status = 0x00 ∧
    (stepped { running 0x1000 4 [] with inputs := [.blockReset] }).seqpos = 0 := by decide +kernel

/-- R51 at the edges of its ranges. -/
theorem test_register_edges :
    regRead 0x07 (running 0 0 []) = 0x00 ∧
    regRead 0x08 { ready [] with sn := #v[1, 2, 3, 4, 5, 6, 7, 8] } = 1 ∧
    regRead 0x0F { ready [] with sn := #v[1, 2, 3, 4, 5, 6, 7, 8] } = 8 ∧
    regRead 0x10 { ready [] with sp := #v[1, 2, 3, 4, 5, 6, 7, 8, 9] } = 1 ∧
    regRead 0x18 { ready [] with sp := #v[1, 2, 3, 4, 5, 6, 7, 8, 9] } = 9 ∧
    regRead 0x19 { ready [] with sp := #v[1, 2, 3, 4, 5, 6, 7, 8, 9] } = 0 ∧ regRead 0xFF (running 0 0 []) = 0x00 := by
  decide +kernel

/-- 95_test_vectors.md 2.6. -/
theorem test_temp_int :
    tempInt #v[0xFF, 0xFF, 0, 0, 0, 0, 0x0C, 0x10, 0] = -1 ∧ tempInt #v[0x32, 0x01, 0, 0, 0, 0, 0x0C, 0x10, 0] = -103 ∧
    tempInt #v[0x00, 0xFF, 0, 0, 0, 0, 0x0C, 0x10, 0] = -128 := by decide +kernel

/-- 95_test_vectors.md 2.6. -/
theorem test_temperature :
    temperature #v[0x32, 0x00, 0, 0, 0, 0, 0x0B, 0x10, 0] = some (401 / 16) ∧
    temperature #v[0xCE, 0xFF, 0, 0, 0, 0, 0x0C, 0x10, 0] = some (-25) ∧
    temperature #v[0x32, 0x00, 0, 0, 0, 0, 0x0C, 0x00, 0] = none := by decide +kernel

/-- R79: two lines of P1 and a comment. -/
theorem test_assembler :
    parseProgram ["CRC_INIT            ; 0x6000".toList, "CRC_UPDATE 0x1C".toList, "read CRC".toList] =
      some [.command .crcInit, .command (.crcUpdate 0x1C), .read 0x03] := by decide +kernel

/-! ## Witnesses: for each statement with hypotheses, states and operands that meet them -/

theorem witness_EncodeOfDecodeIsTheWord : decodeWord 0x40F0 = some (.owWriteByte 0xF0) := by decide +kernel

theorem witness_StepRunsTheDecodedCommand :
    { ready [] with inputs := [.command 0x1000] }.inputs = .command 0x1000 :: [] ∧ decodeWord 0x1000 = some .owReset ∧
    { running 0x1000 2 [] with inputs := [.command 0x1000] }.inputs = .command 0x1000 :: [] := by decide +kernel

theorem witness_IllegalWordFinishesWithIllegalCommand :
    (ready []).busy = false ∧ { ready [] with inputs := [.command 0xF0F0] }.inputs = .command 0xF0F0 :: [] ∧
    validWord 0xF0F0 = false := by decide +kernel

theorem witness_WordWrittenWhileBusyIsIgnored :
    { running 0x1000 2 [] with inputs := [.command 0xD000] }.busy = true ∧
    { running 0x1000 2 [] with inputs := [.command 0xD000] }.inputs = .command 0xD000 :: [] ∧
    { ready [] with inputs := [.command 0x0000] }.busy = false := by decide +kernel

/-- For every statement whose one hypothesis is an idle block: AcceptanceKeepsTheOldResult, CommandIsBlockSteps, NopFinishesOk,
CrcCommandsResult, FailureLeavesPhaseIdle, TransportPortIsUsedInOrder, CommandsFinishOnlyWithTheirCodes. -/
theorem witness_idle : (ready []).busy = false := by decide +kernel

/-- CommandHoldsWithoutSpace at the first and at a later wait. -/
theorem witness_CommandHoldsWithoutSpace :
    (let s := { running 0x1000 0 [] with txSpace := false };
      s.busy = true ∧ undisturbed s = true ∧ s.txSpace = false ∧ decodeWord s.cur = some .owReset ∧
      (afterEvents s.seqpos (bodyOf .owReset)).head? = some .waitTxSpace) ∧
    (afterEvents 2 (bodyOf .owReset)).head? = some .waitTxSpace := by decide +kernel

theorem witness_ResumingIsBlockSteps : (running 0x1000 2 []).busy = true ∧ inputDue (running 0x1000 2 []) = false := by decide +kernel

/-- For every statement whose one hypothesis is a ready block: MeaningsAreTheSpecsPseudocode, WriteBitResult, ReadBitResult,
ResetPulseResult. -/
theorem witness_ready : Ready (ready []) ∧ Ready (readyStrict [.byte 0x3C]) := by decide +kernel

/-- R195: the family code, the serial and the check of Q1's bytes. -/
theorem test_serial :
    family #v[0x02, 0x1C, 0xB8, 0x01, 0x00, 0x00, 0x00, 0xA2] = 0x02 ∧
    serial #v[0x02, 0x1C, 0xB8, 0x01, 0x00, 0x00, 0x00, 0xA2] = 0x1CB801000000 ∧
    serialValid #v[0x02, 0x1C, 0xB8, 0x01, 0x00, 0x00, 0x00, 0xA2] = true := by decide +kernel

theorem witness_RegisterReadHasNoSideEffect :
    { running 0x1000 2 [] with inputs := [.readReg 0xFF] }.inputs = .readReg 0xFF :: [] := by decide +kernel

theorem witness_BlockResetAbandonsAndClears :
    { running 0x1000 2 [] with inputs := [.blockReset] }.inputs = .blockReset :: [] ∧ (running 0x1000 2 []).busy = true ∧
    (ready []).busy = false := by decide +kernel

/-- The invariant in the middle of a command, with a step that answers. -/
theorem witness_EveryStepKeepsTheInvariant :
    Inv (running 0xC000 352 []) ∧ ∃ t, step (running 0xC000 352 []) = .next t :=
  ⟨by decide +kernel, _, rfl⟩

/-- For RecordsOnlyGrow and BuffersChangeOnlyUnderTheirSequences: an accepting step that answers and changes SN. -/
theorem witness_BuffersChangeOnlyUnderTheirSequences :
    let s := { ready romAnswers with inputs := [.command 0x8000] }
    ∃ t, step s = .next t ∧ t.sn ≠ s.sn :=
  ⟨_, rfl, by decide +kernel⟩

/-- The three ways SP can change, and block reset. -/
theorem witness_BuffersChangeOnlyUnderTheirSequences_sp :
    (stepped { ready scratchpadAnswers with inputs := [.command 0xA000] }).sp ≠ State.reset.sp ∧
    (stepped { ready [] with inputs := [.blockReset], sp := Vector.replicate 9 0x01 }).sp ≠ Vector.replicate 9 0x01 := by
  decide +kernel

/-- For the frame statements: exec answers for every command. -/
theorem witness_frames (i : Instr) : ∃ t, exec i (ready romAnswers) = .next t := by cases i <;> exact ⟨_, rfl⟩

theorem witness_WriteByteResult :
    Ready (ready (echoes 0xCC)) ∧ nextAnswers 8 (ready (echoes 0xCC)) = echoes 0xCC ∧
    answerBits .aliasZero (echoes 0xCC) = some [false, false, true, true, false, false, true, true] := by decide +kernel

theorem witness_ReadByteResult :
    Ready (readyStrict (echoes 0x28)) ∧ nextAnswers 8 (readyStrict (echoes 0x28)) = echoes 0x28 ∧
    answerBits .lineError (echoes 0x28) = some [false, false, false, true, false, true, false, false] := by decide +kernel

/-- ByteCommandsAbortAtTheFirstFailure at the first bit with ERR and at the last with a non-canonical echo. -/
theorem witness_ByteCommandsAbortAtTheFirstFailure :
    (Ready (ready [.err]) ∧ nextAnswers 1 (ready [.err]) = [] ++ [.err] ∧
      answerFailure .aliasZero .err = some .transportError) ∧
    (let as := (echoes 0xFF).take 7;
      Ready (readyStrict (as ++ [.byte 0x3C])) ∧ as.length = 7 ∧
      nextAnswers 8 (readyStrict (as ++ [.byte 0x3C])) = as ++ [.byte 0x3C] ∧
      answerBits .lineError as = some (List.replicate 7 true) ∧
      answerFailure .lineError (.byte 0x3C) = some .lineError) := by decide +kernel

/-- ProtocolViolationIsRecordedAndNoMore in the four phases. -/
theorem witness_ProtocolViolationIsRecordedAndNoMore :
    (ready []).busy = false ∧
    exec (.owWriteByte 0xFF) (ready (echoes 0xFF)) = .next (after (.owWriteByte 0xFF) (ready (echoes 0xFF))) ∧
    (after (.owWriteByte 0xFF) (ready (echoes 0xFF))).faults = [.protocolViolation] ∧
    (after (.owWriteByte 0xFF) { ready (echoes 0xFF) with phase := .addressed }).faults = [] ∧
    (after .owReadByte { ready (echoes 0xFF) with phase := .exchanging }).faults = [] ∧
    (after .owReadByte { ready (echoes 0xFF) with phase := .resetIssued }).faults = [.protocolViolation] := by
  refine ⟨by decide +kernel, rfl, by decide +kernel, by decide +kernel, by decide +kernel, by decide +kernel⟩

theorem witness_EngineHasNoCrossCallState :
    let s := ready [.byte 0xE0]
    let s' := { ready [.byte 0xE0] with crc := 0x5E, rxdata := 0x12, phase := .exchanging }
    s ≠ s' ∧ s.busy = false ∧ s'.busy = false ∧ s.policy = s'.policy ∧ s.rx = s'.rx ∧ s.draws = s'.draws ∧
    s.txSpace = s'.txSpace ∧ s.inputs = s'.inputs := by
  refine ⟨fun h => ?_, rfl, rfl, rfl, rfl, rfl, rfl, rfl⟩
  have := congrArg State.crc h
  revert this; decide +kernel

theorem witness_SequencesEndWithAFailedReset :
    Ready (ready [.err]) ∧ nextAnswer (ready [.err]) = .err ∧ Ready (ready [.byte 0xF0]) ∧
    nextAnswer (ready [.byte 0xF0]) = .byte 0xF0 := by decide +kernel

theorem witness_ConvertResult : ∃ as bits, Ready (ready convertAnswers) ∧
    nextAnswers 17 (ready convertAnswers) = .byte 0xE0 :: as ∧ answerBits .aliasZero as = some bits :=
  ⟨_, _, by decide +kernel, rfl, rfl⟩

theorem witness_ReadRomResult : ∃ as bits, Ready (ready romAnswers) ∧
    nextAnswers 73 (ready romAnswers) = .byte 0xE0 :: as ∧ answerBits .aliasZero as = some bits :=
  ⟨_, _, by decide +kernel, rfl, rfl⟩

theorem witness_ReadScratchpadResult : ∃ as bits, Ready (ready scratchpadAnswers) ∧
    nextAnswers 89 (ready scratchpadAnswers) = .byte 0xE0 :: as ∧ answerBits .aliasZero as = some bits :=
  ⟨_, _, by decide +kernel, rfl, rfl⟩

theorem witness_PollReadBusyStopsAtThePollBit : Ready (ready [.byte 0xFE]) ∧
    answerBit .aliasZero (nextAnswer (ready [.byte 0xFE])) = some false := by decide +kernel

theorem witness_PollReadEndsWithAFailedPollBit :
    (Ready (ready [.err]) ∧ answerFailure .aliasZero (nextAnswer (ready [.err])) = some .transportError) ∧
    (Ready (readyStrict [.byte 0xFE]) ∧
      answerFailure .lineError (nextAnswer (readyStrict [.byte 0xFE])) = some .lineError) := by decide +kernel

theorem witness_PollReadReadyReadsTheScratchpad :
    let s := ready (.byte 0xFF :: scratchpadAnswers)
    ∃ as bits, Ready s ∧ nextAnswers 90 s = .byte 0xFF :: .byte 0xE0 :: as ∧
      answerBit .aliasZero (.byte 0xFF) = some true ∧ answerBits .aliasZero as = some bits :=
  ⟨_, _, by decide +kernel, rfl, rfl, rfl⟩

/-- FlippedBitGivesChecksumMismatch with bit 0 of byte 0 flipped (S8, Q5) and with bit 7 of byte 7. -/
theorem witness_FlippedBitGivesChecksumMismatch :
    let data : List Byte := [0x50, 0x00, 0x4B, 0x46, 0xFF, 0xFF, 0x04, 0x0C]
    let cmds := ([0xCC, 0xBE] : List Byte).flatMap echoes
    let s := fun k j => ready (.byte 0xFF :: .byte 0xE0 :: cmds ++
      ((data.modify k (fun d => d ^^^ ((0x01 : Byte) <<< j))) ++ [crc8 data]).flatMap echoes)
    (∃ cmdBits, answerBits .aliasZero cmds = some cmdBits) ∧ cmds.length = 16 ∧ data.length = 8 ∧ Ready (s 0 0) ∧
    nextAnswers 90 (s 0 0) = .byte 0xFF :: flippedAnswers ∧ Ready (s 7 7) ∧ nextAnswers 90 (s 7 7) = (s 7 7).rx :=
  ⟨⟨_, rfl⟩, rfl, rfl, by decide +kernel, by decide +kernel, by decide +kernel, by decide +kernel⟩

theorem witness_BlockingReadResult :
    let s := ready (convertAnswers ++ .byte 0xFF :: scratchpadAnswers)
    ∃ as as' bits bits', Ready s ∧ nextAnswers 107 s = .byte 0xE0 :: as ++ .byte 0xFF :: .byte 0xE0 :: as' ∧
      as.length = 16 ∧ answerBits .aliasZero as = some bits ∧ answerBits .aliasZero as' = some bits' :=
  ⟨convertAnswers.tail, scratchpadAnswers.tail, _, _, by decide +kernel, by decide +kernel, rfl, rfl, rfl⟩

/-- BlockingReadPollsUntilReady with no busy poll and with the two of P5. -/
theorem witness_BlockingReadPollsUntilReady : ∃ as as' bits bits',
    as.length = 16 ∧ answerBits .aliasZero as = some bits ∧ answerBits .aliasZero as' = some bits' ∧
    answerBit .aliasZero (.byte 0xFF) = some true ∧
    (let s := { ready (convertAnswers ++ .byte 0xFF :: scratchpadAnswers) with inputs := [.command 0xC000] };
      s.busy = false ∧ s.txSpace = true ∧ undisturbed { s with inputs := [] } = true ∧
      nextAnswers (0 + 107) s = .byte 0xE0 :: as ++ [] ++ .byte 0xFF :: .byte 0xE0 :: as') ∧
    (let s := { ready (convertAnswers ++ [.byte 0xFE, .byte 0x00] ++ .byte 0xFF :: scratchpadAnswers) with
        inputs := [.command 0xC000, .wait] };
      s.busy = false ∧ s.txSpace = true ∧ undisturbed { s with inputs := [.wait] } = true ∧
      nextAnswers (2 + 107) s = .byte 0xE0 :: as ++ [.byte 0xFE, .byte 0x00] ++ .byte 0xFF :: .byte 0xE0 :: as' ∧
      (∀ a ∈ [Answer.byte 0xFE, .byte 0x00], answerBit .aliasZero a = some false)) :=
  ⟨convertAnswers.tail, scratchpadAnswers.tail, _, _, rfl, rfl, rfl, rfl, by decide +kernel, by decide +kernel⟩

/-- FAIR_CONVERSION with the third poll failing. -/
theorem witness_BlockingReadEndsUnderFairConversion :
    let s := running 0xC000 57 [.byte 0x00, .byte 0xFE, .err]
    s.busy = true ∧ s.cur = 0xC000 ∧ s.seqpos = 57 ∧ undisturbed s = true ∧ s.txSpace = true ∧ FairConversion s :=
  ⟨by decide +kernel, rfl, rfl, rfl, rfl, 2, .err, rfl, by decide +kernel⟩

theorem witness_CrcProgramComputesCrc8 :
    { ready [] with inputs := [.command 0x6000, .command 0x7001] }.inputs =
      .command (encode .crcInit) :: ([0x01] : List Byte).map (fun d => .command (encode (.crcUpdate d))) := by decide +kernel

/-- HostDecodesFaultOrAnswer: each clause, with its input next. -/
theorem witness_HostDecodesFaultOrAnswer :
    (let s := { ready [] with spValid := true, sp := #v[0, 0, 0, 0, 0, 0, 0, 0x0C, 0], inputs := [.decodeTemperature] };
      s.inputs = .decodeTemperature :: [] ∧ s.spValid = true ∧ s.sp[7] ≠ 0) ∧
    (let s := { ready [] with inputs := [.decodeTemperature] };
      s.inputs = .decodeTemperature :: [] ∧ s.spValid = false ∧ s.sp[7] = 0) ∧
    { ready [] with inputs := [.decodeTempInt] }.inputs = .decodeTempInt :: [] ∧
    { ready [] with inputs := [.decodeSerial] }.inputs = .decodeSerial :: [] := by decide +kernel

/-- AcceptanceKeepsTheOldResult: both a command that is done and one that still runs, with an old result kept. -/
theorem witness_AcceptanceKeepsTheOldResult :
    (after .nop (ready [])).busy = false ∧ { ready [] with status := 0x02, txSpace := false }.busy = false ∧
    (after .owReset { ready [] with status := 0x02, txSpace := false }).status = 0x82 := by decide +kernel

/-- BuffersChangeOnlyUnderTheirSequences in a step that carries OW_READ_BIT on: RXDATA and RXRAW change and PHASE stays, and with
ERR PHASE changes to IDLE. -/
theorem witness_BuffersChangeOnlyUnderTheirSequences_resumed :
    (let s := { running 0x3000 4 [.byte 0xFF] with phase := .addressed };
      s.inputs.head? ≠ some .blockReset ∧ actingCommand s = some .owReadBit ∧ (stepped s).rxdata = 0x01 ∧
      (stepped s).rxraw = 0xFF ∧ (stepped s).phase = .addressed ∧ Column.crc ∉ mayWrite .owReadBit) ∧
    (let s := { running 0x3000 4 [.err] with phase := .addressed };
      actingCommand s = some .owReadBit ∧ (stepped s).phase = .idle ∧ (stepped s).status = 0x02) := by decide +kernel

/-- FailureLeavesPhaseIdle: a resumed OW_WRITE_BYTE that fails at its last bit, and an idle block that has failed. -/
theorem witness_FailureLeavesPhaseIdle :
    (let s := { running 0x40CC 25 [.err] with phase := .addressed };
      s.busy = true ∧ (stepped s).busy = false ∧ BusFailed (stepped s) ∧ FailedIsIdle s) ∧
    (let s := { ready [] with status := 0x01, inputs := [.readReg 0x00] }; FailedIsIdle s ∧ BusFailed s) := by decide +kernel

/-- TransportPortIsUsedInOrder: a block paused after a Send, after a WaitTxSpace and after a Recv, and a block reset there. -/
theorem witness_TransportPortIsUsedInOrder :
    (let s := { running 0x1000 4 [] with trace := [.w, .b .low, .w, .s 0xF0], inputs := [.blockReset] };
      portAt s = .sent ∧ PortInOrder s ∧ s.inputs.head? = some .blockReset) ∧
    (let s := { running 0x1000 3 [.byte 0xE0] with trace := [.w, .b .low, .w], inputs := [.pause 1, .readReg 0x00] };
      portAt s = .spaceConfirmed ∧ PortInOrder s ∧ s.inputs.head? ≠ some .blockReset ∧ portAt (stepped s) = .sent) ∧
    portAt (running 0xC000 57 []) = .free := by decide +kernel

/-- CommandsFinishOnlyWithTheirCodes: SEQ_BLOCKING_READ finishing in a later step, and an idle block after an illegal word. -/
theorem witness_CommandsFinishOnlyWithTheirCodes :
    (let s := running 0xC000 57 [.err];
      s.busy = true ∧ decodeWord s.cur = some .seqBlockingRead ∧ s.inputs.head? ≠ some .blockReset ∧
      (stepped s).status = 0x02) ∧
    ResultFits { ready [] with cur := 0xF0F0, status := 0x06, inputs := [.command 0x1000] } := by decide +kernel

end Sys2Proof.Machine
end

/-! # The records only grow

spec/60_exceptions.md R214, 00_scope.md R9 (Log 4, Log 9, Log 13): said of one operation, carried to bodies, and from there to
everything a step can do. -/

namespace Sys2Proof.Machine

/-- From s to t the fault record, the trace and what the host has read only grow, and ECHO_POLICY stays. -/
structure RecordsGrow (s t : State) : Prop where
  faults : s.faults <+: t.faults
  trace : s.trace <+: t.trace
  hostLog : s.hostLog <+: t.hostLog
  policy : t.policy = s.policy

namespace RecordsGrow

variable {s t u : State}

theorem of_eq (hf : t.faults = s.faults) (ht : t.trace = s.trace) (hh : t.hostLog = s.hostLog) (hp : t.policy = s.policy) :
    RecordsGrow s t :=
  ⟨hf ▸ List.prefix_rfl, ht ▸ List.prefix_rfl, hh ▸ List.prefix_rfl, hp⟩

theorem refl (s : State) : RecordsGrow s s := of_eq rfl rfl rfl rfl

theorem trans (h : RecordsGrow s t) (h' : RecordsGrow t u) : RecordsGrow s u :=
  ⟨h.faults.trans h'.faults, h.trace.trans h'.trace, h.hostLog.trans h'.hostLog, h'.policy.trans h.policy⟩

end RecordsGrow

/-! ### The operations over the state -/

theorem record_grows (e : Event) (s : State) : RecordsGrow s (record e s) :=
  ⟨List.prefix_rfl, List.prefix_append _ _, List.prefix_rfl, rfl⟩

theorem recordFault_grows (f : Fault) (s : State) : RecordsGrow s (recordFault f s) :=
  ⟨List.prefix_append _ _, List.prefix_rfl, List.prefix_rfl, rfl⟩

theorem logHost_grows (r : HostRecord) (s : State) : RecordsGrow s (logHost r s) :=
  ⟨List.prefix_rfl, List.prefix_rfl, List.prefix_append _ _, rfl⟩

theorem setBaud_grows (r : Rate) (s : State) : RecordsGrow s (setBaud r s) :=
  ⟨List.prefix_rfl, List.prefix_append _ _, List.prefix_rfl, rfl⟩

theorem setRxraw_grows (e : Byte) (s : State) : RecordsGrow s (setRxraw e s) := .of_eq rfl rfl rfl rfl

theorem accept_grows (w : Word) (s : State) : RecordsGrow s (accept w s) := .of_eq rfl rfl rfl rfl

theorem popInput_grows (s : State) : RecordsGrow s s.popInput := .of_eq rfl rfl rfl rfl

theorem recv_grows (s : State) : RecordsGrow s (recv s) :=
  (RecordsGrow.of_eq (by simp) (by simp) (by simp) (by simp)).trans (record_grows (.r (nextAnswer s)) (consumeAnswer s))

theorem checkPhase_grows (allowed : Bool) (s : State) : RecordsGrow s (checkPhase allowed s) := by
  cases allowed with
  | true => exact .refl s
  | false => exact recordFault_grows _ s

theorem useBit_grows (use : BitUse) (b : Bool) (s : State) : RecordsGrow s (useBit use b s) := by
  cases use <;> exact .of_eq rfl rfl rfl rfl

/-- A `Recv` with what follows it grows the records if what follows does. -/
theorem recv_then_grows {s t : State} (h : RecordsGrow (recv s) t) : RecordsGrow s t := (recv_grows s).trans h

/-! ### Bodies -/

/-- A transport primitive appends to the trace, a PHASE test to the fault record, and no operation does more to the records. -/
theorem act_grows (m : Micro) (s : State) : RecordsGrow s (stateOf (act m s)) := by
  cases m
  case waitTxSpace =>
    rcases doWaitTxSpace_cases s with ⟨-, h⟩ | ⟨-, h⟩ <;> rw [act, h]
    · exact record_grows .w s
    · exact .of_eq rfl rfl rfl rfl
  case setBaud r => exact setBaud_grows r s
  case send b => exact record_grows (.s b) s
  case recvPresence =>
    rcases doRecvPresence_cases s with ⟨-, h⟩ | ⟨-, h⟩ | ⟨e, -, -, h⟩ <;> rw [act, h] <;>
      exact recv_then_grows (.of_eq rfl rfl rfl rfl)
  case recvBit use =>
    rcases doRecvBit_cases use s with ⟨-, h⟩ | ⟨e, -, -, h⟩ | ⟨e, b, -, -, h⟩ <;> rw [act, h]
    · exact recv_then_grows (.of_eq rfl rfl rfl rfl)
    · exact recv_then_grows (.of_eq rfl rfl rfl rfl)
    · exact recv_then_grows ((setRxraw_grows e _).trans (useBit_grows use b _))
  case checkWritePhase | checkReadPhase => exact checkPhase_grows _ s
  case checkCrcZero | checkCrcSp | pollTest | pollLoop =>
    rw [act]
    split <;> exact .of_eq rfl rfl rfl rfl
  all_goals exact .of_eq rfl rfl rfl rfl

theorem run_grows (body : List Micro) (s : State) : RecordsGrow s (stateOf (run body s)) :=
  run_keeps (RecordsGrow s) body (fun m _ t ht => ht.trans (act_grows m t)) s (.refl s)

theorem conclude_grows (p : Progress) : RecordsGrow (stateOf p) (conclude p) := by
  cases p <;> exact .of_eq rfl rfl rfl rfl

theorem conclude_run_grows (body : List Micro) (s : State) : RecordsGrow s (conclude (run body s)) :=
  (run_grows body s).trans (conclude_grows _)

/-! ### What a step does -/

theorem resume_grows (s : State) : RecordsGrow s (resume s) := by
  unfold resume
  cases decodeWord s.cur with
  | some i => exact conclude_run_grows _ s
  | none => exact .of_eq rfl rfl rfl rfl

theorem issue_grows (w : Word) (body : List Micro) (s : State) : RecordsGrow s (issue w body s) := by
  rcases issue_cases w body s with ⟨-, h⟩ | ⟨-, h⟩ <;> rw [h]
  · exact .of_eq rfl rfl rfl rfl
  · exact (accept_grows w s).trans (conclude_run_grows body _)

theorem execIllegal_grows (w : Word) (s : State) : RecordsGrow s (execIllegal w s) := by
  unfold execIllegal
  split <;> exact .of_eq rfl rfl rfl rfl

/-- The host's decodes log a value or record a fault; block reset leaves every record (Log 9, Log 10, Log 13). -/
theorem land_grows (i : Input) (s : State) : RecordsGrow s (land i s) := by
  cases i
  case readReg a => exact logHost_grows _ s
  case decodeTempInt | decodeSerial =>
    simp only [land, hostTempInt, hostSerial]
    split
    · exact logHost_grows _ s
    · exact recordFault_grows _ s
  case decodeTemperature =>
    rw [land, hostTemperature]
    split
    · split
      · exact logHost_grows _ s
      · exact recordFault_grows _ s
    · exact recordFault_grows _ s
  all_goals exact .of_eq rfl rfl rfl rfl

theorem step_grows (s t : State) (h : step s = .next t) : RecordsGrow s t := by
  rcases step_cases s with ⟨-, -, hs⟩ | ⟨-, -, hs⟩ | ⟨w, -, ⟨i, -, hs⟩ | ⟨-, hs⟩⟩ | ⟨i, -, -, -, hs⟩
  · obtain rfl : resume s = t := by simpa [hs] using h
    exact resume_grows s
  · obtain rfl : s = t := by simpa [hs] using h
    exact .refl s
  · obtain rfl : issue (encode i) (bodyOf i) s.popInput = t := by simpa [hs, exec_eq_issue] using h
    exact (popInput_grows s).trans (issue_grows _ _ _)
  · obtain rfl : execIllegal w s.popInput = t := by simpa [hs] using h
    exact (popInput_grows s).trans (execIllegal_grows w _)
  · obtain rfl : land i s.popInput = t := by simpa [hs] using h
    exact (popInput_grows s).trans (land_grows i _)

/-- Settles O22, from `step_grows`: each thing a step can do only appends to the records. -/
theorem recordsOnlyGrow : Obligations.RecordsOnlyGrow := by
  intro s t h
  obtain ⟨hf, ht, hh, hp⟩ := step_grows s t h
  exact ⟨hf, ht, hh, hp⟩

end Sys2Proof.Machine

/-! # Steps and the block's own steps

A step against the block's own steps (spec/00_scope.md R11), the word that a step takes from the port, and the
holding of a command without transmit space. -/

namespace Sys2Proof.Machine

/-! ### The next command word is taken -/

/-- Settles O7: a command word is an input that is due, so `step` takes it, whether the block is idle or busy. -/
theorem stepRunsTheDecodedCommand : Obligations.StepRunsTheDecodedCommand := by
  intro s w i rest hin hw
  have hdue : inputDue s = true := by simp [inputDue, hin]
  have hpop : s.popInput = { s with inputs := rest } := by simp [State.popInput, hin]
  simp [step, hdue, hin, hw, hpop]

/-! ### Holding -/

theorem step_of_running (s : State) (hb : s.busy = true) (hd : inputDue s = false) : step s = .next (resume s) := by
  simp [step, hb, hd]

theorem resume_of_decode {s : State} {i : Instr} (hw : decodeWord s.cur = some i) :
    resume s = conclude (run (afterEvents s.seqpos (bodyOf i)) s) := by
  simp [resume, hw]

/-- Holding ends a pending pause; an undisturbed timeline has none. -/
theorem endPause_of_undisturbed (s : State) (h : undisturbed s = true) : endPause s.inputs = s.inputs := by
  unfold undisturbed at h; split at h <;> simp_all [endPause]

/-- An undisturbed `WaitTxSpace` without space leaves the state as it is (Log 8). -/
theorem run_waitTxSpace_holds (s : State) (ms : List Micro) (hu : undisturbed s = true) (ht : s.txSpace = false) :
    run (.waitTxSpace :: ms) s = .paused s := by
  rw [run_cons, perform_of_not_due _ s (not_due_of_undisturbed s hu), act, doWaitTxSpace, endPause_of_undisturbed s hu,
    if_neg (by simp [ht]), thenRun_paused]

/-- Settles O12: the step carries the command on, and what is left of its body begins by holding. -/
theorem commandHoldsWithoutSpace : Obligations.CommandHoldsWithoutSpace := by
  intro s i ms hb hu ht hw hms
  rw [step_of_running s hb (not_due_of_undisturbed s hu), resume_of_decode hw, hms, run_waitTxSpace_holds s ms hu ht]
  rfl

/-! ### SEQPOS and what is left of a body -/

section
variable {m : Micro} {ms body : List Micro} {s t : State} {i : Instr} {n : Nat}

theorem afterEvents_zero_event (hm : isEvent m = true) : afterEvents 0 (m :: ms) = m :: ms := by
  simp [afterEvents, hm]

theorem afterEvents_succ_event (hm : isEvent m = true) : afterEvents (n + 1) (m :: ms) = afterEvents n ms := by
  simp [afterEvents, hm]

theorem afterEvents_silent (hm : isEvent m = false) : afterEvents n (m :: ms) = afterEvents n ms := by
  cases n <;> simp [afterEvents, hm]

/-- What is left after one more event is what is left of the rest once its operations before the next event are done. -/
theorem afterEvents_succ (h : afterEvents n body = m :: ms) : afterEvents (n + 1) body = afterEvents 0 ms := by
  induction body generalizing n with
  | nil => cases n <;> simp [afterEvents] at h
  | cons a as ih =>
    cases ha : isEvent a with
    | false => rw [afterEvents_silent ha] at h ⊢; exact ih h
    | true =>
      rw [afterEvents_succ_event ha]
      cases n with
      | zero =>
        rw [afterEvents_zero_event ha] at h
        obtain ⟨-, rfl⟩ := List.cons.inj h
        rfl
      | succ n => rw [afterEvents_succ_event ha] at h; exact ih h

/-- SEQPOS counts the transport events (spec/10_state.md R29): an operation that goes on advances it exactly if it is one. -/
theorem act_going_seqpos (h : act m s = .going t) : t.seqpos = s.seqpos + if isEvent m then 1 else 0 := by
  cases m
  case waitTxSpace =>
    rcases doWaitTxSpace_cases s with ⟨-, h'⟩ | ⟨-, h'⟩ <;> rw [act, h'] at h
    · obtain rfl := Progress.going.inj h; rfl
    · cases h
  case recvPresence =>
    rcases doRecvPresence_cases s with ⟨-, h'⟩ | ⟨-, h'⟩ | ⟨e, -, -, h'⟩ <;> rw [act, h'] at h
    · cases h
    · cases h
    · obtain rfl := Progress.going.inj h; simp [recv, isEvent]
  case recvBit use =>
    rcases doRecvBit_cases use s with ⟨-, h'⟩ | ⟨e, -, -, h'⟩ | ⟨e, b, -, -, h'⟩ <;> rw [act, h'] at h
    · cases h
    · cases h
    · obtain rfl := Progress.going.inj h
      cases use <;> simp [useBit, recv, isEvent]
  case checkWritePhase | checkReadPhase =>
    obtain rfl := Progress.going.inj h
    unfold checkPhase
    split <;> rfl
  case checkCrcZero | checkCrcSp | pollTest | pollLoop =>
    rw [act] at h
    split at h <;> cases h
    rfl
  all_goals obtain rfl := Progress.going.inj h; rfl

theorem act_going_cur (h : act m s = .going t) : t.cur = s.cur := by
  have hcur := (act_untouched m s).2.1
  rwa [h] at hcur

/-! ### Runs as block steps -/

/-- An input that is due lands before the event that is next, so the run stops there (Log 6). -/
theorem run_of_due (hm : isEvent m = true) (hd : inputDue s = true) : run (m :: ms) s = .paused s := by
  simp [run_cons, perform, hm, hd]

/-- What a run of ms, an end of command i's body, comes to in the block's own steps (Log 6): from any state of i whose SEQPOS points
at the first event of ms, the run is the operations before that event and then some number of block steps. -/
def RunIsBlockSteps (i : Instr) (ms : List Micro) : Prop :=
  ∀ s : State, decodeWord s.cur = some i → afterEvents s.seqpos (bodyOf i) = afterEvents 0 ms →
    ∃ n, conclude (run ms s) = blockSteps n (conclude (runSilent ms s))

theorem blockStep_of_decode (hw : decodeWord s.cur = some i) :
    blockStep s = conclude (runOne (afterEvents s.seqpos (bodyOf i)) s) := by
  simp [blockStep, hw]

/-- Where no input is due, the event that is next is one block step, and the run goes on from there. -/
theorem run_event_isBlockSteps (hms : RunIsBlockSteps i ms) (hm : isEvent m = true) (hd : inputDue s = false)
    (hw : decodeWord s.cur = some i) (hp : afterEvents s.seqpos (bodyOf i) = m :: ms) :
    ∃ n, conclude (run (m :: ms) s) = blockSteps n (blockStep s) := by
  rw [blockStep_of_decode hw, hp, run_cons, perform_of_not_due m s hd, runOne]
  cases ha : act m s with
  | going t =>
    refine hms t (by rwa [act_going_cur ha]) ?_
    rw [act_going_seqpos ha, if_pos hm, afterEvents_succ hp]
  | ended c t => exact ⟨0, rfl⟩
  | paused t => exact ⟨0, rfl⟩

theorem runIsBlockSteps (i : Instr) (ms : List Micro) : RunIsBlockSteps i ms := by
  induction ms with
  | nil => exact fun s _ _ => ⟨0, rfl⟩
  | cons m ms ih =>
    intro s hw hp
    cases hm : isEvent m with
    | false =>
      rw [run_cons, perform_silent m s hm, runSilent, if_neg (by simp [hm])]
      cases ha : act m s with
      | going t =>
        refine ih t (by rwa [act_going_cur ha]) ?_
        simpa [act_going_seqpos ha, hm, afterEvents_silent hm] using hp
      | ended c t => exact ⟨0, rfl⟩
      | paused t => exact ⟨0, rfl⟩
    | true =>
      rw [runSilent, if_pos hm]
      rw [afterEvents_zero_event hm] at hp
      cases hd : inputDue s with
      | true => exact ⟨0, by rw [run_of_due hm hd]; rfl⟩
      | false =>
        obtain ⟨n, hn⟩ := run_event_isBlockSteps ih hm hd hw hp
        exact ⟨n + 1, hn⟩

end

/-- Settles O13: a command with an event next does it, and its rest is block steps by `runIsBlockSteps`; one that an input stops
does none; a command with nothing left, or an illegal CUR, finishes in one. -/
theorem resumingIsBlockSteps : Obligations.ResumingIsBlockSteps := by
  intro s _
  cases hw : decodeWord s.cur with
  | none => exact ⟨1, by simp [resume, blockSteps, blockStep, hw], fun _ => le_rfl⟩
  | some i =>
    rw [resume_of_decode hw]
    cases hp : afterEvents s.seqpos (bodyOf i) with
    | nil => exact ⟨1, by simp [blockSteps, blockStep_of_decode hw, hp, runOne], fun _ => le_rfl⟩
    | cons m ms =>
      have hm := afterEvents_head _ _ _ _ hp
      cases hd : inputDue s with
      | true => exact ⟨0, by rw [run_of_due hm hd]; rfl, nofun⟩
      | false =>
        obtain ⟨n, hn⟩ := run_event_isBlockSteps (runIsBlockSteps i ms) hm hd hw hp
        exact ⟨n + 1, hn, fun _ => Nat.le_add_left 1 n⟩

/-! ### The word of a command decodes to it -/

theorem opField_cmd16 (op a : BitVec 4) (d : Byte) : opField (cmd16 op a d) = op :=
  (BitVec.extractLsb'_append_eq_of_le (by decide)).trans BitVec.extractLsb'_append_eq_left

theorem aField_cmd16 (op a : BitVec 4) (d : Byte) : aField (cmd16 op a d) = a :=
  (BitVec.extractLsb'_append_eq_of_le (by decide)).trans BitVec.extractLsb'_append_eq_right

theorem dField_cmd16 (op a : BitVec 4) (d : Byte) : dField (cmd16 op a d) = d :=
  BitVec.extractLsb'_append_eq_right

/-- The decoder takes apart the fields that the encoder puts together (spec/30_encoding.md R70, R72). -/
theorem decodeWord_encode (i : Instr) : decodeWord (encode i) = some i := by
  cases i
  case owWriteBit v => cases v <;> rfl
  all_goals simp [decodeWord, encode, decode, opField_cmd16, aField_cmd16, dField_cmd16, ifReservedZero]

/-- Settles O14: the acceptance puts SEQPOS before the whole body, so `runIsBlockSteps` speaks of it. -/
theorem commandIsBlockSteps : Obligations.CommandIsBlockSteps := by
  intro s i hb
  obtain ⟨n, hn⟩ := runIsBlockSteps i (bodyOf i) (accept (encode i) s) (decodeWord_encode i) rfl
  exact ⟨n, by rw [exec_eq_issue, issue, hb, begin, ← hn]; rfl⟩

end Sys2Proof.Machine

/-! # The block's invariant

spec/10_state.md R21, R22, R29, R30: STATUS[5:4] and RESULT are what `finish` writes, and a command that a step leaves running
stands before one of its events. -/

namespace Sys2Proof.Machine

/-! ### A command left running stands inside its trace -/

theorem lt_eventCount_of_afterEvents {n : Nat} {body ms : List Micro} {m : Micro} (h : afterEvents n body = m :: ms) :
    n < eventCount body := by
  induction body generalizing n with
  | nil => cases n <;> simp [afterEvents] at h
  | cons a as ih =>
    unfold eventCount at ih ⊢
    cases ha : isEvent a with
    | false =>
      rw [List.countP_cons_of_neg (by simp [ha])]
      exact ih (by rwa [afterEvents_silent ha] at h)
    | true =>
      rw [List.countP_cons_of_pos ha]
      cases n with
      | zero => omega
      | succ n =>
        have hn := ih (by rwa [afterEvents_succ_event ha] at h)
        omega

theorem pollLoop_back_lt (i : Instr) (back : Nat) (h : Micro.pollLoop back ∈ bodyOf i) : back < eventCount (bodyOf i) := by
  have h' := bodies_all (fun i m => match m with | .pollLoop b => decide (b < eventCount (bodyOf i)) | _ => true)
    (by decide +kernel) (fun _ => rfl) (fun _ => rfl) (fun _ => rfl) i _ h
  simpa using h'

/-- An operation pauses its command where it holds, before its own event, or at a busy poll (Log 7, Log 8). -/
theorem act_paused_seqpos {m : Micro} {s t : State} (h : act m s = .paused t) :
    (isEvent m = true ∧ t.seqpos = s.seqpos) ∨ m = .pollLoop t.seqpos := by
  cases m
  case waitTxSpace =>
    rcases doWaitTxSpace_cases s with ⟨-, h'⟩ | ⟨-, h'⟩ <;> rw [act, h'] at h
    · cases h
    · obtain rfl := Progress.paused.inj h; exact .inl ⟨rfl, rfl⟩
  case recvPresence =>
    rcases doRecvPresence_cases s with ⟨-, h'⟩ | ⟨-, h'⟩ | ⟨e, -, -, h'⟩ <;> rw [act, h'] at h <;> cases h
  case recvBit use =>
    rcases doRecvBit_cases use s with ⟨-, h'⟩ | ⟨e, -, -, h'⟩ | ⟨e, b, -, -, h'⟩ <;> rw [act, h'] at h <;> cases h
  case pollLoop back =>
    rw [act] at h
    split at h
    · obtain rfl := Progress.paused.inj h; exact .inr rfl
    · cases h
  case checkCrcZero | checkCrcSp | pollTest =>
    rw [act] at h
    split at h <;> cases h
  all_goals cases h

/-- A run of an end of command i's body, from a state of i whose SEQPOS points at its first event, pauses with SEQPOS inside the
trace (spec/10_state.md R29). -/
theorem run_paused_seqpos_lt {i : Instr} {ms : List Micro} (hms : ∀ m ∈ ms, m ∈ bodyOf i) {s t : State}
    (hp : afterEvents s.seqpos (bodyOf i) = afterEvents 0 ms) (h : run ms s = .paused t) : t.seqpos < eventCount (bodyOf i) := by
  induction ms generalizing s with
  | nil => cases h
  | cons m ms ih =>
    have inside : isEvent m = true → s.seqpos < eventCount (bodyOf i) := fun hm =>
      lt_eventCount_of_afterEvents (hp.trans (afterEvents_zero_event hm))
    rw [run_cons] at h
    rcases perform_cases m s with ⟨ha, hm, -⟩ | ha <;> rw [ha] at h
    · obtain rfl := Progress.paused.inj h; exact inside hm
    · cases hu : act m s with
      | going u =>
        rw [hu] at h
        refine ih (fun m' hm' => hms m' (List.mem_cons_of_mem _ hm')) ?_ h
        rw [act_going_seqpos hu]
        cases hm : isEvent m with
        | true => exact afterEvents_succ (hp.trans (afterEvents_zero_event hm))
        | false => exact hp.trans (afterEvents_silent hm)
      | ended c u => rw [hu] at h; cases h
      | paused u =>
        rw [hu] at h
        obtain rfl := Progress.paused.inj h
        rcases act_paused_seqpos hu with ⟨hm, hq⟩ | hm
        · rw [hq]; exact inside hm
        · exact pollLoop_back_lt i _ (hms _ (by simp [← hm]))

/-! ### What keeps the invariant -/

theorem positionInTrace_of_decode {s : State} {i : Instr} (hw : decodeWord s.cur = some i)
    (h : s.seqpos < eventCount (bodyOf i)) : positionInTrace s = true := by
  simp [positionInTrace, hw, h]

/-- The invariant speaks of STATUS, CUR and SEQPOS only. -/
theorem Inv.congr {s t : State} (hs : t.status = s.status) (hc : t.cur = s.cur) (hp : t.seqpos = s.seqpos) (h : Inv s) :
    Inv t := by
  simpa only [Inv, State.busy, positionInTrace, hs, hc, hp] using h

theorem inv_finish (c : Result) (s : State) (h : statusReserved s.status = 0) : Inv (finish c s) :=
  ⟨by simpa using h, by simpa using resultCode_le c, fun _ => rfl, by simp⟩

theorem inv_overrun (s : State) (h : Inv s) : Inv (overrun s) := by
  obtain ⟨hv, hr, hi, hb⟩ := h
  exact ⟨by simpa using hv, by simpa using hr, by simpa using hi, fun hs => hb (by simpa using hs)⟩

/-- A command of a block that is busy with it, run from where SEQPOS points, finishes or stays inside its trace. -/
theorem inv_conclude_run {i : Instr} {ms : List Micro} {s : State} (hms : ∀ m ∈ ms, m ∈ bodyOf i)
    (hp : afterEvents s.seqpos (bodyOf i) = afterEvents 0 ms) (hw : decodeWord s.cur = some i) (hb : s.busy = true)
    (hv : statusReserved s.status = 0) (hr : (statusResult s.status).toNat ≤ 6) : Inv (conclude (run ms s)) := by
  obtain ⟨hst, hcur, -⟩ := run_untouched ms s
  rcases conclude_cases (run ms s) with ⟨c, hc⟩ | ⟨t, ht, hc⟩ <;> rw [hc]
  · exact inv_finish c _ (by rw [hst]; exact hv)
  · rw [ht] at hst hcur
    have hpos := positionInTrace_of_decode (hcur ▸ hw) (run_paused_seqpos_lt hms hp ht)
    have hbusy : t.busy = true := by rw [State.busy, show t.status = s.status from hst]; exact hb
    exact ⟨by rw [show t.status = s.status from hst]; exact hv, by rw [show t.status = s.status from hst]; exact hr,
      by simp [hbusy], fun _ => hpos⟩

/-- The rest of a body begins with an event, if with anything. -/
theorem afterEvents_zero_afterEvents (n : Nat) (body : List Micro) : afterEvents 0 (afterEvents n body) = afterEvents n body := by
  cases h : afterEvents n body with
  | nil => rfl
  | cons m ms => exact afterEvents_zero_event (afterEvents_head n body m ms h)

theorem inv_resume (s : State) (hb : s.busy = true) (h : Inv s) : Inv (resume s) := by
  obtain ⟨hv, hr, -, -⟩ := h
  cases hw : decodeWord s.cur with
  | some i =>
    rw [resume_of_decode hw]
    exact inv_conclude_run (fun m => afterEvents_mem _ _ m) (afterEvents_zero_afterEvents _ _).symm hw hb hv hr
  | none =>
    rw [resume, hw]
    exact inv_finish .illegalCommand s hv

theorem inv_exec (i : Instr) (s : State) (h : Inv s) : Inv (issue (encode i) (bodyOf i) s) := by
  rcases issue_cases (encode i) (bodyOf i) s with ⟨-, hs⟩ | ⟨-, hs⟩ <;> rw [hs]
  · exact inv_overrun s h
  · obtain ⟨hv, hr, -, -⟩ := h
    exact inv_conclude_run (fun _ => id) rfl (decodeWord_encode i) (accept_busy _ s) (by simpa using hv) (by simpa using hr)

theorem inv_execIllegal (w : Word) (s : State) (h : Inv s) : Inv (execIllegal w s) := by
  unfold execIllegal
  split
  · exact inv_overrun s h
  · exact inv_finish .illegalCommand (accept w s) (by simpa using h.1)

theorem inv_reset : Inv State.reset := by decide

/-- Of the inputs that are no command word, only block reset touches what the invariant speaks of. -/
theorem inv_land (x : Input) (s : State) (h : Inv s) : Inv (land x s) := by
  cases x
  case blockReset => exact Inv.congr (s := State.reset) rfl rfl rfl inv_reset
  case decodeTempInt | decodeTemperature | decodeSerial =>
    simp only [land, hostTempInt, hostTemperature, hostSerial]
    (repeat' split) <;> exact h
  all_goals exact h

/-- Settles O21: the running command goes on inside its trace or finishes, an acceptance begins at 0, and nothing else but block
reset changes STATUS's fields, CUR or SEQPOS. -/
theorem everyStepKeepsTheInvariant : Obligations.EveryStepKeepsTheInvariant := by
  intro s t h ht
  rcases step_cases s with ⟨hb, -, hs⟩ | ⟨-, -, hs⟩ | ⟨w, -, ⟨i, -, hs⟩ | ⟨-, hs⟩⟩ | ⟨x, -, -, -, hs⟩
  · obtain rfl : resume s = t := by simpa [hs] using ht
    exact inv_resume s hb h
  · obtain rfl : s = t := by simpa [hs] using ht
    exact h
  · obtain rfl : issue (encode i) (bodyOf i) s.popInput = t := by simpa [hs, exec_eq_issue] using ht
    exact inv_exec i _ h
  · obtain rfl : execIllegal w s.popInput = t := by simpa [hs] using ht
    exact inv_execIllegal w _ h
  · obtain rfl : land x s.popInput = t := by simpa [hs] using ht
    exact inv_land x _ h

end Sys2Proof.Machine

/-! # PHASE, the fault record and BAUD

spec/10_state.md R32, 60_exceptions.md R214, 92_eei_decisions.md D22: no operation reads them but to write one of them. Said of
one operation, carried to runs, and from there to everything a step can do. -/

namespace Sys2Proof.Machine

/-- The state with other ghosts and another rate. -/
def withGhosts (p : Phase) (f : List Fault) (b : Baud) (s : State) : State := { s with phase := p, faults := f, baud := b }

/-- Two states differ only in PHASE, the fault record and BAUD. -/
def Alike (s s' : State) : Prop := eraseGhosts s = eraseGhosts s'

theorem alike_eraseGhosts (s : State) : Alike s (eraseGhosts s) := rfl

theorem alike_withGhosts (p : Phase) (f : List Fault) (b : Baud) (s : State) : Alike s (withGhosts p f b s) := rfl

theorem Alike.eq_withGhosts {s s' : State} (h : Alike s s') : ∃ p f b, s' = withGhosts p f b s := by
  refine ⟨s'.phase, s'.faults, s'.baud, ?_⟩
  cases s; cases s'
  simpa [Alike, eraseGhosts, withGhosts, eq_comm] using h

/-- Two progresses of one kind, with one code, that stand at states alike. -/
inductive AlikeProgress : Progress → Progress → Prop
  | going {s s' : State} : Alike s s' → AlikeProgress (.going s) (.going s')
  | ended {s s' : State} (c : Result) : Alike s s' → AlikeProgress (.ended c s) (.ended c s')
  | paused {s s' : State} : Alike s s' → AlikeProgress (.paused s) (.paused s')

/-! ### What reads none of them -/

section
variable (p : Phase) (f : List Fault) (b : Baud) (s : State)

@[simp] theorem withGhosts_rxdata : (withGhosts p f b s).rxdata = s.rxdata := rfl
@[simp] theorem withGhosts_crc : (withGhosts p f b s).crc = s.crc := rfl
@[simp] theorem withGhosts_sp : (withGhosts p f b s).sp = s.sp := rfl
@[simp] theorem withGhosts_seqpos : (withGhosts p f b s).seqpos = s.seqpos := rfl
@[simp] theorem withGhosts_cur : (withGhosts p f b s).cur = s.cur := rfl
@[simp] theorem withGhosts_txSpace : (withGhosts p f b s).txSpace = s.txSpace := rfl
@[simp] theorem withGhosts_policy : (withGhosts p f b s).policy = s.policy := rfl
@[simp] theorem withGhosts_inputs : (withGhosts p f b s).inputs = s.inputs := rfl
@[simp] theorem withGhosts_snValid : (withGhosts p f b s).snValid = s.snValid := rfl
@[simp] theorem withGhosts_spValid : (withGhosts p f b s).spValid = s.spValid := rfl
@[simp] theorem withGhosts_busy : (withGhosts p f b s).busy = s.busy := rfl
@[simp] theorem withGhosts_inputDue : inputDue (withGhosts p f b s) = inputDue s := rfl
@[simp] theorem withGhosts_nextAnswer : nextAnswer (withGhosts p f b s) = nextAnswer s := rfl

/-! ### Operations -/

theorem recv_withGhosts : recv (withGhosts p f b s) = withGhosts p f b (recv s) := by
  simp only [recv, consumeAnswer, nextAnswer, withGhosts]
  cases s.rx <;> rfl

theorem checkPhase_alike (a a' : Bool) {s s' : State} (h : Alike s s') : Alike (checkPhase a s) (checkPhase a' s') := by
  cases a <;> cases a' <;> exact h

/-- No operation of a body reads the ghosts or the rate but to write one of them. -/
theorem act_withGhosts (m : Micro) : AlikeProgress (act m s) (act m (withGhosts p f b s)) := by
  cases m
  case waitTxSpace =>
    rw [act, act, doWaitTxSpace, doWaitTxSpace, withGhosts_txSpace]
    split
    · exact .going rfl
    · exact .paused rfl
  case recvPresence =>
    rw [act, act, doRecvPresence, doRecvPresence, withGhosts_nextAnswer, recv_withGhosts]
    cases nextAnswer s with
    | err => exact .ended _ rfl
    | byte e =>
      dsimp only
      split
      · exact .ended _ rfl
      · exact .going rfl
  case recvBit use =>
    rw [act, act, doRecvBit, doRecvBit, withGhosts_nextAnswer, withGhosts_policy, recv_withGhosts]
    cases nextAnswer s with
    | err => exact .ended _ rfl
    | byte e =>
      dsimp only
      cases decodeEcho s.policy e with
      | line => exact .ended _ rfl
      | bit v => exact .going (by cases use <;> rfl)
  case checkWritePhase | checkReadPhase => exact .going (checkPhase_alike _ _ rfl)
  case checkCrcZero =>
    rw [act, act, withGhosts_crc]
    split
    · exact .going rfl
    · exact .ended _ rfl
  case checkCrcSp =>
    rw [act, act, withGhosts_crc, withGhosts_sp]
    split
    · exact .going rfl
    · exact .ended _ rfl
  case pollTest =>
    rw [act, act, withGhosts_rxdata]
    split
    · exact .ended _ rfl
    · exact .going rfl
  case pollLoop =>
    rw [act, act, withGhosts_rxdata]
    split
    · exact .paused rfl
    · exact .going rfl
  all_goals exact .going rfl

end

section
variable {s s' : State}

theorem perform_alike (m : Micro) (h : Alike s s') : AlikeProgress (perform m s) (perform m s') := by
  obtain ⟨p, f, b, rfl⟩ := h.eq_withGhosts
  rw [perform, perform, withGhosts_inputDue]
  split
  · exact .paused rfl
  · exact act_withGhosts p f b s m

theorem run_alike (ms : List Micro) (h : Alike s s') : AlikeProgress (run ms s) (run ms s') := by
  induction ms generalizing s s' with
  | nil => exact .going h
  | cons m ms ih =>
    rw [run_cons, run_cons]
    have hm := perform_alike m h
    generalize perform m s = q at hm ⊢
    generalize perform m s' = q' at hm ⊢
    cases hm with
    | going h => exact ih h
    | ended c h => exact .ended c h
    | paused h => exact .paused h

theorem finish_alike (c : Result) (h : Alike s s') : Alike (finish c s) (finish c s') := by
  obtain ⟨p, f, b, rfl⟩ := h.eq_withGhosts
  rfl

theorem AlikeProgress.conclude {q q' : Progress} (h : AlikeProgress q q') : Alike (conclude q) (conclude q') := by
  cases h with
  | going h => exact finish_alike .ok h
  | ended c h => exact finish_alike c h
  | paused h => exact h

/-! ### What a step does -/

theorem issue_alike (w : Word) (body : List Micro) (h : Alike s s') : Alike (issue w body s) (issue w body s') := by
  obtain ⟨p, f, b, rfl⟩ := h.eq_withGhosts
  rw [issue, issue, withGhosts_busy]
  split
  · rfl
  · exact (run_alike body (alike_withGhosts p f b (accept w s))).conclude

theorem execIllegal_alike (w : Word) (h : Alike s s') : Alike (execIllegal w s) (execIllegal w s') := by
  obtain ⟨p, f, b, rfl⟩ := h.eq_withGhosts
  rw [execIllegal, execIllegal, withGhosts_busy]
  split <;> rfl

theorem resume_alike (h : Alike s s') : Alike (resume s) (resume s') := by
  obtain ⟨p, f, b, rfl⟩ := h.eq_withGhosts
  unfold resume
  rw [withGhosts_cur, withGhosts_seqpos]
  cases decodeWord s.cur with
  | some i => exact (run_alike _ h).conclude
  | none => exact finish_alike .illegalCommand h

/-- The host's decodes read SP, SN and the ghosts of Log 12; block reset leaves the fault record and writes the other two. -/
theorem land_alike (x : Input) (h : Alike s s') : Alike (land x s) (land x s') := by
  obtain ⟨p, f, b, rfl⟩ := h.eq_withGhosts
  cases x
  case decodeTempInt =>
    rw [land, land, hostTempInt, hostTempInt, withGhosts_spValid]
    split <;> rfl
  case decodeTemperature =>
    rw [land, land, hostTemperature, hostTemperature, withGhosts_spValid, withGhosts_sp]
    split
    · cases temperature s.sp <;> rfl
    · rfl
  case decodeSerial =>
    rw [land, land, hostSerial, hostSerial, withGhosts_snValid]
    split <;> rfl
  all_goals rfl

/-- A command's meaning takes states alike to states alike. -/
theorem exec_alike (i : Instr) (h : Alike s s') : ∃ t t', exec i s = .next t ∧ exec i s' = .next t' ∧ Alike t t' :=
  ⟨_, _, exec_eq_issue i s, exec_eq_issue i s', issue_alike _ _ h⟩

theorem popInput_alike (h : Alike s s') : Alike s.popInput s'.popInput := by
  obtain ⟨p, f, b, rfl⟩ := h.eq_withGhosts
  rfl

theorem step_alike (h : Alike s s') : ∃ t t', step s = .next t ∧ step s' = .next t' ∧ Alike t t' := by
  have hpop := popInput_alike h
  obtain ⟨p, f, b, rfl⟩ := h.eq_withGhosts
  unfold step
  rw [withGhosts_busy, withGhosts_inputDue, withGhosts_inputs]
  split
  · exact ⟨_, _, rfl, rfl, resume_alike h⟩
  · split
    · exact ⟨_, _, rfl, rfl, h⟩
    · split
      · exact exec_alike _ hpop
      · exact ⟨_, _, rfl, rfl, execIllegal_alike _ hpop⟩
    · exact ⟨_, _, rfl, rfl, land_alike _ hpop⟩

end

/-- Settles O24: a state and what is left of it without its ghosts are alike, and so are their steps. -/
theorem ghostsAndRateChangeNothingElse : Obligations.GhostsAndRateChangeNothingElse :=
  fun s => step_alike (alike_eraseGhosts s)

end Sys2Proof.Machine

/-! # The transport port, step by step

spec/20_memory.md R61, R62, 70_reset_and_hazards.md R241, R244: from `step_acts`, with the acceptance seen as the step that takes
the command's word from the port. -/

namespace Sys2Proof.Machine

/-- A step without block reset makes events in order, from where the block stands at the port to where it stands then. -/
theorem step_port {s t : State} (hr : s.inputs.head? ≠ some .blockReset) (h : step s = .next t) :
    ∃ es, t.trace = s.trace ++ es ∧ portAfterAll (portAt s) es = some (portAt t) := by
  rcases step_acts decodeWord_encode s t hr h with ⟨i, ms, u, a⟩ | q
  · exact a.port
  · exact ⟨[], by simp [q.trace], by simp [portAfterAll, q.portAt_eq]⟩

/-- The host writes a command's word next (Log 5). -/
def offered (i : Instr) (s : State) : State := { s with inputs := .command (encode i) :: s.inputs }

/-- The meaning of a command is the step that takes its word. -/
theorem step_offered (i : Instr) (s : State) : step (offered i s) = exec i s :=
  stepRunsTheDecodedCommand (offered i s) (encode i) i s.inputs rfl (decodeWord_encode i)

theorem offered_no_blockReset (i : Instr) (s : State) : (offered i s).inputs.head? ≠ some .blockReset := by simp [offered]

theorem portInOrder_step {s t : State} (hs : PortInOrder s) (hr : s.inputs.head? ≠ some .blockReset) (h : step s = .next t) :
    PortInOrder t := by
  obtain ⟨es, ht, hp⟩ := step_port hr h
  rw [PortInOrder, ht, portAfterAll_append, show portAfterAll .free s.trace = some (portAt s) from hs, Option.bind_some, hp]

theorem resetBlock_busy (s : State) : (resetBlock s).busy = false := show statusBusy 0x00 = false by decide

/-- A block reset that is next lands, also in the middle of a command (spec/70_reset_and_hazards.md R241). -/
theorem step_blockReset {s : State} (h : s.inputs.head? = some .blockReset) : step s = .next (resetBlock s.popInput) := by
  obtain ⟨rest, hin⟩ := List.head?_eq_some_iff.mp h
  have hdue : inputDue s = true := by simp [inputDue, hin]
  simp [step, hdue, hin, land]

/-- Settles O45: every step by `step_port`, the acceptance as the step that takes the word, and block reset makes no event. -/
theorem transportPortIsUsedInOrder : Obligations.TransportPortIsUsedInOrder := by
  refine ⟨fun s i hb => ?_, fun s t => step_port, fun s t => portInOrder_step, fun s t hr h => ?_⟩
  · have hexec := exec_eq_issue i s
    obtain ⟨es, ht, hp⟩ := step_port (offered_no_blockReset i s) ((step_offered i s).trans hexec)
    rw [portAt_idle (offered i s) hb] at hp
    exact ⟨_, es, hexec, ht, hp, portAt_idle _⟩
  · obtain rfl : resetBlock s.popInput = t := by simpa [step_blockReset hr] using h
    exact ⟨rfl, portAt_idle _ (resetBlock_busy _)⟩

end Sys2Proof.Machine

/-! # Who writes what

spec/10_state.md R36 and its frames: what the columns' laws do not say: PHASE on the way through a body, the fault record, and
the registers and ghosts that no column stands for. -/

namespace Sys2Proof.Machine

/-! ### PHASE and the fault record along a body -/

/-- PHASE after an operation that goes on, from p (spec/42_transaction.md R140, R142, R143). -/
def phaseAfter (p : Phase) : Micro → Phase
  | .setPhase q => q
  | .recvPresence => .addressed
  | _ => p

/-- The PHASE tests pass in p (spec/42_transaction.md R147). -/
def phaseFits (p : Phase) : Micro → Bool
  | .checkWritePhase => p == .addressed || p == .exchanging
  | .checkReadPhase => p == .exchanging
  | _ => true

/-- Every PHASE test of a body that begins in p passes. -/
def phasesFit : Phase → List Micro → Bool
  | _, [] => true
  | p, m :: ms => phaseFits p m && phasesFit (phaseAfter p m) ms

theorem checkPhase_phase (a : Bool) (s : State) : (checkPhase a s).phase = s.phase := by cases a <;> rfl

/-- An operation that does not end its command moves PHASE as `phaseAfter` says; only one that goes on moves it at all. -/
theorem act_phase (m : Micro) (s : State) :
    (∃ t, act m s = .going t ∧ t.phase = phaseAfter s.phase m) ∨ (∃ c t, act m s = .ended c t) ∨
      (∃ t, act m s = .paused t ∧ t.phase = s.phase) := by
  cases m
  case waitTxSpace =>
    rcases doWaitTxSpace_cases s with ⟨-, h⟩ | ⟨-, h⟩ <;> rw [act, h]
    · exact .inl ⟨_, rfl, rfl⟩
    · exact .inr (.inr ⟨_, rfl, rfl⟩)
  case recvPresence =>
    rcases doRecvPresence_cases s with ⟨-, h⟩ | ⟨-, h⟩ | ⟨e, -, -, h⟩ <;> rw [act, h]
    · exact .inr (.inl ⟨_, _, rfl⟩)
    · exact .inr (.inl ⟨_, _, rfl⟩)
    · exact .inl ⟨_, rfl, rfl⟩
  case recvBit use =>
    rcases doRecvBit_cases use s with ⟨-, h⟩ | ⟨e, -, -, h⟩ | ⟨e, b, -, -, h⟩ <;> rw [act, h]
    · exact .inr (.inl ⟨_, _, rfl⟩)
    · exact .inr (.inl ⟨_, _, rfl⟩)
    · exact .inl ⟨_, rfl, by cases use <;> simp [useBit, recv, phaseAfter]⟩
  case checkWritePhase | checkReadPhase => exact .inl ⟨_, rfl, checkPhase_phase _ s⟩
  case checkCrcZero | checkCrcSp =>
    rw [act]
    split
    · exact .inl ⟨_, rfl, rfl⟩
    · exact .inr (.inl ⟨_, _, rfl⟩)
  case pollTest =>
    rw [act]
    split
    · exact .inr (.inl ⟨_, _, rfl⟩)
    · exact .inl ⟨_, rfl, rfl⟩
  case pollLoop =>
    rw [act]
    split
    · exact .inr (.inr ⟨_, rfl, rfl⟩)
    · exact .inl ⟨_, rfl, rfl⟩
  all_goals exact .inl ⟨_, rfl, rfl⟩

/-- An operation records a fault only where it is a PHASE test that fails (spec/42_transaction.md R147). -/
theorem act_faults (m : Micro) (s : State) (h : phaseFits s.phase m = true) : (stateOf (act m s)).faults = s.faults := by
  cases m
  case waitTxSpace => rcases doWaitTxSpace_cases s with ⟨-, h⟩ | ⟨-, h⟩ <;> rw [act, h] <;> rfl
  case recvPresence =>
    rcases doRecvPresence_cases s with ⟨-, h⟩ | ⟨-, h⟩ | ⟨e, -, -, h⟩ <;> rw [act, h] <;> simp [stateOf, recv]
  case recvBit use =>
    rcases doRecvBit_cases use s with ⟨-, h⟩ | ⟨e, -, -, h⟩ | ⟨e, b, -, -, h⟩ <;> rw [act, h]
    · simp [stateOf, recv]
    · simp [stateOf, recv]
    · cases use <;> simp [stateOf, useBit, recv]
  case checkWritePhase | checkReadPhase => exact congrArg State.faults (if_pos h)
  case checkCrcZero | checkCrcSp | pollTest | pollLoop =>
    rw [act]
    split <;> rfl
  all_goals rfl

theorem run_faults {ms : List Micro} {s : State} (h : phasesFit s.phase ms = true) : (stateOf (run ms s)).faults = s.faults := by
  induction ms generalizing s with
  | nil => rfl
  | cons m ms ih =>
    rw [phasesFit, Bool.and_eq_true] at h
    have hf := act_faults m s h.1
    rw [run_cons]
    rcases perform_cases m s with ⟨hp, -, -⟩ | hp <;> rw [hp]
    · rfl
    · rcases act_phase m s with ⟨t, ha, hq⟩ | ⟨c, t, ha⟩ | ⟨t, ha, -⟩ <;> rw [ha] at hf ⊢
      · exact (ih (hq ▸ h.2)).trans hf
      · exact hf
      · exact hf

/-- A body without PHASE writes leaves PHASE unless an operation of it ends the command. -/
theorem run_phase {ms : List Micro} (hms : ∀ m ∈ ms, ∀ p, phaseAfter p m = p) (s : State) :
    (∃ c t, run ms s = .ended c t) ∨ (stateOf (run ms s)).phase = s.phase := by
  induction ms generalizing s with
  | nil => exact .inr rfl
  | cons m ms ih =>
    rw [run_cons]
    rcases perform_cases m s with ⟨hp, -, -⟩ | hp <;> rw [hp]
    · exact .inr rfl
    · rcases act_phase m s with ⟨t, ha, hq⟩ | ⟨c, t, ha⟩ | ⟨t, ha, hq⟩ <;> rw [ha]
      · rw [hms m (by simp)] at hq
        exact (ih (fun m' hm' => hms m' (by simp [hm'])) t).imp id (·.trans hq)
      · exact .inl ⟨c, t, rfl⟩
      · exact .inr hq

/-- OW_RESET, the bit commands and the sequences never fail a PHASE test: a sequence resets the bus before its first byte. -/
theorem phasesFit_bodyOf (p : Phase) (i : Instr) (hw : ∀ d, i ≠ .owWriteByte d) (hr : i ≠ .owReadByte) :
    phasesFit p (bodyOf i) = true := by
  cases i with
  | owWriteByte d => exact absurd rfl (hw d)
  | owReadByte => exact absurd rfl hr
  | owWriteBit v => rfl
  | crcUpdate d => rfl
  | _ => cases p <;> decide +kernel

/-! ### The bit commands and PHASE -/

/-- OW_READ_BIT or OW_WRITE_BIT. -/
abbrev IsBitCommand (i : Instr) : Prop := i = .owReadBit ∨ ∃ v, i = .owWriteBit v

section
variable {i : Instr} {m : Micro}

theorem mem_bitCommand (hi : IsBitCommand i) (hm : m ∈ bodyOf i) :
    m = .waitTxSpace ∨ m = .setBaud .high ∨ (∃ b, m = .send b) ∨ ∃ use, m = .recvBit use := by
  obtain rfl | ⟨v, rfl⟩ := hi <;>
  · simp only [bodyOf, owReadBitBody, owWriteBitBody, selectHigh, bitExchange, List.cons_append, List.nil_append,
      List.mem_cons, List.not_mem_nil, or_false] at hm
    rcases hm with rfl | rfl | rfl | rfl | rfl <;> simp

theorem phaseAfter_of_bitCommand (hi : IsBitCommand i) (hm : m ∈ bodyOf i) (p : Phase) : phaseAfter p m = p := by
  rcases mem_bitCommand hi hm with rfl | rfl | ⟨b, rfl⟩ | ⟨use, rfl⟩ <;> rfl

/-- What a bit command's operations end it with is a failed exchange. -/
theorem endCodes_of_bitCommand (hi : IsBitCommand i) (hm : m ∈ bodyOf i) {e : EchoPolicy} {c : Result}
    (hc : c ∈ endCodes e m) : c = .transportError ∨ c = .lineError := by
  rcases mem_bitCommand hi hm with rfl | rfl | ⟨b, rfl⟩ | ⟨use, rfl⟩
  · cases hc
  · cases hc
  · cases hc
  · cases e
    · exact .inl (by simpa [endCodes] using hc)
    · simpa [endCodes] using hc

/-- A bit command leaves PHASE, or makes it IDLE in the step that ends it with the error (spec/10_state.md R36, "on error"). -/
theorem conclude_bitCommand_phase (hi : IsBitCommand i) {ms : List Micro} (hms : ∀ m ∈ ms, m ∈ bodyOf i) (s : State) :
    (conclude (run ms s)).phase = s.phase ∨ ((conclude (run ms s)).phase = .idle ∧ (conclude (run ms s)).busy = false ∧
      (statusResult (conclude (run ms s)).status = resultCode .transportError ∨
        statusResult (conclude (run ms s)).status = resultCode .lineError)) := by
  rcases run_phase (fun m hm => phaseAfter_of_bitCommand hi (hms m hm)) s with ⟨c, t, hr⟩ | hp
  · obtain ⟨m, hm, u, -, ha⟩ := run_ended ms s t c hr
    obtain ⟨hc, hidle⟩ := act_ended m u t c ha
    rw [hr, conclude]
    refine .inr ⟨?_, finish_busy c t, ?_⟩
    · rcases endCodes_of_bitCommand hi (hms m hm) hc with rfl | rfl <;> exact hidle rfl
    · rcases endCodes_of_bitCommand hi (hms m hm) hc with rfl | rfl <;> simp
  · rcases conclude_cases (run ms s) with ⟨c, hc⟩ | ⟨t, ht, hc⟩ <;> rw [hc]
    · exact .inl hp
    · rw [ht] at hp; exact .inl hp

end

/-- What `conclude` writes is in no column. -/
theorem conclude_same (c : Column) (q : Progress) : c.same (stateOf q) (conclude q) := by
  cases q <;> cases c <;> rfl

/-- Settles O23, from `step_acts`: a step that acts for a command runs part of its body, and any other leaves the columns. -/
theorem buffersChangeOnlyUnderTheirSequences : Obligations.BuffersChangeOnlyUnderTheirSequences := by
  intro s t hr h
  rcases step_acts decodeWord_encode s t hr h with ⟨i, ms, u, a⟩ | q
  · refine ⟨fun c hc => ?_, fun hi => ?_⟩
    · rw [a.result]
      exact Column.same_trans (a.columns c)
        (Column.same_trans (run_same i ms a.part c (hc i a.acting) u) (conclude_same c _))
    · have hbit : IsBitCommand i := by rw [a.acting] at hi; simpa only [Option.some.injEq] using hi
      have hu : u.phase = s.phase := a.columns .phase
      rw [a.result, ← hu]
      exact conclude_bitCommand_phase hbit a.part u
  · exact ⟨fun c _ => q.columns c, fun _ => .inl (q.columns .phase)⟩

/-! ### The registers and ghosts that no column stands for -/

/-- The internal registers that a body writes (spec/10_state.md R30), and the ghosts of Log 12. -/
inductive Inner where
  | shift
  | bitcnt
  | bytecnt
  | rxValid
  | snValid
  | spValid
  deriving DecidableEq

/-- It is in t what it is in s. -/
def Inner.same (x : Inner) (s t : State) : Prop :=
  match x with
  | .shift => t.shift = s.shift
  | .bitcnt => t.bitcnt = s.bitcnt
  | .bytecnt => t.bytecnt = s.bytecnt
  | .rxValid => t.rxValid = s.rxValid
  | .snValid => t.snValid = s.snValid
  | .spValid => t.spValid = s.spValid

/-- What an operation may write of these. -/
def innerWrites : Micro → List Inner
  | .recvBit .toRxdata | .shiftToRxdata => [.rxValid]
  | .recvBit .toShift | .clearShift => [.shift]
  | .setBitcnt _ => [.bitcnt]
  | .setBytecnt _ => [.bytecnt]
  | .markSn _ => [.snValid]
  | .markSp _ => [.spValid]
  | _ => []

/-- What a command may write of these. -/
def mayWriteInner : Instr → List Inner
  | .nop | .owReset | .owWriteBit _ | .crcInit | .crcUpdate _ => []
  | .owReadBit => [.rxValid]
  | .owWriteByte _ | .seqConvert => [.bitcnt]
  | .owReadByte => [.shift, .bitcnt, .rxValid]
  | .seqReadRom => [.shift, .bitcnt, .bytecnt, .rxValid, .snValid]
  | .seqReadScratchpad | .seqPollRead | .seqBlockingRead => [.shift, .bitcnt, .bytecnt, .rxValid, .spValid]

theorem Inner.same_refl (x : Inner) (s : State) : x.same s s := by cases x <;> rfl

theorem Inner.same_trans {x : Inner} {s t u : State} (h : x.same s t) (h' : x.same t u) : x.same s u := by
  cases x <;> exact Eq.trans h' h

theorem recv_inner (x : Inner) (s : State) : x.same s (recv s) := by cases x <;> simp [Inner.same, recv]

theorem useBit_inner {use : BitUse} {x : Inner} (hx : x ∉ innerWrites (.recvBit use)) (b : Bool) (s : State) :
    x.same s (useBit use b s) := by
  cases use <;> cases x <;> first | rfl | exact absurd (by simp [innerWrites]) hx

theorem act_inner {m : Micro} {x : Inner} (hx : x ∉ innerWrites m) (s : State) : x.same s (stateOf (act m s)) := by
  cases m
  case recvBit use =>
    rcases doRecvBit_cases use s with ⟨-, h⟩ | ⟨e, -, -, h⟩ | ⟨e, b, -, -, h⟩ <;> rw [act, h]
    · exact Inner.same_trans (recv_inner x s) (by cases x <;> rfl)
    · exact Inner.same_trans (recv_inner x s) (by cases x <;> rfl)
    · exact Inner.same_trans (Inner.same_trans (recv_inner x s) (by cases x <;> rfl)) (useBit_inner hx b _)
  case recvPresence =>
    rcases doRecvPresence_cases s with ⟨-, h⟩ | ⟨-, h⟩ | ⟨e, -, -, h⟩ <;> rw [act, h] <;>
      exact Inner.same_trans (recv_inner x s) (by cases x <;> rfl)
  case waitTxSpace => rcases doWaitTxSpace_cases s with ⟨-, h⟩ | ⟨-, h⟩ <;> rw [act, h] <;> cases x <;> rfl
  case checkWritePhase | checkReadPhase =>
    rw [act, checkPhase]
    split <;> cases x <;> rfl
  case checkCrcZero | checkCrcSp | pollTest | pollLoop =>
    rw [act]
    split <;> cases x <;> rfl
  all_goals cases x <;> first | rfl | exact absurd (by simp [innerWrites]) hx

theorem body_inner (i : Instr) : ∀ m ∈ bodyOf i, ∀ x ∈ innerWrites m, x ∈ mayWriteInner i := by
  have h := bodies_all (fun i m => (innerWrites m).all fun x => (mayWriteInner i).contains x) (by decide +kernel)
    (fun _ => rfl) (fun _ => rfl) (fun _ => rfl) i
  simpa using h

theorem run_inner (i : Instr) {x : Inner} (hx : x ∉ mayWriteInner i) (s : State) : x.same s (stateOf (run (bodyOf i) s)) :=
  run_keeps (x.same s) (bodyOf i)
    (fun m hm t ht => Inner.same_trans ht (act_inner (fun h => hx (body_inner i m hm x h)) t)) s (x.same_refl s)

theorem conclude_inner (x : Inner) (q : Progress) : x.same (stateOf q) (conclude q) := by
  cases q <;> cases x <;> rfl

/-! ### What a command leaves unchanged -/

/-- A command is ignored as an overrun, or its body runs from the acceptance (spec/60_exceptions.md R215, R218). -/
theorem exec_cases {i : Instr} {s t : State} (h : exec i s = .next t) :
    t = overrun s ∨ t = conclude (run (bodyOf i) (accept (encode i) s)) := by
  obtain rfl : issue (encode i) (bodyOf i) s = t := by simpa [exec_eq_issue] using h
  exact (issue_cases (encode i) (bodyOf i) s).imp And.right And.right

/-- What a command leaves unchanged, accepted or ignored, done or interrupted. -/
structure Frame (i : Instr) (s t : State) : Prop where
  column : ∀ c : Column, c ∉ mayWrite i → c.same s t
  inner : ∀ x : Inner, x ∉ mayWriteInner i → x.same s t
  txSpace : t.txSpace = s.txSpace
  policy : t.policy = s.policy
  hostLog : t.hostLog = s.hostLog
  cur : t.cur = s.cur ∨ t.cur = encode i
  faults : (∀ d, i ≠ .owWriteByte d) → i ≠ .owReadByte → t.faults = s.faults
  phase : IsBitCommand i → t.phase = s.phase ∨ t.phase = .idle

theorem overrun_frame (i : Instr) (s : State) : Frame i s (overrun s) where
  column c _ := by cases c <;> rfl
  inner x _ := by cases x <;> rfl
  txSpace := rfl
  policy := rfl
  hostLog := rfl
  cur := .inl rfl
  faults _ _ := rfl
  phase _ := .inl rfl

theorem conclude_untouched (q : Progress) :
    (conclude q).cur = (stateOf q).cur ∧ (conclude q).txSpace = (stateOf q).txSpace ∧
      (conclude q).policy = (stateOf q).policy ∧ (conclude q).hostLog = (stateOf q).hostLog ∧
      (conclude q).faults = (stateOf q).faults := by
  cases q <;> exact ⟨rfl, rfl, rfl, rfl, rfl⟩

theorem accepted_frame (i : Instr) (s : State) : Frame i s (conclude (run (bodyOf i) (accept (encode i) s))) := by
  obtain ⟨-, hcur, htx, hpol, hlog⟩ := run_untouched (bodyOf i) (accept (encode i) s)
  obtain ⟨kcur, ktx, kpol, klog, kf⟩ := conclude_untouched (run (bodyOf i) (accept (encode i) s))
  refine ⟨fun c hc => ?_, fun x hx => ?_, ktx.trans htx, kpol.trans hpol, klog.trans hlog, .inr (kcur.trans hcur),
    fun hw hr => kf.trans (run_faults (phasesFit_bodyOf _ i hw hr)), fun hi => ?_⟩
  · have hacc : c.same s (accept (encode i) s) := by cases c <;> rfl
    exact Column.same_trans hacc (Column.same_trans (run_same i _ (fun _ => id) c hc _) (conclude_same c _))
  · have hacc : x.same s (accept (encode i) s) := by cases x <;> rfl
    exact Inner.same_trans hacc (Inner.same_trans (run_inner i hx _) (conclude_inner x _))
  · exact (conclude_bitCommand_phase hi (fun _ => id) _).imp id And.left

theorem exec_frame {i : Instr} {s t : State} (h : exec i s = .next t) : Frame i s t := by
  rcases exec_cases h with rfl | rfl
  · exact overrun_frame i s
  · exact accepted_frame i s

/-- Settles O26, from `exec_frame`. -/
theorem resetAndBitCommandsFrame : Obligations.ResetAndBitCommandsFrame := by
  intro s t i hi h
  have f := exec_frame h
  have hbit : i ≠ .owReset → IsBitCommand i := fun hn => hi.resolve_left hn
  have hcols : Column.crc ∉ mayWrite i ∧ Column.sn ∉ mayWrite i ∧ Column.sp ∉ mayWrite i ∧
      Inner.shift ∉ mayWriteInner i ∧ Inner.bitcnt ∉ mayWriteInner i ∧ Inner.bytecnt ∉ mayWriteInner i ∧
      Inner.snValid ∉ mayWriteInner i ∧ Inner.spValid ∉ mayWriteInner i ∧ (∀ d, i ≠ .owWriteByte d) ∧ i ≠ .owReadByte ∧
      (i ≠ .owReadBit → Column.rxdata ∉ mayWrite i ∧ Inner.rxValid ∉ mayWriteInner i) := by
    obtain rfl | rfl | ⟨v, rfl⟩ := hi <;> simp [mayWrite, mayWriteInner]
  obtain ⟨hcrc, hsn, hsp, hsh, hbi, hby, hsnv, hspv, hw, hr, hrx⟩ := hcols
  exact ⟨f.column _ hcrc, f.column _ hsn, f.column _ hsp, f.inner _ hsh, f.inner _ hbi, f.inner _ hby, f.faults hw hr,
    f.txSpace, f.policy, f.hostLog, f.inner _ hsnv, f.inner _ hspv, f.cur,
    fun hn => ⟨f.column _ (hrx hn).1, f.inner _ (hrx hn).2⟩, fun hn => f.phase (hbit hn)⟩

/-- Settles O27, from `exec_frame`. -/
theorem byteCommandsAndConvertFrame : Obligations.ByteCommandsAndConvertFrame := by
  intro s t i hi h
  have f := exec_frame h
  have hcols : Column.crc ∉ mayWrite i ∧ Column.sn ∉ mayWrite i ∧ Column.sp ∉ mayWrite i ∧
      Inner.bytecnt ∉ mayWriteInner i ∧ Inner.snValid ∉ mayWriteInner i ∧ Inner.spValid ∉ mayWriteInner i ∧
      (i ≠ .owReadByte → Column.rxdata ∉ mayWrite i ∧ Inner.rxValid ∉ mayWriteInner i ∧ Inner.shift ∉ mayWriteInner i) := by
    obtain rfl | rfl | ⟨d, rfl⟩ := hi <;> simp [mayWrite, mayWriteInner]
  obtain ⟨hcrc, hsn, hsp, hby, hsnv, hspv, hrx⟩ := hcols
  refine ⟨f.column _ hcrc, f.column _ hsn, f.column _ hsp, f.inner _ hby, f.txSpace, f.policy, f.hostLog, f.inner _ hsnv,
    f.inner _ hspv, f.cur, fun hn => ?_, fun hc => f.faults (by simp [hc]) (by simp [hc])⟩
  obtain ⟨hd, hv, hs⟩ := hrx hn
  exact ⟨f.column _ hd, f.inner _ hv, f.inner _ hs⟩

/-- Settles O28, from `exec_frame`. -/
theorem readSequencesFrame : Obligations.ReadSequencesFrame := by
  intro s t i hi h
  have f := exec_frame h
  have hcols : (∀ d, i ≠ .owWriteByte d) ∧ i ≠ .owReadByte ∧
      (i = .seqReadRom → Column.sp ∉ mayWrite i ∧ Inner.spValid ∉ mayWriteInner i) ∧
      (i ≠ .seqReadRom → Column.sn ∉ mayWrite i ∧ Inner.snValid ∉ mayWriteInner i) := by
    obtain rfl | rfl | rfl | rfl := hi <;> simp [mayWrite, mayWriteInner]
  obtain ⟨hw, hr, hsp, hsn⟩ := hcols
  exact ⟨f.txSpace, f.policy, f.hostLog, f.faults hw hr, f.cur, fun he => ⟨f.column _ (hsp he).1, f.inner _ (hsp he).2⟩,
    fun hn => ⟨f.column _ (hsn hn).1, f.inner _ (hsn hn).2⟩⟩

/-- Settles O25: ignored or accepted, the state computes to what the frame says. -/
theorem quietCommandsFrame : Obligations.QuietCommandsFrame := by
  intro s t i hi h
  rcases exec_cases h with rfl | rfl
  · exact ⟨rfl, fun _ => rfl⟩
  · obtain rfl | rfl | ⟨d, rfl⟩ := hi
    · exact ⟨rfl, fun _ => rfl⟩
    · exact ⟨rfl, nofun⟩
    · exact ⟨rfl, nofun⟩

/-! ### Right after reset -/

/-- Settles O18. -/
theorem resetValues : Obligations.ResetValues :=
  ⟨rfl, rfl, rfl, rfl, by decide, by decide, rfl, rfl, rfl, rfl, rfl, rfl, rfl, rfl⟩

/-- Settles O20: the block is idle, RESULT is OK, NOP's word is in CUR, PHASE is IDLE and there is no event yet. -/
theorem resetMeetsTheInvariant : Obligations.ResetMeetsTheInvariant :=
  ⟨inv_reset, by decide, fun _ _ => rfl, by decide⟩

end Sys2Proof.Machine

/-! # Bodies that succeed

What a body procedure comes to when the transport's next answers decode (spec/40_codec.md R104, 42_transaction.md R140 to R144,
43_sequences.md R161): the state after it, with the answers that the rest gets. Composed as the procedures are. -/

namespace Sys2Proof.Machine

/-! ### The transport's next answers -/

/-- The answers to come begin with these. -/
def Next (s : State) (as : List Answer) : Prop := nextAnswers as.length s = as

/-- What exchanges with these answers and events leave on the transport's side and in RXRAW. -/
def exchanged (as : List Answer) (es : List Event) (s : State) : State :=
  { s with
    rx := s.rx.drop as.length
    draws := s.draws + (as.length - s.rx.length)
    trace := s.trace ++ es
    seqpos := s.seqpos + es.length
    rxraw := rawAfter s.rxraw as }

section
variable {s t : State} {as bs : List Answer} {es fs : List Event}

theorem consumeAnswer_eq (s : State) :
    consumeAnswer s = { s with rx := s.rx.drop 1, draws := s.draws + (1 - s.rx.length) } := by
  unfold consumeAnswer
  cases h : s.rx <;> cases s <;> simp_all

theorem nextAnswer_congr (hr : t.rx = s.rx) (hd : t.draws = s.draws) : nextAnswer t = nextAnswer s := by
  simp only [nextAnswer, hr, hd]

/-- The next answers depend on the script and on the counter of free values only. -/
theorem nextAnswers_congr (n : Nat) (hr : t.rx = s.rx) (hd : t.draws = s.draws) : nextAnswers n t = nextAnswers n s := by
  induction n generalizing s t with
  | zero => rfl
  | succ n ih =>
    rw [nextAnswers, nextAnswers, nextAnswer_congr hr hd, ih (s := consumeAnswer s)]
    · simp [consumeAnswer_eq, hr]
    · simp [consumeAnswer_eq, hr, hd]

theorem Next.congr (hr : t.rx = s.rx) (hd : t.draws = s.draws) (h : Next s as) : Next t as :=
  (nextAnswers_congr _ hr hd).trans h

theorem next_cons {a : Answer} : Next s (a :: as) ↔ nextAnswer s = a ∧ Next (consumeAnswer s) as := by
  simp [Next, nextAnswers]

theorem rawAfter_append (v : Byte) (as bs : List Answer) : rawAfter v (as ++ bs) = rawAfter (rawAfter v as) bs := by
  induction as generalizing v with
  | nil => rfl
  | cons a as ih => cases a <;> exact ih _

@[simp] theorem exchanged_exchanged : exchanged bs fs (exchanged as es s) = exchanged (as ++ bs) (es ++ fs) s := by
  simp only [exchanged, rawAfter_append, List.length_append, List.drop_drop, List.append_assoc, List.length_drop]
  congr 1 <;> omega

theorem exchanged_one_eq (a : Answer) (es : List Event) (s : State) :
    (exchanged [a] es s).rx = (consumeAnswer s).rx ∧ (exchanged [a] es s).draws = (consumeAnswer s).draws := by
  rw [consumeAnswer_eq]; exact ⟨rfl, rfl⟩

/-- Exchanges use up their own answers. -/
theorem Next.exchanged (h : Next s (as ++ bs)) : Next (exchanged as es s) bs := by
  induction as generalizing s es with
  | nil => exact h.congr (by simp [Machine.exchanged]) (by simp [Machine.exchanged])
  | cons a as ih =>
    have hrest : Next (Machine.exchanged as [] (Machine.exchanged [a] es s)) bs :=
      ih ((next_cons.mp h).2.congr (exchanged_one_eq a es s).1 (exchanged_one_eq a es s).2)
    simpa using hrest

theorem Next.of_append (h : Next s (as ++ bs)) : Next s as := by
  induction as generalizing s with
  | nil => rfl
  | cons a as ih =>
    obtain ⟨ha, h⟩ := next_cons.mp h
    exact next_cons.mpr ⟨ha, ih h⟩

end

/-! ### Success of a procedure -/

/-- Nothing lands, nothing holds, and echoes are decoded under p. -/
def Calm (p : EchoPolicy) (s : State) : Prop := Free s ∧ s.policy = p

/-- Where the answers to come begin with as, the procedure returns OK, uses them up and does g. -/
def Succeeds (p : EchoPolicy) (as : List Answer) (f : Proc) (g : State → State) : Prop :=
  ∀ s rest, Calm p s → Next s (as ++ rest) → f s = (.ok, g s) ∧ Calm p (g s) ∧ Next (g s) rest

section
variable {p : EchoPolicy} {s t : State} {as bs : List Answer}

theorem Calm.congr (hi : t.inputs = s.inputs) (ht : t.txSpace = s.txSpace) (hp : t.policy = s.policy) (h : Calm p s) :
    Calm p t :=
  ⟨free_congr s t hi ht h.1, hp.trans h.2⟩

theorem Succeeds.andThen {f f' : Proc} {g g' : State → State} (h : Succeeds p as f g) (h' : Succeeds p bs f' g') :
    Succeeds p (as ++ bs) (andThen f f') fun s => g' (g s) := by
  intro s rest hs hn
  obtain ⟨hf, hc, hn⟩ := h s (bs ++ rest) hs (by rwa [List.append_assoc] at hn)
  obtain ⟨hf', hc', hn'⟩ := h' (g s) rest hc hn
  exact ⟨by simp [Machine.andThen, hf, hf'], hc', hn'⟩

/-- After a procedure that succeeds comes the next one, whatever that does. -/
theorem Succeeds.andThen_eq {f f' : Proc} {g : State → State} (h : Succeeds p as f g) (hs : Calm p s) (hn : Next s as) :
    Machine.andThen f f' s = f' (g s) := by
  obtain ⟨hf, -, -⟩ := h s [] hs (by simpa using hn)
  simp [Machine.andThen, hf]

/-- A register write that leaves the transport's side, the timeline and ECHO_POLICY. -/
theorem Succeeds.doing {g : State → State} (hi : ∀ s, (g s).inputs = s.inputs) (ht : ∀ s, (g s).txSpace = s.txSpace)
    (hp : ∀ s, (g s).policy = s.policy) (hr : ∀ s, (g s).rx = s.rx) (hd : ∀ s, (g s).draws = s.draws) :
    Succeeds p [] (doing g) g :=
  fun s _ hs hn => ⟨rfl, hs.congr (hi s) (ht s) (hp s), Next.congr (hr s) (hd s) hn⟩

theorem Succeeds.congr {f : Proc} {g g' : State → State} (hg : ∀ s, g s = g' s) (h : Succeeds p as f g) : Succeeds p as f g' :=
  (funext hg : g = g') ▸ h

theorem Succeeds.forEach {α : Type} {as : α → List Answer} {f : α → Proc} {g : α → State → State}
    (h : ∀ x, Succeeds p (as x) (f x) (g x)) (l : List α) :
    Succeeds p (l.flatMap as) (forEach f l) fun s => l.foldl (fun s x => g x s) s := by
  induction l with
  | nil => exact fun s rest hs hn => ⟨rfl, hs, hn⟩
  | cons x l ih => exact (h x).andThen ih

/-! ### The primitives -/

theorem calm_exchanged (es : List Event) (hs : Calm p s) : Calm p (exchanged as es s) := hs.congr rfl rfl rfl

theorem record_of_calm (e : Event) (hs : Calm p s) : record e s = exchanged [] [e] s := by
  have hi := countDown_of_undisturbed s hs.1.1
  simp [record, exchanged, hi, rawAfter]

theorem setRxraw_recv_of_calm {e : Byte} (hs : Calm p s) (ha : nextAnswer s = .byte e) :
    setRxraw e (recv s) = exchanged [.byte e] [.r (.byte e)] s := by
  have hi := countDown_of_undisturbed s hs.1.1
  simp [setRxraw, recv, record, consumeAnswer_eq, exchanged, hi, ha, rawAfter]

/-- `WaitTxSpace` and `SetBaud` (spec/40_codec.md R105). -/
def selected (r : Rate) (s : State) : State := { exchanged [] [.w, .b r] s with baud := .rate r }

theorem procSelect_succeeds (r : Rate) : Succeeds p [] (procSelect r) (selected r) := by
  intro s rest hs hn
  have hset : setBaud r (record .w s) = selected r s := by
    have hi := countDown_of_undisturbed s hs.1.1
    simp [setBaud, record, selected, exchanged, hi, rawAfter]
  refine ⟨by rw [procSelect, Machine.doing, hset], hs.congr rfl rfl rfl, ?_⟩
  exact Next.congr (s := exchanged [] [] s) rfl rfl (Next.exchanged hn)

/-- A bit exchange whose echo decodes (spec/40_codec.md R104). -/
def bitExchanged (b : Bool) (use : BitUse) (a : Answer) (r : Bool) (s : State) : State :=
  useBit use r (exchanged [a] (slotEvents b a) s)

theorem useBit_exchanged (use : BitUse) (r : Bool) (es : List Event) (s : State) :
    useBit use r (exchanged as es s) = exchanged as es (useBit use r s) := by
  cases use <;> rfl

theorem procExchange_succeeds (b : Bool) (use : BitUse) {a : Answer} {r : Bool} (ha : answerBit p a = some r) :
    Succeeds p [a] (procExchange b use) (bitExchanged b use a r) := by
  intro s rest hs hn
  have hnext : nextAnswer s = a := (next_cons.mp hn).1
  have hsent : send (encodeBit b) (record .w s) = exchanged [] [.w, .s (encodeBit b)] s := by
    rw [record_of_calm _ hs, send, record_of_calm (p := p) _ (calm_exchanged [.w] hs), exchanged_exchanged]
    rfl
  have hcalm : Calm p (exchanged [] [.w, .s (encodeBit b)] s) := calm_exchanged _ hs
  have hnext' : nextAnswer (exchanged [] [.w, .s (encodeBit b)] s) = a :=
    (nextAnswer_congr (by simp [exchanged]) (by simp [exchanged])).trans hnext
  refine ⟨?_, ?_, ?_⟩
  · cases a with
    | err => cases ha
    | byte e =>
      have hdec : decodeEcho s.policy e = .bit r := by
        rw [hs.2]
        unfold answerBit at ha
        cases h : decodeEcho p e <;> simp_all
      simp only [procExchange, hsent, hnext', hdec, setRxraw_recv_of_calm hcalm hnext', exchanged_exchanged]
      rfl
  · exact (calm_exchanged _ hs).congr (by cases use <;> rfl) (by cases use <;> rfl) (by cases use <;> rfl)
  · exact Next.congr (s := exchanged [a] [] s) (by cases use <;> rfl) (by cases use <;> rfl) (Next.exchanged hn)

/-- `OW_RESET_body` with a device present (spec/42_transaction.md R140). -/
def didReset (e : Byte) (s : State) : State :=
  { exchanged [.byte e] (resetEvents (.byte e)) s with baud := .rate .low, phase := .addressed }

theorem procReset_succeeds {e : Byte} (he : e ≠ 0xF0) : Succeeds p [.byte e] procReset (didReset e) := by
  intro s rest hs hn
  have hi := countDown_of_undisturbed s hs.1.1
  have hnext : nextAnswer s = .byte e := (next_cons.mp hn).1
  have hsent : send Config.resetPulse (record .w (setBaud .low (record .w (setPhase .resetIssued s)))) =
      { exchanged [] [.w, .b .low, .w, .s 0xF0] s with baud := .rate .low, phase := .resetIssued } := by
    simp [send, setBaud, record, setPhase, exchanged, hi, rawAfter, Config.resetPulse]
  generalize hu : ({ exchanged [] [.w, .b .low, .w, .s 0xF0] s with baud := .rate .low, phase := .resetIssued } : State) = u
    at hsent
  have hcalm : Calm p u := hs.congr (by simp [← hu, exchanged]) (by simp [← hu, exchanged]) (by simp [← hu, exchanged])
  have hnext' : nextAnswer u = .byte e :=
    (nextAnswer_congr (by simp [← hu, exchanged]) (by simp [← hu, exchanged])).trans hnext
  refine ⟨?_, hs.congr rfl rfl rfl, Next.congr (s := exchanged [.byte e] [] s) rfl rfl (Next.exchanged hn)⟩
  have hne : e ≠ Config.resetPulse := he
  simp only [procReset, hsent, hnext', if_neg hne, setRxraw_recv_of_calm hcalm hnext']
  rw [← hu]
  simp [didReset, setPhase, exchanged, resetEvents, rawAfter]

/-! ### The eight exchanges of a byte -/

/-- `BITCNT <- i`. -/
def withBitcnt (i : Fin 9) (s : State) : State := { s with bitcnt := i }

/-- Exchange i of a byte (spec/42_transaction.md R142, R143). -/
def slotProc (b : Fin 8 → Bool) (use : BitUse) (i : Fin 8) : Proc :=
  Machine.andThen (doing (withBitcnt (i.castLE (by decide)))) (procExchange (b i) use)

theorem exchanged_withBitcnt {as : List Answer} (es : List Event) (i : Fin 9) (s : State) :
    exchanged as es (withBitcnt i s) = withBitcnt i (exchanged as es s) := rfl

/-- `SHIFT <- v`. -/
def withShift (v : Byte) (s : State) : State := { s with shift := v }

theorem exchanged_withShift {as : List Answer} (es : List Event) (v : Byte) (s : State) :
    exchanged as es (withShift v s) = withShift v (exchanged as es s) := rfl

/-- What its caller does with each of the decoded bits. -/
def useBits (use : BitUse) (rs : List Bool) (s : State) : State := rs.foldl (fun s r => useBit use r s) s

@[simp] theorem useBits_discard (rs : List Bool) (s : State) : useBits .discard rs s = s := by
  induction rs with
  | nil => rfl
  | cons r rs ih => exact ih

theorem useBits_toShift (rs : List Bool) (s : State) :
    useBits .toShift rs s = withShift (rs.foldl shiftIn s.shift) s := by
  induction rs generalizing s with
  | nil => rfl
  | cons r rs ih => exact ih _

/-- BITCNT after some exchanges: the last one's index. -/
def lastBitcnt (is : List (Fin 8)) (i : Fin 9) : Fin 9 := (is.map (Fin.castLE (by decide))).getLastD i

theorem lastBitcnt_finRange (i : Fin 9) : lastBitcnt (List.finRange 8) i = 7 := by rfl

/-- Some exchanges of a byte, their echoes decoded to the bits rs. -/
def slotsDone (b : Fin 8 → Bool) (use : BitUse) (is : List (Fin 8)) (as : List Answer) (rs : List Bool) (s : State) : State :=
  useBits use rs (exchanged as (slotsEvents (is.map b) as) (withBitcnt (lastBitcnt is s.bitcnt) s))

theorem slotsDone_cons (b : Fin 8 → Bool) (use : BitUse) (i : Fin 8) (is : List (Fin 8)) (a : Answer) (as : List Answer)
    (r : Bool) (rs : List Bool) (s : State) :
    slotsDone b use is as rs (bitExchanged (b i) use a r (withBitcnt (i.castLE (by decide)) s)) =
      slotsDone b use (i :: is) (a :: as) (r :: rs) s := by
  have hev : slotsEvents ((i :: is).map b) (a :: as) = slotEvents (b i) a ++ slotsEvents (is.map b) as := by
    simp [slotsEvents]
  have hlast : lastBitcnt (i :: is) s.bitcnt = lastBitcnt is (i.castLE (by decide)) := by
    rw [lastBitcnt, List.map_cons, List.getLastD_cons, lastBitcnt]
  have hcnt : (bitExchanged (b i) use a r (withBitcnt (i.castLE (by decide)) s)).bitcnt = i.castLE (by decide) := by
    cases use <;> rfl
  have hcomm : withBitcnt (lastBitcnt is (i.castLE (by decide)))
      (bitExchanged (b i) use a r (withBitcnt (i.castLE (by decide)) s)) =
      exchanged [a] (slotEvents (b i) a) (useBit use r (withBitcnt (lastBitcnt is (i.castLE (by decide))) s)) := by
    cases use <;> rfl
  have hjoin : ∀ u, exchanged as (slotsEvents (is.map b) as) (exchanged [a] (slotEvents (b i) a) u) =
      exchanged (a :: as) (slotsEvents ((i :: is).map b) (a :: as)) u := fun u => by rw [exchanged_exchanged, hev]; rfl
  rw [slotsDone, slotsDone, hcnt, hlast, hcomm, hjoin, ← useBit_exchanged]
  rfl

theorem answerBits_cons {a : Answer} {rs : List Bool} (h : answerBits p (a :: as) = some rs) :
    ∃ r rs', rs = r :: rs' ∧ answerBit p a = some r ∧ answerBits p as = some rs' := by
  simp only [answerBits, Option.bind_eq_some_iff, Option.map_eq_some_iff] at h
  obtain ⟨r, hr, rs', hrs, rfl⟩ := h
  exact ⟨r, rs', rfl, hr, hrs⟩

theorem slots_succeed (b : Fin 8 → Bool) (use : BitUse) {is : List (Fin 8)} {rs : List Bool} (hl : as.length = is.length)
    (hb : answerBits p as = some rs) : Succeeds p as (forEach (slotProc b use) is) (slotsDone b use is as rs) := by
  induction is generalizing as rs with
  | nil =>
    obtain rfl := List.eq_nil_of_length_eq_zero hl
    obtain rfl : [] = rs := by simpa [answerBits] using hb
    refine (Succeeds.doing (g := id) (fun _ => rfl) (fun _ => rfl) (fun _ => rfl) (fun _ => rfl) (fun _ => rfl)).congr
      fun s => ?_
    simp [slotsDone, useBits, withBitcnt, lastBitcnt, exchanged, slotsEvents, rawAfter]
  | cons i is ih =>
    cases as with
    | nil => cases hl
    | cons a as =>
      obtain ⟨r, rs, rfl, hr, hrs⟩ := answerBits_cons hb
      have hset : Succeeds p [] (doing (withBitcnt (i.castLE (by decide)))) _ :=
        Succeeds.doing (fun _ => rfl) (fun _ => rfl) (fun _ => rfl) (fun _ => rfl) (fun _ => rfl)
      exact Succeeds.congr (fun s => slotsDone_cons b use i is a as r rs s)
        ((hset.andThen (procExchange_succeeds (b i) use hr)).andThen (ih (Nat.succ.inj hl) hrs))

/-! ### Bytes -/

/-- `OW_WRITE_BYTE_body(d)` (spec/42_transaction.md R142). -/
def wroteByte (d : Byte) (as : List Answer) (s : State) : State :=
  { exchanged as (byteEvents d as) (checkPhase (s.phase == .addressed || s.phase == .exchanging) s) with
    bitcnt := 7, baud := .rate .high, phase := .exchanging }

/-- `OW_READ_BYTE_body` that reads v (spec/42_transaction.md R143). -/
def didReadByte (v : Byte) (as : List Answer) (s : State) : State :=
  { exchanged as (byteEvents 0xFF as) (checkPhase (s.phase == .exchanging) s) with
    shift := v, bitcnt := 7, baud := .rate .high, rxdata := v, rxValid := true, phase := .exchanging }

theorem checkPhase_succeeds (a : State → Bool) :
    Succeeds p [] (doing fun s => checkPhase (a s) s) fun s => checkPhase (a s) s :=
  Succeeds.doing (fun _ => checkPhase_inputs _ _) (fun _ => checkPhase_txSpace _ _)
    (fun s => by cases h : a s <;> rfl) (fun s => by cases h : a s <;> rfl) (fun s => by cases h : a s <;> rfl)

/-- The rate selected and then the eight exchanges of d. -/
theorem exchanged_selected (d : Byte) (as : List Answer) (s : State) :
    exchanged as (slotsEvents ((List.finRange 8).map (bitOf d)) as) (selected .high s) =
      { exchanged as (byteEvents d as) s with baud := .rate .high } := by
  have hex := exchanged_exchanged (s := s) (as := []) (bs := as) (es := [.w, .b .high])
    (fs := slotsEvents ((List.finRange 8).map (bitOf d)) as)
  exact congrArg (fun t : State => { t with baud := .rate .high }) hex

theorem procWriteByte_succeeds (d : Byte) {rs : List Bool} (hl : as.length = 8) (hb : answerBits p as = some rs) :
    Succeeds p as (procWriteByte d) (wroteByte d as) := by
  have hphase : Succeeds p [] (doing (setPhase .exchanging)) _ :=
    Succeeds.doing (fun _ => rfl) (fun _ => rfl) (fun _ => rfl) (fun _ => rfl) (fun _ => rfl)
  have h := (checkPhase_succeeds (p := p) fun s => s.phase == .addressed || s.phase == .exchanging).andThen
    ((procSelect_succeeds .high).andThen ((slots_succeed (bitOf d) .discard (is := List.finRange 8) hl hb).andThen hphase))
  rw [List.nil_append, List.nil_append, List.append_nil] at h
  refine Succeeds.congr (fun s => ?_) h
  rw [slotsDone, useBits_discard, lastBitcnt_finRange, exchanged_withBitcnt, exchanged_selected, wroteByte]
  rfl

/-- Eight bits shifted in from the top are the byte they make, the first one least significant (spec/42_transaction.md R144). -/
theorem foldl_shiftIn (rs : List Bool) (hl : rs.length = 8) : rs.foldl shiftIn 0x00 = BitVec.ofNat 8 (bitsValue rs) := by
  have hall : ∀ r0 r1 r2 r3 r4 r5 r6 r7 : Bool, [r0, r1, r2, r3, r4, r5, r6, r7].foldl shiftIn 0x00 =
      BitVec.ofNat 8 (bitsValue [r0, r1, r2, r3, r4, r5, r6, r7]) := by decide
  match rs, hl with
  | [r0, r1, r2, r3, r4, r5, r6, r7], _ => exact hall r0 r1 r2 r3 r4 r5 r6 r7

theorem answerBits_length {rs : List Bool} (h : answerBits p as = some rs) : rs.length = as.length := by
  induction as generalizing rs with
  | nil => obtain rfl : [] = rs := by simpa [answerBits] using h
           rfl
  | cons a as ih =>
    obtain ⟨r, rs, rfl, -, hrs⟩ := answerBits_cons h
    simp [ih hrs]

theorem procReadByte_succeeds {rs : List Bool} (hl : as.length = 8) (hb : answerBits p as = some rs) :
    Succeeds p as procReadByte (didReadByte (BitVec.ofNat 8 (bitsValue rs)) as) := by
  have hclear : Succeeds p [] (doing (withShift 0x00)) _ :=
    Succeeds.doing (fun _ => rfl) (fun _ => rfl) (fun _ => rfl) (fun _ => rfl) (fun _ => rfl)
  have hend : Succeeds p [] (doing fun s => setPhase .exchanging (setRxdata s.shift s)) _ :=
    Succeeds.doing (fun _ => rfl) (fun _ => rfl) (fun _ => rfl) (fun _ => rfl) (fun _ => rfl)
  have h := (checkPhase_succeeds (p := p) fun s => s.phase == .exchanging).andThen ((procSelect_succeeds .high).andThen
    (hclear.andThen ((slots_succeed (fun _ => true) .toShift (is := List.finRange 8) hl hb).andThen hend)))
  rw [List.nil_append, List.nil_append, List.nil_append, List.append_nil] at h
  refine Succeeds.congr (fun s => ?_) h
  generalize hu : checkPhase (s.phase == .exchanging) s = u
  have hbits : exchanged as (slotsEvents ((List.finRange 8).map fun _ => true) as) (selected .high u) =
      { exchanged as (byteEvents 0xFF as) u with baud := .rate .high } := exchanged_selected 0xFF as u
  rw [slotsDone, lastBitcnt_finRange, exchanged_withBitcnt, exchanged_withShift, hbits, useBits_toShift, didReadByte, hu,
    ← foldl_shiftIn rs ((answerBits_length hb).trans hl)]
  rfl

end

end Sys2Proof.Machine

/-! # The sequences that read

spec/43_sequences.md R161, R162, R164, R165: the bodies as their procedures, and what those come to when a device is present and
the echoes decode. -/

namespace Sys2Proof.Machine

/-! ### A meaning as its procedure -/

theorem conclude_ofProc (r : Result × State) : conclude (ofProc r) = finish r.1 r.2 := by
  obtain ⟨c, s⟩ := r
  cases c <;> rfl

theorem free_accept {s : State} (h : Ready s) (w : Word) : Free (accept w s) := free_congr s _ rfl rfl ⟨h.2.1, h.2.2⟩

theorem calm_accept {s : State} (h : Ready s) (w : Word) : Calm s.policy (accept w s) := ⟨free_accept h w, rfl⟩

/-- On a ready block a command whose body is a procedure finishes with that procedure's code. -/
theorem exec_of_agrees {i : Instr} {f : Proc} (hf : Agrees (bodyOf i) f) {s : State} (hs : Ready s) :
    exec i s = .next (finish (f (accept (encode i) s)).1 (f (accept (encode i) s)).2) := by
  rw [exec_eq_issue, issue, hs.1, if_neg Bool.false_ne_true, (hf _ (free_accept hs _)).1, conclude_ofProc]

/-- SEQ_READ_ROM's test of the CRC (spec/43_sequences.md R162). -/
def checkSn : Proc := fun s => if s.crc ≠ 0x00 then (.checksumMismatch, s) else (.ok, { s with snValid := true })

/-- SEQ_READ_SCRATCHPAD's test of the CRC (spec/43_sequences.md R164). -/
def checkSp : Proc := fun s => if s.crc ≠ s.sp[8] then (.checksumMismatch, s) else (.ok, { s with spValid := true })

theorem markSn_agrees (b : Bool) : Agrees [.markSn b] (doing fun s => { s with snValid := b }) :=
  Agrees.silent rfl (fun _ => rfl) (fun _ => rfl) (fun _ => rfl)

theorem markSp_agrees (b : Bool) : Agrees [.markSp b] (doing fun s => { s with spValid := b }) :=
  Agrees.silent rfl (fun _ => rfl) (fun _ => rfl) (fun _ => rfl)

theorem checkSn_agrees : Agrees [.checkCrcZero, .markSn true] checkSn := by
  intro s hs
  rw [run_cons, perform_silent _ s rfl, act, checkSn]
  by_cases h : s.crc = 0x00
  · rw [if_pos h, if_neg (not_not.mpr h)]
    exact markSn_agrees true s hs
  · rw [if_neg h, if_pos h]
    exact ⟨rfl, hs⟩

theorem checkSp_agrees : Agrees [.checkCrcSp, .markSp true] checkSp := by
  intro s hs
  rw [run_cons, perform_silent _ s rfl, act, checkSp]
  by_cases h : s.crc = s.sp[8]
  · rw [if_pos h, if_neg (not_not.mpr h)]
    exact markSp_agrees true s hs
  · rw [if_neg h, if_pos h]
    exact ⟨rfl, hs⟩

/-- SEQ_POLL_READ's test of the poll bit before the rest (spec/43_sequences.md R165). -/
theorem pollTest_agrees {body : List Micro} {f : Proc} (hf : Agrees body f) :
    Agrees (.pollTest :: body) fun s => if s.rxdata = 0x00 then (.busyConverting, s) else f s := by
  intro s hs
  rw [run_cons, perform_silent _ s rfl, act]
  dsimp only
  split
  · exact ⟨rfl, hs⟩
  · exact hf s hs

theorem readRom_agrees : Agrees seqReadRomBody procReadRom := by
  simp only [seqReadRomBody, List.append_assoc]
  exact (markSn_agrees false).append (reset_agrees.append ((writeByte_agrees _).append
    (readBlockSn_agrees.append checkSn_agrees)))

theorem readScratchpad_agrees : Agrees seqReadScratchpadBody procReadScratchpad := by
  simp only [seqReadScratchpadBody, List.append_assoc]
  exact (markSp_agrees false).append (reset_agrees.append ((writeByte_agrees _).append ((writeByte_agrees _).append
    (readBlockSp_agrees.append checkSp_agrees))))

theorem pollRead_agrees : Agrees seqPollReadBody procPollRead := by
  simp only [seqPollReadBody, List.append_assoc]
  exact (markSp_agrees false).append (readBit_agrees.append (pollTest_agrees readScratchpad_agrees))

/-! ### A run of bytes, byte by byte -/

/-- Eight items of a list, the k-th eight. -/
def chunk {α : Type} (l : List α) (k : Nat) : List α := (l.drop (8 * k)).take 8

section
variable {α : Type}

theorem chunk_length {l : List α} {n k : Nat} (hl : l.length = 8 * n) (hk : k < n) : (chunk l k).length = 8 := by
  simp only [chunk, List.length_take, List.length_drop, hl]
  omega

theorem flatMap_chunk (l : List α) (n : Nat) : (List.range n).flatMap (chunk l) = l.take (8 * n) := by
  induction n with
  | zero => rfl
  | succ n ih => simp [List.range_succ, ih, chunk, Nat.mul_succ, List.take_add]

theorem flatMap_finRange (f : Nat → List α) (n : Nat) :
    (List.finRange n).flatMap (fun k => f k.val) = (List.range n).flatMap f := by
  rw [← List.map_coe_finRange_eq_range, List.flatMap_map]

/-- What follows the first m eights of a list is its later eights. -/
theorem append_flatMap_chunk (l : List α) {m n : Nat} (hl : l.length = 8 * (m + n)) :
    l.take (8 * m) ++ (List.finRange n).flatMap (fun k => chunk l (k.val + m)) = l := by
  have hshift : ∀ k, chunk l (k + m) = chunk (l.drop (8 * m)) k := fun k => by
    rw [chunk, chunk, List.drop_drop]; congr 2; ring
  have htake : (l.drop (8 * m)).take (8 * n) = l.drop (8 * m) := List.take_of_length_le (by simp [hl]; omega)
  rw [flatMap_finRange (fun k => chunk l (k + m)), funext hshift, flatMap_chunk, htake, List.take_append_drop]

end

section
variable {p : EchoPolicy} {as : List Answer} {rs : List Bool}

/-- Answers decode to bits one by one (spec/40_codec.md R103). -/
theorem answerBits_iff : answerBits p as = some rs ↔ as.map (answerBit p) = rs.map some := by
  induction as generalizing rs with
  | nil => cases rs <;> simp [answerBits]
  | cons a as ih =>
    cases rs with
    | nil => cases h : answerBit p a <;> cases h' : answerBits p as <;> simp [answerBits, h, h']
    | cons r rs => simp [answerBits, Option.bind_eq_some_iff, ← ih]

theorem answerBits_take (n : Nat) (h : answerBits p as = some rs) : answerBits p (as.take n) = some (rs.take n) := by
  rw [answerBits_iff] at h ⊢
  rw [List.map_take, List.map_take, h]

theorem answerBits_drop (n : Nat) (h : answerBits p as = some rs) : answerBits p (as.drop n) = some (rs.drop n) := by
  rw [answerBits_iff] at h ⊢
  rw [List.map_drop, List.map_drop, h]

theorem answerBits_chunk (k : Nat) (h : answerBits p as = some rs) : answerBits p (chunk as k) = some (chunk rs k) :=
  answerBits_take 8 (answerBits_drop (8 * k) h)

theorem answerBits_append {bs : List Answer} {qs : List Bool} (h : answerBits p as = some rs) (h' : answerBits p bs = some qs) :
    answerBits p (as ++ bs) = some (rs ++ qs) := by
  rw [answerBits_iff] at h h' ⊢
  rw [List.map_append, List.map_append, h, h']

end

/-! ### Blocks -/

/-- From s to t the answers as are used up with the events es, the bytes vs are read in this order, and no fault is recorded. -/
structure Transfer (vs : List Byte) (as : List Answer) (es : List Event) (s t : State) : Prop where
  status : t.status = s.status
  faults : t.faults = s.faults
  trace : t.trace = s.trace ++ es
  rxraw : t.rxraw = rawAfter s.rxraw as
  rxdata : t.rxdata = vs.getLastD s.rxdata
  snValid : t.snValid = s.snValid
  spValid : t.spValid = s.spValid

theorem Transfer.nil (s : State) : Transfer [] [] [] s s :=
  ⟨rfl, rfl, (List.append_nil _).symm, rfl, rfl, rfl, rfl⟩

theorem Transfer.trans {vs ws : List Byte} {as bs : List Answer} {es fs : List Event} {s t u : State}
    (h : Transfer vs as es s t) (h' : Transfer ws bs fs t u) : Transfer (vs ++ ws) (as ++ bs) (es ++ fs) s u where
  status := h'.status.trans h.status
  faults := h'.faults.trans h.faults
  trace := by rw [h'.trace, h.trace, List.append_assoc]
  rxraw := by rw [h'.rxraw, h.rxraw, rawAfter_append]
  rxdata := by
    rw [h'.rxdata, h.rxdata]
    cases h : ws.getLast? <;> simp [List.getLastD_eq_getLast?, h]
  snValid := h'.snValid.trans h.snValid
  spValid := h'.spValid.trans h.spValid

/-- A loop whose turns each read a byte in PHASE EXCHANGING and leave it so. -/
theorem Transfer.foldl {ι : Type} {g : ι → State → State} {v : ι → Byte} {as : ι → List Answer} {es : ι → List Event}
    (hphase : ∀ k s, (g k s).phase = .exchanging)
    (hg : ∀ k s, s.phase = .exchanging → Transfer [v k] (as k) (es k) s (g k s)) (l : List ι) {s : State}
    (hs : s.phase = .exchanging) :
    Transfer (l.map v) (l.flatMap as) (l.flatMap es) s (l.foldl (fun s k => g k s) s) := by
  induction l generalizing s with
  | nil => exact .nil s
  | cons k l ih => exact (hg k s hs).trans (ih (hphase k s))

/-- Byte k of SEQ_READ_ROM's read phase, with the value v (spec/43_sequences.md R161). -/
def storedSn (v : Byte) (as : List Answer) (k : Fin 8) (s : State) : State :=
  { didReadByte v as { s with bytecnt := k.castLE (by decide) } with sn := s.sn.set k v, crc := crcStep s.crc v }

/-- Byte k of SEQ_READ_SCRATCHPAD's read phase, with the value v (spec/43_sequences.md R161). -/
def storedSp (v : Byte) (as : List Answer) (k : Fin 9) (s : State) : State :=
  { didReadByte v as { s with bytecnt := k.castLE (by decide) } with
    sp := s.sp.set k v, crc := if k.val < 8 then crcStep s.crc v else s.crc }

theorem didReset_transfer (e : Byte) (s : State) : Transfer [] [.byte e] (resetEvents (.byte e)) s (didReset e s) :=
  ⟨rfl, rfl, rfl, rfl, rfl, rfl, rfl⟩

/-- A byte written where the PHASE allows it records no fault (spec/42_transaction.md R147). -/
theorem wroteByte_transfer (d : Byte) (as : List Answer) {s : State} (hs : s.phase = .addressed ∨ s.phase = .exchanging) :
    Transfer [] as (byteEvents d as) s (wroteByte d as s) := by
  have hc : checkPhase (s.phase == .addressed || s.phase == .exchanging) s = s := if_pos (by simpa using hs)
  simp only [wroteByte, hc]
  exact ⟨rfl, rfl, rfl, rfl, rfl, rfl, rfl⟩

theorem didReadByte_transfer (v : Byte) (as : List Answer) {s : State} (hs : s.phase = .exchanging) :
    Transfer [v] as (byteEvents 0xFF as) s (didReadByte v as s) := by
  have hc : checkPhase (s.phase == .exchanging) s = s := if_pos (by simp [hs])
  simp only [didReadByte, hc]
  exact ⟨rfl, rfl, rfl, rfl, rfl, rfl, rfl⟩

theorem storedSn_transfer (v : Byte) (as : List Answer) (k : Fin 8) (s : State) (hs : s.phase = .exchanging) :
    Transfer [v] as (byteEvents 0xFF as) s (storedSn v as k s) := by
  obtain ⟨h1, h2, h3, h4, h5, h6, h7⟩ :=
    didReadByte_transfer v as (s := { s with bytecnt := k.castLE (by decide) }) hs
  exact ⟨h1, h2, h3, h4, h5, h6, h7⟩

theorem storedSp_transfer (v : Byte) (as : List Answer) (k : Fin 9) (s : State) (hs : s.phase = .exchanging) :
    Transfer [v] as (byteEvents 0xFF as) s (storedSp v as k s) := by
  obtain ⟨h1, h2, h3, h4, h5, h6, h7⟩ :=
    didReadByte_transfer v as (s := { s with bytecnt := k.castLE (by decide) }) hs
  exact ⟨h1, h2, h3, h4, h5, h6, h7⟩

/-! ### What the blocks leave in their registers -/

theorem foldl_getElem_set {α : Type} {n : Nat} (v : Fin n → α) (l : List (Fin n)) (w : Vector α n) (k : Fin n) :
    (l.foldl (fun w k => w.set k (v k)) w)[k] = if k ∈ l then v k else w[k] := by
  induction l generalizing w with
  | nil => simp
  | cons j l ih =>
    rw [List.foldl_cons, ih]
    by_cases hl : k ∈ l
    · simp [hl]
    · by_cases hk : k = j
      · subst hk; simp [hl]
      · have hne : j.val ≠ k.val := fun h => hk (Fin.ext h.symm)
        simp [hl, hk, hne]

/-- Every element written once, the vector is the values. -/
theorem foldl_set_finRange {α : Type} {n : Nat} (v : Fin n → α) (w : Vector α n) :
    (List.finRange n).foldl (fun w k => w.set k (v k)) w = Vector.ofFn v := by
  ext k hk
  have h := foldl_getElem_set v (List.finRange n) w ⟨k, hk⟩
  simpa using h

section
variable {ι : Type} {g : ι → State → State}

/-- A register that each turn of a loop maps is mapped by the loop. -/
theorem foldl_register {β : Type} (r : State → β) (f : β → ι → β) (hg : ∀ k s, r (g k s) = f (r s) k) (l : List ι)
    (s : State) : r (l.foldl (fun s k => g k s) s) = l.foldl f (r s) := by
  induction l generalizing s with
  | nil => rfl
  | cons k l ih => rw [List.foldl_cons, ih, hg, List.foldl_cons]

end

/-- Bytes read between a block's clearing of the CRC and its last PHASE write. -/
theorem Transfer.block {vs : List Byte} {as : List Answer} {es : List Event} {c : Byte} {q : Phase} {s t : State}
    (h : Transfer vs as es (setCrc c s) t) : Transfer vs as es s (setPhase q t) :=
  ⟨h.status, h.faults, h.trace, h.rxraw, h.rxdata, h.snValid, h.spValid⟩

/-- `ReadBlock(SN, 8, 8)` (spec/43_sequences.md R161). -/
def didReadSn (v : Fin 8 → Byte) (as : Fin 8 → List Answer) (s : State) : State :=
  setPhase .idle ((List.finRange 8).foldl (fun s k => storedSn (v k) (as k) k s) (setCrc Config.crcInitValue s))

/-- `ReadBlock(SP, 9, 8)` (spec/43_sequences.md R161). -/
def didReadSp (v : Fin 9 → Byte) (as : Fin 9 → List Answer) (s : State) : State :=
  setPhase .idle ((List.finRange 9).foldl (fun s k => storedSp (v k) (as k) k s) (setCrc Config.crcInitValue s))

section
variable (v : Fin 8 → Byte) (as : Fin 8 → List Answer) (s : State)

theorem didReadSn_transfer (hs : s.phase = .exchanging) :
    Transfer ((List.finRange 8).map v) ((List.finRange 8).flatMap as) ((List.finRange 8).flatMap fun k => byteEvents 0xFF (as k))
      s (didReadSn v as s) := by
  exact (Transfer.foldl (s := setCrc Config.crcInitValue s) (fun _ _ => rfl)
    (fun k s => storedSn_transfer (v k) (as k) k s) (List.finRange 8) hs).block

theorem didReadSn_sn : (didReadSn v as s).sn = Vector.ofFn v := by
  rw [didReadSn, setPhase_sn, foldl_register State.sn (fun w (k : Fin 8) => w.set k (v k)) (fun _ _ => rfl)]
  exact foldl_set_finRange v s.sn

theorem didReadSn_crc : (didReadSn v as s).crc = crc8 (List.ofFn v) := by
  rw [didReadSn, setPhase_crc, foldl_register State.crc (fun c k => crcStep c (v k)) (fun _ _ => rfl)]
  rfl

end

section
variable (v : Fin 9 → Byte) (as : Fin 9 → List Answer) (s : State)

theorem didReadSp_transfer (hs : s.phase = .exchanging) :
    Transfer ((List.finRange 9).map v) ((List.finRange 9).flatMap as) ((List.finRange 9).flatMap fun k => byteEvents 0xFF (as k))
      s (didReadSp v as s) := by
  exact (Transfer.foldl (s := setCrc Config.crcInitValue s) (fun _ _ => rfl)
    (fun k s => storedSp_transfer (v k) (as k) k s) (List.finRange 9) hs).block

theorem didReadSp_sp : (didReadSp v as s).sp = Vector.ofFn v := by
  rw [didReadSp, setPhase_sp, foldl_register State.sp (fun w (k : Fin 9) => w.set k (v k)) (fun _ _ => rfl)]
  exact foldl_set_finRange v s.sp

theorem didReadSp_crc : (didReadSp v as s).crc = crc8 ((List.ofFn v).take 8) := by
  rw [didReadSp, setPhase_crc, foldl_register State.crc (fun c k => if k.val < 8 then crcStep c (v k) else c)
    (fun _ _ => rfl)]
  rfl

end

/-! ### The sequences, where they succeed -/

theorem checkPhase_buffers (b : Bool) (s : State) :
    (checkPhase b s).sn = s.sn ∧ (checkPhase b s).sp = s.sp ∧ (checkPhase b s).crc = s.crc := by
  cases b <;> exact ⟨rfl, rfl, rfl⟩

section
variable {p : EchoPolicy} {as : List Answer} {bits : List Bool}

theorem bytecnt_succeeds (k : Fin 10) : Succeeds p [] (doing fun s => { s with bytecnt := k }) fun s => { s with bytecnt := k } :=
  Succeeds.doing (fun _ => rfl) (fun _ => rfl) (fun _ => rfl) (fun _ => rfl) (fun _ => rfl)

theorem storedSn_succeeds (k : Fin 8) {rs : List Bool} (hl : as.length = 8) (hb : answerBits p as = some rs) :
    Succeeds p as (andThen (doing fun s => { s with bytecnt := k.castLE (by decide) }) (andThen procReadByte
      (doing fun s => { s with sn := s.sn.set k s.rxdata, crc := crcStep s.crc s.rxdata })))
      (storedSn (BitVec.ofNat 8 (bitsValue rs)) as k) := by
  have hstore : Succeeds p [] (doing fun s => { s with sn := s.sn.set k s.rxdata, crc := crcStep s.crc s.rxdata }) _ :=
    Succeeds.doing (fun _ => rfl) (fun _ => rfl) (fun _ => rfl) (fun _ => rfl) (fun _ => rfl)
  have h := (bytecnt_succeeds (k.castLE (by decide))).andThen ((procReadByte_succeeds hl hb).andThen hstore)
  rw [List.nil_append, List.append_nil] at h
  refine Succeeds.congr (fun s => ?_) h
  obtain ⟨hsn, -, hcrc⟩ := checkPhase_buffers (s.phase == .exchanging) { s with bytecnt := k.castLE (by decide) }
  exact congrArg₂ (fun (w : Vector Byte 8) (c : Byte) =>
    { didReadByte (BitVec.ofNat 8 (bitsValue rs)) as { s with bytecnt := k.castLE (by decide) } with
      sn := w.set k (BitVec.ofNat 8 (bitsValue rs)), crc := crcStep c (BitVec.ofNat 8 (bitsValue rs)) }) hsn hcrc

theorem storedSp_succeeds (k : Fin 9) {rs : List Bool} (hl : as.length = 8) (hb : answerBits p as = some rs) :
    Succeeds p as (andThen (doing fun s => { s with bytecnt := k.castLE (by decide) }) (andThen procReadByte
      (doing fun s =>
        { s with sp := s.sp.set k s.rxdata, crc := if k.val < 8 then crcStep s.crc s.rxdata else s.crc })))
      (storedSp (BitVec.ofNat 8 (bitsValue rs)) as k) := by
  have hstore : Succeeds p [] (doing fun s =>
      { s with sp := s.sp.set k s.rxdata, crc := if k.val < 8 then crcStep s.crc s.rxdata else s.crc }) _ :=
    Succeeds.doing (fun _ => rfl) (fun _ => rfl) (fun _ => rfl) (fun _ => rfl) (fun _ => rfl)
  have h := (bytecnt_succeeds (k.castLE (by decide))).andThen ((procReadByte_succeeds hl hb).andThen hstore)
  rw [List.nil_append, List.append_nil] at h
  refine Succeeds.congr (fun s => ?_) h
  obtain ⟨-, hsp, hcrc⟩ := checkPhase_buffers (s.phase == .exchanging) { s with bytecnt := k.castLE (by decide) }
  exact congrArg₂ (fun (w : Vector Byte 9) (c : Byte) =>
    { didReadByte (BitVec.ofNat 8 (bitsValue rs)) as { s with bytecnt := k.castLE (by decide) } with
      sp := w.set k (BitVec.ofNat 8 (bitsValue rs)),
      crc := if k.val < 8 then crcStep c (BitVec.ofNat 8 (bitsValue rs)) else c }) hsp hcrc

theorem markSn_succeeds (b : Bool) : Succeeds p [] (doing fun s => { s with snValid := b }) fun s => { s with snValid := b } :=
  Succeeds.doing (fun _ => rfl) (fun _ => rfl) (fun _ => rfl) (fun _ => rfl) (fun _ => rfl)

theorem markSp_succeeds (b : Bool) : Succeeds p [] (doing fun s => { s with spValid := b }) fun s => { s with spValid := b } :=
  Succeeds.doing (fun _ => rfl) (fun _ => rfl) (fun _ => rfl) (fun _ => rfl) (fun _ => rfl)

theorem clearCrc_succeeds : Succeeds p [] (doing (setCrc Config.crcInitValue)) (setCrc Config.crcInitValue) :=
  Succeeds.doing (fun _ => rfl) (fun _ => rfl) (fun _ => rfl) (fun _ => rfl) (fun _ => rfl)

theorem setPhase_succeeds (q : Phase) : Succeeds p [] (doing (setPhase q)) (setPhase q) :=
  Succeeds.doing (fun _ => rfl) (fun _ => rfl) (fun _ => rfl) (fun _ => rfl) (fun _ => rfl)

theorem procReadBlockSn_succeeds {as : Fin 8 → List Answer} {rs : Fin 8 → List Bool} (hl : ∀ k, (as k).length = 8)
    (hb : ∀ k, answerBits p (as k) = some (rs k)) :
    Succeeds p ((List.finRange 8).flatMap as) procReadBlockSn (didReadSn (fun k => BitVec.ofNat 8 (bitsValue (rs k))) as) := by
  have h := clearCrc_succeeds.andThen
    ((Succeeds.forEach (fun k => storedSn_succeeds k (hl k) (hb k)) (List.finRange 8)).andThen (setPhase_succeeds .idle))
  rwa [List.nil_append, List.append_nil] at h

theorem procReadBlockSp_succeeds {as : Fin 9 → List Answer} {rs : Fin 9 → List Bool} (hl : ∀ k, (as k).length = 8)
    (hb : ∀ k, answerBits p (as k) = some (rs k)) :
    Succeeds p ((List.finRange 9).flatMap as) procReadBlockSp (didReadSp (fun k => BitVec.ofNat 8 (bitsValue (rs k))) as) := by
  have h := clearCrc_succeeds.andThen
    ((Succeeds.forEach (fun k => storedSp_succeeds k (hl k) (hb k)) (List.finRange 9)).andThen (setPhase_succeeds .idle))
  rwa [List.nil_append, List.append_nil] at h

/-- SEQ_READ_ROM before its test of the CRC (spec/43_sequences.md R162). -/
def romRead (e : Byte) (as : List Answer) (bits : List Bool) (s : State) : State :=
  didReadSn (fun k => byteAt bits (k.val + 1)) (fun k => chunk as (k.val + 1))
    (wroteByte Config.readRomCommand (as.take 8) (didReset e { s with snValid := false }))

/-- SEQ_READ_SCRATCHPAD before its test of the CRC (spec/43_sequences.md R164). -/
def scratchpadRead (e : Byte) (as : List Answer) (bits : List Bool) (s : State) : State :=
  didReadSp (fun k => byteAt bits (k.val + 2)) (fun k => chunk as (k.val + 2))
    (wroteByte Config.readScratchpadCommand ((as.drop 8).take 8)
      (wroteByte Config.skipRomCommand (as.take 8) (didReset e { s with spValid := false })))

section
variable {s : State} {e : Byte}

theorem procReadRom_eq (he : e ≠ 0xF0) (hl : as.length = 72) (hb : answerBits p as = some bits) (hs : Calm p s)
    (hn : Next s (.byte e :: as)) : procReadRom s = checkSn (romRead e as bits s) := by
  have h := (markSn_succeeds false).andThen ((procReset_succeeds he).andThen
    ((procWriteByte_succeeds Config.readRomCommand (by simp [hl]) (answerBits_take 8 hb)).andThen
      (procReadBlockSn_succeeds (as := fun k => chunk as (k.val + 1)) (rs := fun k => chunk bits (k.val + 1))
        (fun k => chunk_length (n := 9) (by simp [hl]) (by omega)) (fun k => answerBits_chunk _ hb))))
  rw [append_flatMap_chunk as (m := 1) (n := 8) (by simp [hl])] at h
  have hproc : procReadRom = andThen (andThen (doing fun s => { s with snValid := false }) (andThen procReset
      (andThen (procWriteByte Config.readRomCommand) procReadBlockSn))) checkSn := by
    simp only [andThen_assoc]
    rfl
  rw [hproc, h.andThen_eq hs hn]
  rfl

theorem procReadScratchpad_eq (he : e ≠ 0xF0) (hl : as.length = 88) (hb : answerBits p as = some bits) (hs : Calm p s)
    (hn : Next s (.byte e :: as)) : procReadScratchpad s = checkSp (scratchpadRead e as bits s) := by
  have h := (markSp_succeeds false).andThen ((procReset_succeeds he).andThen
    ((procWriteByte_succeeds Config.skipRomCommand (by simp [hl]) (answerBits_take 8 hb)).andThen
      ((procWriteByte_succeeds Config.readScratchpadCommand (by simp [hl]) (answerBits_take 8 (answerBits_drop 8 hb))).andThen
        (procReadBlockSp_succeeds (as := fun k => chunk as (k.val + 2)) (rs := fun k => chunk bits (k.val + 2))
          (fun k => chunk_length (n := 11) (by simp [hl]) (by omega)) (fun k => answerBits_chunk _ hb)))))
  rw [← List.append_assoc (as.take 8), ← List.take_add, append_flatMap_chunk as (m := 2) (n := 9) (by simp [hl])] at h
  have hproc : procReadScratchpad = andThen (andThen (doing fun s => { s with spValid := false }) (andThen procReset
      (andThen (procWriteByte Config.skipRomCommand) (andThen (procWriteByte Config.readScratchpadCommand)
        procReadBlockSp)))) checkSp := by
    simp only [andThen_assoc]
    rfl
  rw [hproc, h.andThen_eq hs hn]
  rfl

end

end

/-! ### What the sequences leave, where they succeed -/

section
variable {s : State} {e : Byte} {as : List Answer} {bits : List Bool}

theorem byteEvents_length (d : Byte) (h : as.length = 8) : (byteEvents d as).length = 26 := by
  match as, h with
  | [_, _, _, _, _, _, _, _], _ => rfl

/-- The events of reading n bytes, after those of m bytes that share the answers. -/
def blockEvents (as : List Answer) (m n : Nat) : List Event :=
  (List.range n).flatMap fun k => byteEvents 0xFF ((as.drop (8 * (k + m))).take 8)

theorem blockEvents_length {m n : Nat} (h : as.length = 8 * (m + n)) : (blockEvents as m n).length = 26 * n := by
  have hlen : ∀ k ∈ List.range n, (byteEvents 0xFF ((as.drop (8 * (k + m))).take 8)).length = 26 := fun k hk =>
    byteEvents_length 0xFF (chunk_length h (by rw [List.mem_range] at hk; omega))
  rw [blockEvents, List.length_flatMap, List.map_congr_left hlen]
  simp [mul_comm]

theorem next_of_nextAnswers {n : Nat} (h : nextAnswers n s = as) : Next s as := by
  subst h; simp [Next]

theorem romRead_sn : (romRead e as bits s).sn = Vector.ofFn fun k => byteAt bits (k.val + 1) := didReadSn_sn _ _ _

theorem romRead_crc : (romRead e as bits s).crc = crc8 (romRead e as bits s).sn.toList := by
  rw [romRead_sn, Vector.toList_ofFn]; exact didReadSn_crc _ _ _

theorem romRead_transfer (hl : as.length = 72) :
    Transfer ((List.finRange 8).map fun k => byteAt bits (k.val + 1)) (.byte e :: as)
      (resetEvents (.byte e) ++ byteEvents 0x33 (as.take 8) ++ blockEvents as 1 8) { s with snValid := false }
      (romRead e as bits s) := by
  have h := ((didReset_transfer e { s with snValid := false }).trans (wroteByte_transfer 0x33 (as.take 8) (.inl rfl))).trans
    (didReadSn_transfer (fun k => byteAt bits (k.val + 1)) (fun k => chunk as (k.val + 1)) _ rfl)
  rwa [List.append_assoc [_], append_flatMap_chunk as (m := 1) (n := 8) (by simp [hl]),
    flatMap_finRange (fun k => byteEvents 0xFF (chunk as (k + 1)))] at h

theorem scratchpadRead_sp : (scratchpadRead e as bits s).sp = Vector.ofFn fun k => byteAt bits (k.val + 2) := didReadSp_sp _ _ _

theorem scratchpadRead_crc : (scratchpadRead e as bits s).crc = crc8 ((scratchpadRead e as bits s).sp.toList.take 8) := by
  rw [scratchpadRead_sp, Vector.toList_ofFn]; exact didReadSp_crc _ _ _

theorem scratchpadRead_transfer (hl : as.length = 88) :
    Transfer ((List.finRange 9).map fun k => byteAt bits (k.val + 2)) (.byte e :: as)
      (resetEvents (.byte e) ++ byteEvents 0xCC (as.take 8) ++ byteEvents 0xBE ((as.drop 8).take 8) ++ blockEvents as 2 9)
      { s with spValid := false } (scratchpadRead e as bits s) := by
  have h := (((didReset_transfer e { s with spValid := false }).trans (wroteByte_transfer 0xCC (as.take 8) (.inl rfl))).trans
    (wroteByte_transfer 0xBE ((as.drop 8).take 8) (.inr rfl))).trans
    (didReadSp_transfer (fun k => byteAt bits (k.val + 2)) (fun k => chunk as (k.val + 2)) _ rfl)
  rwa [List.append_assoc [_], ← List.take_add, List.append_assoc [_], append_flatMap_chunk as (m := 2) (n := 9) (by simp [hl]),
    flatMap_finRange (fun k => byteEvents 0xFF (chunk as (k + 2)))] at h

theorem next_accept {n : Nat} (h : nextAnswers n s = as) (w : Word) : Next (accept w s) as :=
  Next.congr (s := s) rfl rfl (next_of_nextAnswers h)

/-! ### The tests of the CRC, and the end of the command -/

/-- SEQ_READ_ROM finished after its test of the CRC (spec/43_sequences.md R162). -/
def snChecked (t : State) : State :=
  finish (if t.crc = 0x00 then .ok else .checksumMismatch) { t with snValid := if t.crc = 0x00 then true else t.snValid }

/-- A sequence that reads SP finished after its test of the CRC (spec/43_sequences.md R164). -/
def spChecked (t : State) : State :=
  finish (if t.crc = t.sp[8] then .ok else .checksumMismatch) { t with spValid := if t.crc = t.sp[8] then true else t.spValid }

theorem finish_checkSn (t : State) : finish (checkSn t).1 (checkSn t).2 = snChecked t := by
  unfold checkSn snChecked
  by_cases h : t.crc = 0x00
  · rw [if_neg (not_not.mpr h), if_pos h, if_pos h]
  · rw [if_pos h, if_neg h, if_neg h]

theorem finish_checkSp (t : State) : finish (checkSp t).1 (checkSp t).2 = spChecked t := by
  unfold checkSp spChecked
  by_cases h : t.crc = t.sp[8]
  · rw [if_neg (not_not.mpr h), if_pos h, if_pos h]
  · rw [if_pos h, if_neg h, if_neg h]

section
variable (t : State)

@[simp] theorem snChecked_sn : (snChecked t).sn = t.sn := rfl
@[simp] theorem snChecked_trace : (snChecked t).trace = t.trace := rfl
@[simp] theorem snChecked_snValid : (snChecked t).snValid = if t.crc = 0x00 then true else t.snValid := rfl
@[simp] theorem spChecked_sp : (spChecked t).sp = t.sp := rfl
@[simp] theorem spChecked_trace : (spChecked t).trace = t.trace := rfl
@[simp] theorem spChecked_spValid : (spChecked t).spValid = if t.crc = t.sp[8] then true else t.spValid := rfl

end

/-- A command that leaves STATUS as its acceptance made it has finished with its code (spec/40_codec.md R100, R101). -/
theorem finishedWith_finish {c : Result} {t : State} (h : t.status = withOvr false (withBusy true s.status)) :
    FinishedWith c s (finish c t) := by
  simp [FinishedWith, h]

theorem snChecked_finishedWith {t : State} (h : t.status = withOvr false (withBusy true s.status)) :
    FinishedWith (if t.crc = 0x00 then .ok else .checksumMismatch) s (snChecked t) :=
  finishedWith_finish h

theorem spChecked_finishedWith {t : State} (h : t.status = withOvr false (withBusy true s.status)) :
    FinishedWith (if t.crc = t.sp[8] then .ok else .checksumMismatch) s (spChecked t) :=
  finishedWith_finish h

theorem exec_seqReadRom (hs : Ready s) (hn : nextAnswers 73 s = .byte e :: as) (he : e ≠ 0xF0)
    (hb : answerBits s.policy as = some bits) :
    exec .seqReadRom s = .next (snChecked (romRead e as bits (accept (encode .seqReadRom) s))) := by
  have hl : as.length = 72 := by simpa using (congrArg List.length hn).symm
  rw [exec_of_agrees (i := .seqReadRom) readRom_agrees hs, procReadRom_eq he hl hb (calm_accept hs _) (next_accept hn _),
    finish_checkSn]

theorem exec_seqReadScratchpad (hs : Ready s) (hn : nextAnswers 89 s = .byte e :: as) (he : e ≠ 0xF0)
    (hb : answerBits s.policy as = some bits) :
    exec .seqReadScratchpad s = .next (spChecked (scratchpadRead e as bits (accept (encode .seqReadScratchpad) s))) := by
  have hl : as.length = 88 := by simpa using (congrArg List.length hn).symm
  rw [exec_of_agrees (i := .seqReadScratchpad) readScratchpad_agrees hs,
    procReadScratchpad_eq he hl hb (calm_accept hs _) (next_accept hn _), finish_checkSp]

end

theorem getLastD_map_finRange {n : Nat} (v : Fin (n + 1) → Byte) (d : Byte) :
    ((List.finRange (n + 1)).map v).getLastD d = v (Fin.last n) := by
  simp [List.finRange_succ_last]

/-- Settles O49: the body is `procReadRom`, which reads up to its test of the CRC as `romRead` says. -/
theorem readRomResult : Obligations.ReadRomResult := by
  intro s e as bits hs hn he hb
  have hl : as.length = 72 := by simpa using (congrArg List.length hn).symm
  refine ⟨_, exec_seqReadRom hs hn he hb, ?_⟩
  have h := romRead_transfer (s := accept (encode .seqReadRom) s) (e := e) (bits := bits) hl
  have hsn := romRead_sn (s := accept (encode .seqReadRom) s) (e := e) (as := as) (bits := bits)
  have hcrc := romRead_crc (s := accept (encode .seqReadRom) s) (e := e) (as := as) (bits := bits)
  have hphase : (romRead e as bits (accept (encode .seqReadRom) s)).phase = .idle := rfl
  generalize romRead e as bits (accept (encode .seqReadRom) s) = t at *
  have htrace : t.trace = s.trace ++ (resetEvents (.byte e) ++ byteEvents 0x33 (as.take 8) ++ blockEvents as 1 8) := h.trace
  simp only [snChecked_sn, ← hcrc]
  refine ⟨fun k => by simp [hsn], rfl, ?_, h.rxraw, snChecked_finishedWith h.status, ?_, hphase, h.faults, ?_, ?_⟩
  · exact h.rxdata.trans ((getLastD_map_finRange _ _).trans (by simp [hsn]))
  · rw [snChecked_snValid, h.snValid]
    by_cases hc : t.crc = 0x00 <;> simp [hc]
  · simpa only [snChecked_trace, blockEvents, List.append_assoc] using htrace
  · rw [snChecked_trace, htrace]
    simp [byteEvents_length, blockEvents_length, hl, resetEvents]

/-- Settles O50: the body is `procReadScratchpad`, which reads up to its test of the CRC as `scratchpadRead` says. -/
theorem readScratchpadResult : Obligations.ReadScratchpadResult := by
  intro s e as bits hs hn he hb
  have hl : as.length = 88 := by simpa using (congrArg List.length hn).symm
  refine ⟨_, exec_seqReadScratchpad hs hn he hb, ?_⟩
  have h := scratchpadRead_transfer (s := accept (encode .seqReadScratchpad) s) (e := e) (bits := bits) hl
  have hsp := scratchpadRead_sp (s := accept (encode .seqReadScratchpad) s) (e := e) (as := as) (bits := bits)
  have hcrc := scratchpadRead_crc (s := accept (encode .seqReadScratchpad) s) (e := e) (as := as) (bits := bits)
  have hphase : (scratchpadRead e as bits (accept (encode .seqReadScratchpad) s)).phase = .idle := rfl
  generalize scratchpadRead e as bits (accept (encode .seqReadScratchpad) s) = t at *
  have htrace : t.trace = s.trace ++ (resetEvents (.byte e) ++ byteEvents 0xCC (as.take 8) ++
    byteEvents 0xBE ((as.drop 8).take 8) ++ blockEvents as 2 9) := h.trace
  simp only [spChecked_sp, ← hcrc]
  refine ⟨fun k => by simp [hsp], rfl, ?_, h.rxraw, spChecked_finishedWith h.status, ?_, hphase, h.faults, ?_, ?_⟩
  · exact h.rxdata.trans ((getLastD_map_finRange _ _).trans (by simp [hsp]))
  · rw [spChecked_spValid, h.spValid]
    by_cases hc : t.crc = t.sp[8] <;> simp [hc]
  · simpa only [spChecked_trace, blockEvents, List.append_assoc] using htrace
  · rw [spChecked_trace, htrace]
    simp [byteEvents_length, blockEvents_length, hl, resetEvents]

end Sys2Proof.Machine

/-! # A flipped bit on the bus

spec/41_crc8.md R120, 43_sequences.md R169: the CRC tells apart two lists that differ in one byte, so SEQ_POLL_READ sees a flip. -/

namespace Sys2Proof.Machine

/-! ### The CRC tells lists apart that differ in one byte -/

/-- `crcShift` undone: the polynomial's top bit shows whether it was added. -/
def crcUnshift (v : Byte) : Byte := if v.getLsbD 7 then (v ^^^ Config.crcPoly) <<< 1 ||| 0x01 else v <<< 1

theorem crcUnshift_crcShift (v : Byte) : crcUnshift (crcShift v) = v := by revert v; decide +kernel

theorem crcShifts_injective (n : Nat) : Function.Injective (crcShifts n) := by
  induction n with
  | zero => exact fun _ _ h => h
  | succ n ih => exact fun _ _ h => Function.LeftInverse.injective crcUnshift_crcShift (ih h)

theorem crcStep_injective_left (b : Byte) : Function.Injective (crcStep · b) := fun _ _ h =>
  (BitVec.xor_left_inj b).mp (crcShifts_injective 8 h)

theorem crcStep_injective_right (acc : Byte) : Function.Injective (crcStep acc) := fun _ _ h =>
  (BitVec.xor_right_inj acc).mp (crcShifts_injective 8 h)

theorem foldl_crcStep_injective (l : List Byte) : Function.Injective fun acc => l.foldl crcStep acc := by
  induction l with
  | nil => exact fun _ _ h => h
  | cons b l ih => exact fun _ _ h => crcStep_injective_left b (ih h)

theorem crc8_modify_ne {l : List Byte} {f : Byte → Byte} {k : Nat} (hk : k < l.length) (hf : ∀ d, f d ≠ d) :
    crc8 (l.modify k f) ≠ crc8 l := by
  intro h
  have hsplit : l = l.take k ++ l[k] :: l.drop (k + 1) := by rw [← List.drop_eq_getElem_cons hk, List.take_append_drop]
  have hfold : (l.take k ++ f l[k] :: l.drop (k + 1)).foldl crcStep Config.crcInitValue =
      (l.take k ++ l[k] :: l.drop (k + 1)).foldl crcStep Config.crcInitValue := by
    rw [← List.modify_eq_take_cons_drop hk, ← hsplit]
    exact h
  rw [List.foldl_append, List.foldl_append] at hfold
  exact hf l[k] (crcStep_injective_right _ (foldl_crcStep_injective _ hfold))

theorem flip_ne (j : Fin 8) (d : Byte) : d ^^^ ((0x01 : Byte) <<< j.val) ≠ d := by
  have hbit : (0x01 : Byte) <<< j.val ≠ 0 := by revert j; decide
  exact fun h => hbit ((BitVec.xor_right_inj d).mp (h.trans BitVec.xor_zero.symm))

/-! ### The bytes that an echo carries -/

theorem answerBit_encodeBit (p : EchoPolicy) (b : Bool) : answerBit p (.byte (encodeBit b)) = some b := by
  cases p <;> cases b <;> rfl

theorem answerBits_echoes (p : EchoPolicy) (d : Byte) : answerBits p (echoes d) = some (sentBits d) := by
  rw [answerBits_iff, echoes, List.map_map]
  exact List.map_congr_left fun b _ => answerBit_encodeBit p b

theorem answerBits_flatMap_echoes (p : EchoPolicy) (l : List Byte) :
    answerBits p (l.flatMap echoes) = some (l.flatMap sentBits) := by
  induction l with
  | nil => rfl
  | cons d l ih => exact answerBits_append (answerBits_echoes p d) ih

theorem sentBits_length (d : Byte) : (sentBits d).length = 8 := by simp [sentBits]

/-- The bits of a byte make the byte (spec/20_memory.md R55, 42_transaction.md R144). -/
theorem bitsValue_sentBits (d : Byte) : BitVec.ofNat 8 (bitsValue (sentBits d)) = d := by
  revert d; decide +kernel

theorem chunk_flatMap_sentBits (l : List Byte) {k : Nat} (hk : k < l.length) : chunk (l.flatMap sentBits) k = sentBits l[k] := by
  induction l generalizing k with
  | nil => exact absurd hk (by simp)
  | cons d l ih =>
    cases k with
    | zero => simp [chunk, sentBits_length]
    | succ k =>
      rw [List.getElem_cons_succ, ← ih (by simpa using hk), chunk, chunk, List.flatMap_cons, Nat.mul_succ, Nat.add_comm,
        ← List.drop_drop, List.drop_left' (sentBits_length d)]

/-- Byte k + m of bits whose first m bytes are some commands' is byte k of what follows. -/
theorem byteAt_append_flatMap_sentBits {bits : List Bool} {l : List Byte} {m k : Nat} (hm : bits.length = 8 * m)
    (hk : k < l.length) : byteAt (bits ++ l.flatMap sentBits) (k + m) = l[k] := by
  have hdrop : (bits ++ l.flatMap sentBits).drop (8 * (k + m)) = (l.flatMap sentBits).drop (8 * k) := by
    rw [Nat.mul_add, Nat.add_comm, ← List.drop_drop, List.drop_left' hm]
  rw [byteAt, hdrop]
  exact (congrArg (fun b => BitVec.ofNat 8 (bitsValue b)) (chunk_flatMap_sentBits l hk)).trans (bitsValue_sentBits _)

/-! ### A poll that finds the device ready -/

section
variable {p : EchoPolicy} {s : State} {a : Answer} {r : Bool} {e : Byte} {as : List Answer} {bits : List Bool}

/-- `OW_READ_BIT_body` that reads r (spec/40_codec.md R108). -/
def didReadBit (a : Answer) (r : Bool) (s : State) : State := bitExchanged true .toRxdata a r (selected .high s)

theorem procReadBit_succeeds (ha : answerBit p a = some r) : Succeeds p [a] procReadBit (didReadBit a r) :=
  (procSelect_succeeds .high).andThen (procExchange_succeeds true .toRxdata ha)

/-- A ready poll goes on with the scratchpad (spec/43_sequences.md R165). -/
theorem procPollRead_ready (ha : answerBit p a = some true) (he : e ≠ 0xF0) (hl : as.length = 88)
    (hb : answerBits p as = some bits) (hs : Calm p s) (hn : Next s (a :: .byte e :: as)) :
    procPollRead s = checkSp (scratchpadRead e as bits (didReadBit a true { s with spValid := false })) := by
  have h := (markSp_succeeds (p := p) false).andThen (procReadBit_succeeds ha)
  obtain ⟨-, hcalm, hnext⟩ := h s (.byte e :: as) hs hn
  have hproc : procPollRead = andThen (andThen (doing fun s => { s with spValid := false }) procReadBit)
      fun s => if s.rxdata = 0x00 then (.busyConverting, s) else procReadScratchpad s := by
    rw [andThen_assoc]; rfl
  have hone : (didReadBit a true { s with spValid := false }).rxdata ≠ 0x00 := show zext8 true ≠ 0x00 by decide
  rw [hproc, h.andThen_eq hs hn.of_append (as := [a]), if_neg hone, procReadScratchpad_eq he hl hb hcalm hnext]

theorem exec_seqPollRead_ready (hs : Ready s) (hn : nextAnswers 90 s = a :: .byte e :: as)
    (ha : answerBit s.policy a = some true) (he : e ≠ 0xF0) (hb : answerBits s.policy as = some bits) :
    exec .seqPollRead s = .next (spChecked (scratchpadRead e as bits
      (didReadBit a true { accept (encode .seqPollRead) s with spValid := false }))) := by
  have hl : as.length = 88 := by simpa using (congrArg List.length hn).symm
  rw [exec_of_agrees (i := .seqPollRead) pollRead_agrees hs,
    procPollRead_ready ha he hl hb (calm_accept hs _) (next_accept hn _), finish_checkSp]

end

/-- A scratchpad of eight bytes and a ninth that is not their CRC fails the test. -/
theorem spChecked_mismatch {s t : State} {l : List Byte} {c : Byte} (hl : l.length = 8) (hc : crc8 l ≠ c)
    (hsp : t.sp.toList = l ++ [c]) (hcrc : t.crc = crc8 (t.sp.toList.take 8))
    (hstatus : t.status = withOvr false (withBusy true s.status)) (hv : t.spValid = false) :
    FinishedWith .checksumMismatch s (spChecked t) ∧ (spChecked t).spValid = false := by
  have hlast : t.sp[8] = c := by
    rw [← Vector.getElem_toList (by simp)]
    simp [hsp, hl]
  have hne : t.crc ≠ t.sp[8] := by
    rw [hcrc, hlast, hsp, List.take_left' hl]; exact hc
  have hfin := spChecked_finishedWith hstatus
  rw [if_neg hne] at hfin
  exact ⟨hfin, by rw [spChecked_spValid, if_neg hne, hv]⟩

/-- Settles O54: what is read is the flipped bytes and the CRC of the bytes before the flip, which is not theirs. -/
theorem flippedBitGivesChecksumMismatch : Obligations.FlippedBitGivesChecksumMismatch := by
  intro s p e cmds cmdBits data k j hs hp he hcl hcb hdl hn
  generalize hbytes : data.modify k.val (fun d => d ^^^ ((0x01 : Byte) <<< j.val)) = flipped at hn
  have hfl : flipped.length = 8 := by rw [← hbytes, List.length_modify, hdl]
  have hne : crc8 flipped ≠ crc8 data := hbytes ▸ crc8_modify_ne (by omega) (flip_ne j)
  have hb := answerBits_append hcb (answerBits_flatMap_echoes s.policy (flipped ++ [crc8 data]))
  have hl : (cmds ++ (flipped ++ [crc8 data]).flatMap echoes).length = 88 := by
    simpa using (congrArg List.length hn).symm
  refine ⟨_, exec_seqPollRead_ready hs hn hp he hb, ?_⟩
  generalize hu : didReadBit p true { accept (encode .seqPollRead) s with spValid := false } = u
  have h := scratchpadRead_transfer (s := u) (e := e) (bits := cmdBits ++ (flipped ++ [crc8 data]).flatMap sentBits) hl
  refine spChecked_mismatch hfl hne ?_ scratchpadRead_crc (h.status.trans (by rw [← hu]; rfl)) h.spValid
  rw [scratchpadRead_sp, Vector.toList_ofFn]
  refine List.ext_getElem (by simp [hfl]) fun n h1 h2 => ?_
  rw [List.getElem_ofFn]
  exact byteAt_append_flatMap_sentBits ((answerBits_length hcb).trans hcl) h2

end Sys2Proof.Machine

/-! # Bytes on the bus and the register read port

spec/20_memory.md R51, R52, R53, R55 and spec/42_transaction.md R142 to R144: what a byte command whose echoes all decode leaves
on a ready block, what each address of the register map reads, and that a read changes nothing but what the host has been given. -/

namespace Sys2Proof.Machine

/-! ### A byte command that succeeds -/

section
variable {s : State} {as : List Answer}

/-- On a ready block a command whose body is a procedure that succeeds finishes with OK after that procedure's effect. -/
theorem exec_of_succeeds {i : Instr} {f : Proc} {g : State → State} {n : Nat} (hf : Agrees (bodyOf i) f)
    (hg : Succeeds s.policy as f g) (hs : Ready s) (hn : nextAnswers n s = as) :
    exec i s = .next (finish .ok (g (accept (encode i) s))) := by
  have hnext : Next (accept (encode i) s) (as ++ []) := (List.append_nil as).symm ▸ next_accept hn _
  obtain ⟨hf', -, -⟩ := hg _ [] (calm_accept hs _) hnext
  rw [exec_of_agrees hf hs, hf']

variable {bits : List Bool}

theorem exec_owWriteByte (d : Byte) (hs : Ready s) (hn : nextAnswers 8 s = as) (hb : answerBits s.policy as = some bits) :
    exec (.owWriteByte d) s = .next (finish .ok (wroteByte d as (accept (encode (.owWriteByte d)) s))) := by
  have hl : as.length = 8 := hn ▸ nextAnswers_length 8 s
  exact exec_of_succeeds (i := .owWriteByte d) (writeByte_agrees d) (procWriteByte_succeeds d hl hb) hs hn

theorem exec_owReadByte (hs : Ready s) (hn : nextAnswers 8 s = as) (hb : answerBits s.policy as = some bits) :
    exec .owReadByte s =
      .next (finish .ok (didReadByte (BitVec.ofNat 8 (bitsValue bits)) as (accept (encode .owReadByte) s))) := by
  have hl : as.length = 8 := hn ▸ nextAnswers_length 8 s
  exact exec_of_succeeds (i := .owReadByte) readByte_agrees (procReadByte_succeeds hl hb) hs hn

end

/-- The PHASE test of a byte command writes no register and makes no event (spec/42_transaction.md R147). -/
theorem checkPhase_registers (allowed : Bool) (s : State) :
    (checkPhase allowed s).status = s.status ∧ (checkPhase allowed s).trace = s.trace ∧
      (checkPhase allowed s).rxraw = s.rxraw ∧ (checkPhase allowed s).rxdata = s.rxdata := by
  cases allowed <;> exact ⟨rfl, rfl, rfl, rfl⟩

/-- In whatever PHASE it begins, a written byte leaves STATUS and RXDATA, and its exchanges are in the trace and in RXRAW. -/
theorem wroteByte_registers (d : Byte) (as : List Answer) (s : State) :
    (wroteByte d as s).status = s.status ∧ (wroteByte d as s).trace = s.trace ++ byteEvents d as ∧
      (wroteByte d as s).rxraw = rawAfter s.rxraw as ∧ (wroteByte d as s).rxdata = s.rxdata := by
  obtain ⟨hstatus, htrace, hraw, hdata⟩ := checkPhase_registers (s.phase == .addressed || s.phase == .exchanging) s
  exact ⟨hstatus, congrArg (· ++ _) htrace, congrArg (rawAfter · as) hraw, hdata⟩

/-- In whatever PHASE it begins, a byte read leaves STATUS, and its exchanges are in the trace and in RXRAW. -/
theorem didReadByte_registers (v : Byte) (as : List Answer) (s : State) :
    (didReadByte v as s).status = s.status ∧ (didReadByte v as s).trace = s.trace ++ byteEvents 0xFF as ∧
      (didReadByte v as s).rxraw = rawAfter s.rxraw as := by
  obtain ⟨hstatus, htrace, hraw, -⟩ := checkPhase_registers (s.phase == .exchanging) s
  exact ⟨hstatus, congrArg (· ++ _) htrace, congrArg (rawAfter · as) hraw⟩

theorem bitsValue_lt (bits : List Bool) : bitsValue bits < 2 ^ bits.length := by
  induction bits with
  | nil => simp [bitsValue]
  | cons b bits ih =>
    have hbit : (if b then 1 else 0) ≤ 1 := by cases b <;> simp
    rw [bitsValue, List.length_cons, pow_succ]
    omega

/-- Settles O39: the body is `procWriteByte`, which succeeds as `wroteByte` says. -/
theorem writeByteResult : Obligations.WriteByteResult := by
  intro s d as bits hs hn hb
  refine ⟨_, exec_owWriteByte d hs hn hb, ?_⟩
  obtain ⟨hstatus, htrace, hraw, hdata⟩ := wroteByte_registers d as (accept (encode (.owWriteByte d)) s)
  exact ⟨finishedWith_finish hstatus, htrace, hraw, hdata, rfl, rfl⟩

/-- Settles O40: the body is `procReadByte`, which succeeds as `didReadByte` says, and eight bits fit a byte. -/
theorem readByteResult : Obligations.ReadByteResult := by
  intro s as bits hs hn hb
  have hl : bits.length = 8 := (answerBits_length hb).trans (hn ▸ nextAnswers_length 8 s)
  have hlt : bitsValue bits < 2 ^ 8 := hl ▸ bitsValue_lt bits
  refine ⟨_, exec_owReadByte hs hn hb, ?_⟩
  obtain ⟨hstatus, htrace, hraw⟩ :=
    didReadByte_registers (BitVec.ofNat 8 (bitsValue bits)) as (accept (encode .owReadByte) s)
  exact ⟨finishedWith_finish hstatus, htrace, (BitVec.toNat_ofNat _ _).trans (Nat.mod_eq_of_lt hlt), hraw, rfl, rfl⟩

/-! ### The register map -/

theorem regRead_sn (s : State) (i : Fin 8) : regRead (BitVec.ofNat 8 (0x08 + i.val)) s = s.sn[i] := by
  have haddr : (BitVec.ofNat 8 (0x08 + i.val)).toNat = 0x08 + i.val := Nat.mod_eq_of_lt (by omega)
  simp only [regRead, haddr]
  rw [if_neg (by omega), if_neg (by omega), if_neg (by omega), if_neg (by omega), if_pos (by omega)]
  simp [Vector.getD]

theorem regRead_sp (s : State) (i : Fin 9) : regRead (BitVec.ofNat 8 (0x10 + i.val)) s = s.sp[i] := by
  have haddr : (BitVec.ofNat 8 (0x10 + i.val)).toNat = 0x10 + i.val := Nat.mod_eq_of_lt (by omega)
  simp only [regRead, haddr]
  rw [if_neg (by omega), if_neg (by omega), if_neg (by omega), if_neg (by omega), if_neg (by omega), if_pos (by omega)]
  simp [Vector.getD]

theorem regRead_reserved (s : State) (a : Byte) (h : (0x04 ≤ a.toNat ∧ a.toNat ≤ 0x07) ∨ 0x19 ≤ a.toNat) :
    regRead a s = 0x00 := by
  simp only [regRead]
  rw [if_neg (by omega), if_neg (by omega), if_neg (by omega), if_neg (by omega), if_neg (by omega), if_neg (by omega)]

theorem getD_replicate {α : Type} (n k : Nat) (v : α) : (Vector.replicate n v).getD k v = v := by
  by_cases hk : k < n <;> simp [Vector.getD, hk]

/-- Each branch of the map gives 0x00 after reset: the registers and the elements of the two buffers hold it. -/
theorem regRead_reset (a : Byte) : regRead a State.reset = 0x00 := by
  simp only [regRead, State.reset, getD_replicate, ite_self]

/-- Settles O16, address range by address range. -/
theorem registerMapReads : Obligations.RegisterMapReads :=
  ⟨fun _ => ⟨rfl, rfl, rfl, rfl⟩, regRead_sn, regRead_sp, regRead_reserved, regRead_reset⟩

/-! ### Register reads -/

/-- An input that is due and no command word lands, whether the block is idle or busy. -/
theorem step_of_land {s : State} {i : Input} {rest : List Input} (hin : s.inputs = i :: rest) (hd : inputDue s = true)
    (hc : ∀ w, i ≠ .command w) : step s = .next (land i { s with inputs := rest }) := by
  have hpop : s.popInput = { s with inputs := rest } := by simp [State.popInput, hin]
  cases i with
  | command w => exact absurd rfl (hc w)
  | _ => simp [step, hin, hd, hpop]

/-- Settles O17: a read is due at once and lands as `hostRead`, which writes only what the host has been given. -/
theorem registerReadHasNoSideEffect : Obligations.RegisterReadHasNoSideEffect := by
  intro s a rest hin
  have hdue : inputDue s = true := by simp [inputDue, hin]
  exact ⟨_, step_of_land hin hdue (by simp), rfl, fun _ => rfl⟩

end Sys2Proof.Machine

/-! # Command words

spec/30_encoding.md R70 to R74, R80: the encoder and the decoder undo each other, the opcode map selects the words of the
commands and no others, and how many those are. -/

namespace Sys2Proof.Machine

/-! ### A word and the command it decodes to -/

/-- Settles O1, field by field. -/
theorem decodeOfEncodeIsTheCommand : Obligations.DecodeOfEncodeIsTheCommand := decodeWord_encode

theorem cmd16_fields (w : Word) : cmd16 (opField w) (aField w) (dField w) = w := by
  have htop : w.extractLsb' 12 4 ++ w.extractLsb' 8 4 = w.extractLsb' 8 8 :=
    BitVec.extractLsb'_append_extractLsb'_eq_extractLsb' rfl
  have hall : w.extractLsb' 8 8 ++ w.extractLsb' 0 8 = w.extractLsb' 0 16 :=
    BitVec.extractLsb'_append_extractLsb'_eq_extractLsb' rfl
  rw [cmd16, opField, aField, dField, htop, hall]
  exact BitVec.extractLsb'_eq_self

/-- A word is made of given fields exactly when it has them (spec/30_encoding.md R70). -/
theorem cmd16_eq_iff {op a : BitVec 4} {d : Byte} {w : Word} :
    cmd16 op a d = w ↔ opField w = op ∧ aField w = a ∧ dField w = d := by
  constructor
  · rintro rfl
    exact ⟨opField_cmd16 op a d, aField_cmd16 op a d, dField_cmd16 op a d⟩
  · rintro ⟨rfl, rfl, rfl⟩
    exact cmd16_fields w

theorem ifReservedZero_eq_ok {z : Bool} {i j : Instr} : ifReservedZero z i = .ok j ↔ z = true ∧ i = j := by
  cases z <;> simp [ifReservedZero]

theorem decodeWord_eq_some {w : Word} {i : Instr} : decodeWord w = some i ↔ decode w = .ok i := by
  cases h : decode w <;> simp [decodeWord, h]

/-- A[0] is all of an A field whose reserved bits are zero (spec/30_encoding.md R70). -/
theorem bitArgument_of_reservedZero : ∀ a : BitVec 4, a &&& 0xE = 0 → (if a.getLsbD 0 then 1 else 0) = a := by decide

/-- Settles O2: in each row of the decoder the opcode and the zero reserved fields leave the operand as all that is open, and
`encode` puts that back. -/
theorem encodeOfDecodeIsTheWord : Obligations.EncodeOfDecodeIsTheWord := by
  intro w i h
  rw [decodeWord_eq_some] at h
  unfold decode at h
  split at h
  case h_14 => cases h
  all_goals
    rename_i hop
    obtain ⟨hz, rfl⟩ := ifReservedZero_eq_ok.mp h
    simp only [Bool.and_eq_true, beq_iff_eq] at hz
  case h_3 => exact cmd16_eq_iff.mpr ⟨BitVec.eq_of_toNat_eq hop, (bitArgument_of_reservedZero _ hz.1).symm, hz.2⟩
  case h_5 | h_8 => exact cmd16_eq_iff.mpr ⟨BitVec.eq_of_toNat_eq hop, hz, rfl⟩
  all_goals exact cmd16_eq_iff.mpr ⟨BitVec.eq_of_toNat_eq hop, hz⟩

theorem decodeWord_iff_encode {w : Word} {i : Instr} : decodeWord w = some i ↔ encode i = w :=
  ⟨encodeOfDecodeIsTheWord w i, fun h => h ▸ decodeWord_encode i⟩

theorem encode_injective : Function.Injective encode := fun i j h =>
  Option.some.inj ((decodeWord_encode i).symm.trans (h ▸ decodeWord_encode j))

theorem exists_encode_iff_isSome {w : Word} : (∃ i, encode i = w) ↔ (decodeWord w).isSome = true := by
  simp only [← decodeWord_iff_encode, Option.isSome_iff_exists]

/-- Settles O5, word by word. -/
theorem wordsOfTheSpecDecode : Obligations.WordsOfTheSpecDecode := by
  unfold Obligations.WordsOfTheSpecDecode
  decide

/-! ### The opcode map -/

section
variable {r : OpcodeRow} {w : Word}

theorem selects_iff : r.selects w = true ↔ w &&& r.mask = r.pattern := by
  simp [OpcodeRow.selects]

/-- A selected word meets the row field by field. -/
theorem fields_of_selects (h : r.selects w = true) :
    opField w &&& opField r.mask = opField r.pattern ∧ aField w &&& aField r.mask = aField r.pattern ∧
      dField w &&& dField r.mask = dField r.pattern := by
  rw [← selects_iff.mp h]
  exact ⟨BitVec.extractLsb'_and.symm, BitVec.extractLsb'_and.symm, BitVec.extractLsb'_and.symm⟩

theorem opcodeMap_masks_opcode : ∀ r ∈ opcodeMap, opField r.mask = 0xF := by decide

theorem opcodeMap_opcodes_nodup : (opcodeMap.map fun r => opField r.pattern).Nodup := by decide

theorem mem_rowsOf : r ∈ rowsOf w ↔ r ∈ opcodeMap ∧ r.selects w = true := List.mem_filter

theorem opField_of_mem_rowsOf (h : r ∈ rowsOf w) : opField r.pattern = opField w := by
  obtain ⟨hr, hs⟩ := mem_rowsOf.mp h
  obtain ⟨hop, -, -⟩ := fields_of_selects hs
  rw [← hop, opcodeMap_masks_opcode r hr]
  exact BitVec.and_allOnes

/-- Two rows that select one word would share its opcode, which differs between any two rows. -/
theorem rowsOf_length_le_one (w : Word) : (rowsOf w).length ≤ 1 := by
  have hsame : (rowsOf w).map (fun r => opField r.pattern) = List.replicate (rowsOf w).length (opField w) :=
    (List.map_congr_left fun r hr => opField_of_mem_rowsOf hr).trans (List.map_const' ..)
  have hnodup : ((rowsOf w).map fun r => opField r.pattern).Nodup :=
    opcodeMap_opcodes_nodup.sublist (List.filter_sublist.map _)
  exact List.nodup_replicate.mp (hsame ▸ hnodup)

theorem validWord_iff : validWord w = true ↔ ∃ r ∈ opcodeMap, r.selects w = true := by
  have hle := rowsOf_length_le_one w
  have hpos : (∃ r ∈ opcodeMap, r.selects w = true) ↔ 0 < (rowsOf w).length := by
    simp only [List.length_pos_iff_exists_mem, mem_rowsOf]
  rw [hpos, validWord, beq_iff_eq]
  omega

/-- The shapes of a row: the word of one command, or one of the three rows with an operand. -/
theorem opcodeMap_shapes : ∀ r ∈ opcodeMap, (r.mask = 0xFFFF ∧ (decodeWord r.pattern).isSome = true) ∨
    (r.mask = 0xFEFF ∧ r.pattern = 0x2000) ∨ (r.mask = 0xFF00 ∧ (r.pattern = 0x4000 ∨ r.pattern = 0x7000)) := by
  decide

/-- What a row selects is the word of a command: the operand is what the mask leaves open. -/
theorem exists_encode_of_selects (hr : r ∈ opcodeMap) (hs : r.selects w = true) : ∃ i, encode i = w := by
  obtain ⟨hop, ha, hd⟩ := fields_of_selects hs
  have hop : opField w = opField r.pattern := (opField_of_mem_rowsOf (mem_rowsOf.mpr ⟨hr, hs⟩)).symm
  rcases opcodeMap_shapes r hr with ⟨hm, hsome⟩ | ⟨hm, hp⟩ | ⟨hm, hp | hp⟩
  · have hw : w = r.pattern := by rw [← selects_iff.mp hs, hm]; exact BitVec.and_allOnes.symm
    exact exists_encode_iff_isSome.mpr (hw ▸ hsome)
  all_goals rw [hm, hp] at ha; rw [hm, hp] at hd; rw [hp] at hop
  · exact ⟨.owWriteBit ((aField w).getLsbD 0),
      cmd16_eq_iff.mpr ⟨hop, (bitArgument_of_reservedZero _ ha).symm, BitVec.and_allOnes.symm.trans hd⟩⟩
  · exact ⟨.owWriteByte (dField w), cmd16_eq_iff.mpr ⟨hop, BitVec.and_allOnes.symm.trans ha, rfl⟩⟩
  · exact ⟨.crcUpdate (dField w), cmd16_eq_iff.mpr ⟨hop, BitVec.and_allOnes.symm.trans ha, rfl⟩⟩

end

theorem validWord_encode : ∀ i : Instr, validWord (encode i) = true
  | .nop => Laws.EncodeValid.nop
  | .owReset => Laws.EncodeValid.owReset
  | .owWriteBit v => Laws.EncodeValid.owWriteBit v
  | .owReadBit => Laws.EncodeValid.owReadBit
  | .owWriteByte d => Laws.EncodeValid.owWriteByte d
  | .owReadByte => Laws.EncodeValid.owReadByte
  | .crcInit => Laws.EncodeValid.crcInit
  | .crcUpdate d => Laws.EncodeValid.crcUpdate d
  | .seqReadRom => Laws.EncodeValid.seqReadRom
  | .seqConvert => Laws.EncodeValid.seqConvert
  | .seqReadScratchpad => Laws.EncodeValid.seqReadScratchpad
  | .seqPollRead => Laws.EncodeValid.seqPollRead
  | .seqBlockingRead => Laws.EncodeValid.seqBlockingRead

theorem exists_encode_iff_validWord {w : Word} : (∃ i, encode i = w) ↔ validWord w = true := by
  constructor
  · rintro ⟨i, rfl⟩
    exact validWord_encode i
  · intro h
    obtain ⟨r, hr, hs⟩ := validWord_iff.mp h
    exact exists_encode_of_selects hr hs

/-- Settles O3: both the decoder and the map accept exactly the words of the commands. -/
theorem decoderAcceptsExactlyTheOpcodeMap : Obligations.DecoderAcceptsExactlyTheOpcodeMap := fun w =>
  ⟨rowsOf_length_le_one w, exists_encode_iff_isSome.symm.trans exists_encode_iff_validWord⟩

/-! ### Counting the words -/

/-- The ten commands without an operand. -/
def bareCommand : Fin 10 → Instr :=
  ![.nop, .owReset, .owReadBit, .owReadByte, .crcInit, .seqReadRom, .seqConvert, .seqReadScratchpad, .seqPollRead,
    .seqBlockingRead]

/-- Every command once: the bare ones by number, the others by their operand (spec/30_encoding.md R74). -/
def commandOf : Fin 10 ⊕ Bool ⊕ Byte ⊕ Byte → Instr :=
  Sum.elim bareCommand (Sum.elim .owWriteBit (Sum.elim .owWriteByte .crcUpdate))

theorem commandOf_injective : Function.Injective commandOf := by
  have hbare : Function.Injective bareCommand := by decide
  have hbit : Function.Injective Instr.owWriteBit := fun _ _ => Instr.owWriteBit.inj
  have hbyte : Function.Injective Instr.owWriteByte := fun _ _ => Instr.owWriteByte.inj
  have hcrc : Function.Injective Instr.crcUpdate := fun _ _ => Instr.crcUpdate.inj
  refine hbare.sumElim (hbit.sumElim (hbyte.sumElim hcrc nofun) ?_) ?_
  · rintro v (d | d) <;> nofun
  · intro k
    fin_cases k <;> rintro (v | d | d) <;> nofun

theorem commandOf_surjective : Function.Surjective commandOf := by
  have hbare : ∀ k, ∃ c, commandOf c = bareCommand k := fun k => ⟨.inl k, rfl⟩
  intro i
  cases i with
  | nop => exact hbare 0
  | owReset => exact hbare 1
  | owReadBit => exact hbare 2
  | owReadByte => exact hbare 3
  | crcInit => exact hbare 4
  | seqReadRom => exact hbare 5
  | seqConvert => exact hbare 6
  | seqReadScratchpad => exact hbare 7
  | seqPollRead => exact hbare 8
  | seqBlockingRead => exact hbare 9
  | owWriteBit v => exact ⟨.inr (.inl v), rfl⟩
  | owWriteByte d => exact ⟨.inr (.inr (.inl d)), rfl⟩
  | crcUpdate d => exact ⟨.inr (.inr (.inr d)), rfl⟩

theorem validWord_iff_commandOf {w : Word} : validWord w = true ↔ ∃ c, decodeWord w = some (commandOf c) := by
  simp only [← exists_encode_iff_validWord, commandOf_surjective.exists, decodeWord_iff_encode]

theorem card_bitVec (n : Nat) : Fintype.card (BitVec n) = 2 ^ n :=
  (Fintype.card_congr BitVec.equivFin.toEquiv).trans (Fintype.card_fin _)

/-- Distinct commands have distinct words, so a family of commands has as many words as members. -/
theorem card_words {α : Type} [Fintype α] {f : α → Instr} (hf : Function.Injective f)
    [DecidablePred fun w : Word => ∃ a, decodeWord w = some (f a)] :
    (Finset.univ.filter fun w : Word => ∃ a, decodeWord w = some (f a)).card = Fintype.card α := by
  have himage : (Finset.univ.filter fun w : Word => ∃ a, decodeWord w = some (f a)) = Finset.univ.image (encode ∘ f) := by
    ext w
    simp [decodeWord_iff_encode]
  rw [himage, Finset.card_image_of_injective _ (encode_injective.comp hf), Finset.card_univ]

theorem card_validWord : (Finset.univ.filter fun w : Word => validWord w = true).card = 524 := by
  classical
  simp only [validWord_iff_commandOf]
  rw [card_words commandOf_injective]
  simp [card_bitVec]

theorem card_illegalWord : (Finset.univ.filter fun w : Word => validWord w = false).card = 65012 := by
  have hcompl : (Finset.univ.filter fun w : Word => validWord w = false) =
      (Finset.univ.filter fun w : Word => validWord w = true)ᶜ := by
    ext w
    simp
  rw [hcompl, Finset.card_compl, card_validWord, card_bitVec]
  norm_num

/-- Settles O4: the words of each kind are as many as its operands, and the illegal words are the rest. -/
theorem validWordsAreCounted : Obligations.ValidWordsAreCounted :=
  ⟨card_validWord, card_illegalWord, by decide, card_words fun _ _ => Instr.owWriteBit.inj,
    (card_words fun _ _ => Instr.owWriteByte.inj).trans (card_bitVec 8),
    (card_words fun _ _ => Instr.crcUpdate.inj).trans (card_bitVec 8)⟩

end Sys2Proof.Machine

/-! # The codec and the spec's pseudocode

spec/40_codec.md R100 to R109: acceptance, the slot bytes, and the bit commands, whose exchange ends the command where its answer
decodes to no bit. Then every meaning as its procedure (spec/40_codec.md to 43_sequences.md), one turn of SEQ_BLOCKING_READ's poll
loop among them (Log 7). -/

namespace Sys2Proof.Machine

/-! ### Acceptance -/

theorem exec_of_idle (i : Instr) {s : State} (hb : s.busy = false) :
    exec i s = .next (conclude (run (bodyOf i) (accept (encode i) s))) := by
  rw [exec_eq_issue, issue, hb, if_neg Bool.false_ne_true]

/-- Settles O10: the body leaves STATUS and CUR as the acceptance made them, and only `finish` writes RESULT after it. -/
theorem acceptanceKeepsTheOldResult : Obligations.AcceptanceKeepsTheOldResult := by
  intro s i hb
  refine ⟨_, exec_of_idle i hb, ?_⟩
  obtain ⟨hstatus, hcur, -⟩ := run_untouched (bodyOf i) (accept (encode i) s)
  rcases conclude_cases (run (bodyOf i) (accept (encode i) s)) with ⟨c, hc⟩ | ⟨t, ht, hc⟩ <;> rw [hc]
  · simp [hstatus, hcur]
  · rw [ht] at hstatus hcur
    have hstatus : t.status = (accept (encode i) s).status := hstatus
    exact ⟨hcur, by simp [hstatus], by simp [hstatus], fun _ => by simp [hstatus], by simp [State.busy, hstatus]⟩

/-- Settles O30: NOP's body is empty, so its acceptance is finished at once. -/
theorem nopFinishesOk : Obligations.NopFinishesOk := fun s hb =>
  ⟨finish .ok (accept (encode .nop) s), exec_of_idle .nop hb, finishedWith_finish rfl, rfl⟩

/-! ### Echo decoding -/

theorem decodeEcho_bit1Byte (p : EchoPolicy) : decodeEcho p Config.bit1Byte = .bit true := if_pos rfl

theorem decodeEcho_aliasZero {e : Byte} (he : e ≠ Config.bit1Byte) : decodeEcho .aliasZero e = .bit false := if_neg he

theorem decodeEcho_lineError {e : Byte} (he : e ≠ Config.bit1Byte) (he' : e ≠ Config.bit0Byte) :
    decodeEcho .lineError e = .line :=
  (if_neg he).trans (if_neg he')

theorem decodeEcho_encodeBit (p : EchoPolicy) (b : Bool) : decodeEcho p (encodeBit b) = .bit b := by
  cases b with
  | true => exact decodeEcho_bit1Byte p
  | false => cases p <;> rfl

/-- Settles O29. -/
theorem slotBytesAndEchoDecoding : Obligations.SlotBytesAndEchoDecoding :=
  ⟨rfl, rfl, decodeEcho_bit1Byte, fun _ => decodeEcho_aliasZero, decodeEcho_encodeBit .lineError false,
    fun _ => decodeEcho_lineError, decodeEcho_encodeBit⟩

section
variable {p : EchoPolicy} {a : Answer} {c : Result}

/-- An answer decodes to a bit, or it is a failure with its code (spec/40_codec.md R104, R107). -/
theorem answer_cases (p : EchoPolicy) (a : Answer) :
    (∃ b, answerBit p a = some b ∧ answerFailure p a = none) ∨
      (∃ c, answerBit p a = none ∧ answerFailure p a = some c) := by
  cases a with
  | err => exact .inr ⟨.transportError, rfl, rfl⟩
  | byte e =>
    cases h : decodeEcho p e with
    | bit b => exact .inl ⟨b, by simp [answerBit, h], by simp [answerFailure, h]⟩
    | line => exact .inr ⟨.lineError, by simp [answerBit, h], by simp [answerFailure, h]⟩

/-- The two failures of an exchange: ERR, and an echo that is LINE. -/
theorem answerFailure_eq_some (h : answerFailure p a = some c) :
    (a = .err ∧ c = .transportError) ∨ ∃ e, a = .byte e ∧ decodeEcho p e = .line ∧ c = .lineError := by
  cases a with
  | err => exact .inl ⟨rfl, (Option.some.inj h).symm⟩
  | byte e =>
    cases hd : decodeEcho p e with
    | bit b => simp [answerFailure, hd] at h
    | line => exact .inr ⟨e, rfl, hd, by simpa [answerFailure, hd] using h.symm⟩

theorem answerFailure_ne_ok (h : answerFailure p a = some c) : c ≠ .ok := by
  rcases answerFailure_eq_some h with ⟨-, rfl⟩ | ⟨e, -, -, rfl⟩ <;> exact nofun

end

/-! ### Procedures that fail -/

/-- Where the answers to come begin with as, the procedure returns c, which is not OK, and has done g. -/
def Fails (p : EchoPolicy) (as : List Answer) (c : Result) (f : Proc) (g : State → State) : Prop :=
  c ≠ .ok ∧ ∀ s, Calm p s → Next s as → f s = (c, g s)

section
variable {p : EchoPolicy} {s : State} {as bs : List Answer} {c : Result} {f f' : Proc} {g g' : State → State}

/-- A failure leaves the rest undone (spec/43_sequences.md R160). -/
theorem Fails.andThen (h : Fails p as c f g) (f' : Proc) : Fails p as c (Machine.andThen f f') g := by
  refine ⟨h.1, fun s hs hn => ?_⟩
  rw [Machine.andThen, h.2 s hs hn]
  cases c
  case ok => exact absurd rfl h.1
  all_goals rfl

theorem Succeeds.andThen_fails (h : Succeeds p as f g) (h' : Fails p bs c f' g') :
    Fails p (as ++ bs) c (Machine.andThen f f') fun s => g' (g s) := by
  refine ⟨h'.1, fun s hs hn => ?_⟩
  obtain ⟨-, hcalm, hnext⟩ := h s bs hs hn
  rw [h.andThen_eq hs hn.of_append, h'.2 _ hcalm hnext]

/-- On a ready block a command whose body is a procedure that fails finishes with its code. -/
theorem exec_of_fails {i : Instr} {n : Nat} (hf : Agrees (bodyOf i) f) (hg : Fails s.policy as c f g) (hs : Ready s)
    (hn : nextAnswers n s = as) : exec i s = .next (finish c (g (accept (encode i) s))) := by
  rw [exec_of_agrees hf hs, hg.2 _ (calm_accept hs _) (next_accept hn _)]

end

/-! ### The bit commands -/

section
variable {p : EchoPolicy} {s : State} {a : Answer} {c : Result} {r : Bool}

theorem recv_err_of_calm (hs : Calm p s) (ha : nextAnswer s = .err) : recv s = exchanged [.err] [.r .err] s := by
  have hi := countDown_of_undisturbed s hs.1.1
  simp [recv, record, consumeAnswer_eq, exchanged, hi, ha, rawAfter]

theorem send_record_of_calm (b : Bool) (hs : Calm p s) :
    send (encodeBit b) (record .w s) = exchanged [] [.w, .s (encodeBit b)] s := by
  rw [record_of_calm _ hs, send, record_of_calm (p := p) _ (calm_exchanged [.w] hs), exchanged_exchanged]
  rfl

/-- A bit exchange whose answer decodes to no bit: PHASE is IDLE (spec/40_codec.md R104, R107, spec/42_transaction.md R146). -/
def exchangeFailed (b : Bool) (a : Answer) (s : State) : State := setPhase .idle (exchanged [a] (slotEvents b a) s)

theorem procExchange_fails (b : Bool) (use : BitUse) (ha : answerFailure p a = some c) :
    Fails p [a] c (procExchange b use) (exchangeFailed b a) := by
  refine ⟨answerFailure_ne_ok ha, fun s hs hn => ?_⟩
  have hcalm : Calm p (exchanged [] [.w, .s (encodeBit b)] s) := calm_exchanged _ hs
  have hnext : nextAnswer (exchanged [] [.w, .s (encodeBit b)] s) = a :=
    (next_cons.mp (Next.exchanged (as := []) hn)).1
  rcases answerFailure_eq_some ha with ⟨rfl, rfl⟩ | ⟨e, rfl, hline, rfl⟩
  · simp only [procExchange, send_record_of_calm b hs, hnext, recv_err_of_calm hcalm hnext, exchanged_exchanged]
    rfl
  · have hdec : decodeEcho s.policy e = .line := hs.2 ▸ hline
    simp only [procExchange, send_record_of_calm b hs, hnext, hdec, setRxraw_recv_of_calm hcalm hnext, exchanged_exchanged]
    rfl

theorem procWriteBit_succeeds (v : Bool) (ha : answerBit p a = some r) :
    Succeeds p [a] (procWriteBit v) fun s => bitExchanged v .discard a r (selected .high s) :=
  (procSelect_succeeds .high).andThen (procExchange_succeeds v .discard ha)

/-- A bit command's body that fails, OW_READ_BIT's with b = 1 (spec/40_codec.md R107, R108). -/
def bitFailed (b : Bool) (a : Answer) (s : State) : State := exchangeFailed b a (selected .high s)

theorem procWriteBit_fails (v : Bool) (ha : answerFailure p a = some c) : Fails p [a] c (procWriteBit v) (bitFailed v a) :=
  (procSelect_succeeds .high).andThen_fails (procExchange_fails v .discard ha)

theorem procReadBit_fails (ha : answerFailure p a = some c) : Fails p [a] c procReadBit (bitFailed true a) :=
  (procSelect_succeeds .high).andThen_fails (procExchange_fails true .toRxdata ha)

/-- The five events of a bit command, whether its answer decodes or not. -/
theorem bitCommand_trace (b : Bool) (a : Answer) (s : State) :
    (exchanged [a] (slotEvents b a) (selected .high s)).trace =
      s.trace ++ [.w, .b .high, .w, .s (if b then 0xFF else 0x00), .r a] :=
  List.append_assoc s.trace [.w, .b .high] (slotEvents b a)

end

/-- Settles O31: `procWriteBit` succeeds or fails as the answer decodes. -/
theorem writeBitResult : Obligations.WriteBitResult := by
  intro s v hs
  rcases answer_cases s.policy (nextAnswer s) with ⟨r, hr, hok⟩ | ⟨c, -, hc⟩
  · rw [hok]
    exact ⟨_, exec_of_succeeds (i := .owWriteBit v) (n := 1) (writeBit_agrees v) (procWriteBit_succeeds v hr) hs rfl,
      bitCommand_trace v _ _, rfl, rfl, rfl, finishedWith_finish rfl, rfl⟩
  · rw [hc]
    exact ⟨_, exec_of_fails (i := .owWriteBit v) (n := 1) (writeBit_agrees v) (procWriteBit_fails v hc) hs rfl,
      bitCommand_trace v _ _, rfl, rfl, rfl, finishedWith_finish rfl, rfl⟩

/-- Settles O32: `procReadBit` succeeds or fails as the answer decodes. -/
theorem readBitResult : Obligations.ReadBitResult := by
  intro s hs
  rcases answer_cases s.policy (nextAnswer s) with ⟨r, hr, -⟩ | ⟨c, hnone, hc⟩
  · rw [hr]
    exact ⟨_, exec_of_succeeds (i := .owReadBit) (n := 1) readBit_agrees (procReadBit_succeeds hr) hs rfl,
      bitCommand_trace true _ _, rfl, rfl, finishedWith_finish rfl, rfl, rfl⟩
  · rw [hnone]
    exact ⟨_, exec_of_fails (i := .owReadBit) (n := 1) readBit_agrees (procReadBit_fails hc) hs rfl,
      bitCommand_trace true _ _, rfl, rfl, rfl, rfl, c, hc, finishedWith_finish rfl⟩

/-- SEQ_POLL_READ from its test of the poll bit on, as a turn of SEQ_BLOCKING_READ's loop has it (spec/43_sequences.md R165,
R166). -/
def procAfterPoll : Proc := fun s => if s.rxdata = 0x00 then (.busyConverting, s) else procReadScratchpad s

/-- Settles O52: SEQ_POLL_READ's poll is OW_READ_BIT's body, and its failure leaves the rest undone. -/
theorem pollReadEndsWithAFailedPollBit : Obligations.PollReadEndsWithAFailedPollBit := by
  intro s c hs hc
  have hfails := (markSp_succeeds (p := s.policy) false).andThen_fails ((procReadBit_fails hc).andThen procAfterPoll)
  exact ⟨_, exec_of_fails (i := .seqPollRead) (n := 1) pollRead_agrees hfails hs rfl, finishedWith_finish rfl,
    bitCommand_trace true _ _, rfl, rfl, rfl⟩

/-! ### Every meaning as its procedure -/

theorem stateOf_ofProc (r : Result × State) : stateOf (ofProc r) = r.2 := by
  obtain ⟨c, s⟩ := r
  cases c <;> rfl

theorem convert_agrees : Agrees seqConvertBody procConvert := by
  rw [seqConvertBody, List.append_assoc]
  exact reset_agrees.append ((writeByte_agrees _).append (writeByte_agrees _))

/-- Every body but SEQ_BLOCKING_READ's is its procedure. -/
theorem bodyOf_agrees {i : Instr} (hi : i ≠ .seqBlockingRead) : Agrees (bodyOf i) (procOf i) := by
  cases i with
  | nop => exact Agrees.nil
  | owReset => exact reset_agrees
  | owWriteBit v => exact writeBit_agrees v
  | owReadBit => exact readBit_agrees
  | owWriteByte d => exact writeByte_agrees d
  | owReadByte => exact readByte_agrees
  | crcInit => exact Agrees.silent rfl (fun _ => rfl) (fun _ => rfl) (fun _ => rfl)
  | crcUpdate d => exact Agrees.silent rfl (fun _ => rfl) (fun _ => rfl) (fun _ => rfl)
  | seqReadRom => exact readRom_agrees
  | seqConvert => exact convert_agrees
  | seqReadScratchpad => exact readScratchpad_agrees
  | seqPollRead => exact pollRead_agrees
  | seqBlockingRead => exact absurd rfl hi

/-! ### SEQ_BLOCKING_READ's poll loop -/

/-- The outcome of SEQ_BLOCKING_READ with one turn of its loop: a busy poll goes back to event 57 (spec/43_sequences.md R166;
Log 7). -/
def ofTurn (r : Result × State) : Progress :=
  if r.1 = .busyConverting then .paused { r.2 with seqpos := 57 } else ofProc r

theorem conclude_ofTurn (r : Result × State) : conclude (ofTurn r) = procDone .seqBlockingRead r := by
  unfold ofTurn procDone
  by_cases h : r.1 = .busyConverting
  · rw [if_pos h, if_pos ⟨rfl, h⟩]; rfl
  · rw [if_neg h, if_neg (fun hr => h hr.2)]; exact conclude_ofProc r

/-- A body runs as its procedure says, whose BUSY_CONVERTING is a busy poll of the loop. -/
def Turns (body : List Micro) (f : Proc) : Prop := ∀ s, Free s → run body s = ofTurn (f s)

section
variable {p q body : List Micro} {f g : Proc} {s t : State}

/-- BUSY_CONVERTING comes from SEQ_POLL_READ's test of the poll bit alone (spec/60_exceptions.md R210). -/
theorem pollTest_mem_of_run_ended (h : run body s = .ended .busyConverting t) : .pollTest ∈ body := by
  obtain ⟨m, hm, u, -, ha⟩ := run_ended body s t _ h
  have hc := (act_ended m u t _ ha).1
  generalize u.policy = e at hc
  cases m
  case pollTest => exact hm
  case recvBit => cases e <;> simp [endCodes] at hc
  all_goals simp [endCodes] at hc

theorem Agrees.turns (h : Agrees body f) (hb : .pollTest ∉ body) : Turns body f := by
  intro s hs
  have hrun := (h s hs).1
  have hne : (f s).1 ≠ .busyConverting := fun hc =>
    hb (pollTest_mem_of_run_ended (s := s) (t := (f s).2) (by rw [hrun, ← hc]; exact ofProc_of_ne _ _ (by simp [hc])))
  rw [hrun, ofTurn, if_neg hne]

/-- A body without the poll, and then one with it. -/
theorem Agrees.append_turns (hp : Agrees p f) (hn : .pollTest ∉ p) (hq : Turns q g) : Turns (p ++ q) (andThen f g) := by
  intro s hs
  have hturn := hp.turns hn s hs
  obtain ⟨hrun, hfree⟩ := hp s hs
  rcases hf : f s with ⟨c, t⟩
  rw [hf] at hrun hturn hfree
  by_cases hc : c = .ok
  · subst hc
    have hgo : andThen f g s = g t := by simp only [andThen, hf]
    rw [run_append, hrun, hgo]
    exact hq t hfree
  · have hstop : andThen f g s = (c, t) := by simp only [andThen, hf]
    rw [run_append, hstop, ← hturn, hrun, ofProc_of_ne c t hc, thenRun_ended]

end

theorem pollLoop_turns : Turns (.pollLoop 57 :: seqReadScratchpadBody) procAfterPoll := by
  intro s hs
  rw [run_cons, perform_silent _ s rfl, act, procAfterPoll]
  by_cases h : s.rxdata = 0x00
  · rw [if_pos h, if_pos h]; rfl
  · rw [if_neg h, if_neg h]
    exact readScratchpad_agrees.turns (by decide +kernel) s hs

theorem pollTurn_turns : Turns (owReadBitBody ++ .pollLoop 57 :: seqReadScratchpadBody) (andThen procReadBit procAfterPoll) :=
  readBit_agrees.append_turns (by decide +kernel) pollLoop_turns

/-- SEQ_BLOCKING_READ up to its loop (spec/43_sequences.md R166, with the ghost of Log 12). -/
def procMarkedConvert : Proc := andThen (doing fun s => { s with spValid := false }) procConvert

theorem markedConvert_agrees : Agrees ([.markSp false] ++ seqConvertBody) procMarkedConvert :=
  (markSp_agrees false).append convert_agrees

/-- SEQ_CONVERT leaves the ghost, so SP does not count as delivered when the loop begins. -/
theorem procMarkedConvert_spValid {s : State} (hs : Free s) : (procMarkedConvert s).2.spValid = false := by
  have hmark : run ([.markSp false] ++ seqConvertBody) s = run seqConvertBody { s with spValid := false } := run_silent rfl rfl
  have hkeep : Inner.spValid.same { s with spValid := false } (stateOf (run seqConvertBody { s with spValid := false })) :=
    run_inner .seqConvert (by decide) _
  rwa [← hmark, (markedConvert_agrees s hs).1, stateOf_ofProc] at hkeep

/-- The loop's turn is SEQ_POLL_READ's procedure, whose first write then changes nothing. -/
theorem procOf_seqBlockingRead {s : State} (hs : Free s) :
    procOf .seqBlockingRead s = andThen procMarkedConvert (andThen procReadBit procAfterPoll) s := by
  have hvalid := procMarkedConvert_spValid hs
  rw [procOf, ← andThen_assoc, ← procMarkedConvert, andThen, andThen]
  rcases hf : procMarkedConvert s with ⟨c, t⟩
  rw [hf] at hvalid
  cases c
  case ok =>
    have hsame : { t with spValid := false } = t := by rw [← hvalid]
    exact congrArg (andThen procReadBit procAfterPoll) hsame
  all_goals rfl

theorem blockingRead_turns : Turns seqBlockingReadBody (procOf .seqBlockingRead) := by
  intro s hs
  have hcount : eventCount seqConvertBody = 57 := by decide +kernel
  have hbody : seqBlockingReadBody =
      ([.markSp false] ++ seqConvertBody) ++ (owReadBitBody ++ .pollLoop 57 :: seqReadScratchpadBody) := by
    simp only [seqBlockingReadBody, hcount, List.append_assoc, List.cons_append, List.nil_append]
  rw [hbody, procOf_seqBlockingRead hs]
  exact markedConvert_agrees.append_turns (by decide +kernel) pollTurn_turns s hs

/-- Settles O15: every body is its procedure, and SEQ_BLOCKING_READ's is up to its first busy poll. -/
theorem meaningsAreTheSpecsPseudocode : Obligations.MeaningsAreTheSpecsPseudocode := by
  intro s i hs
  by_cases hi : i = .seqBlockingRead
  · subst hi
    rw [exec_of_idle _ hs.1, ← conclude_ofTurn, ← blockingRead_turns _ (free_accept hs _), bodyOf]
  · rw [exec_of_agrees (bodyOf_agrees hi) hs, procDone, if_neg fun h => hi h.1]

end Sys2Proof.Machine

/-! # The CRC engine

spec/41_crc8.md R120 to R127: crcStep and crc8 as functions, and the commands CRC_INIT and CRC_UPDATE, alone and as a program. -/

namespace Sys2Proof.Machine

/-! ### The step and the fold -/

theorem crcShifts_eq_iterate (n : Nat) : crcShifts n = crcShift^[n] := by
  induction n with
  | zero => rfl
  | succ n ih => rw [Function.iterate_succ, ← ih]; rfl

theorem crc8_append (xs ys : List Byte) : crc8 (xs ++ ys) = ys.foldl crcStep (crc8 xs) := List.foldl_append

/-- Settles O33: eight shifts are the shift iterated, and a fold over an appended byte is one more step. -/
theorem crcFunctionsAreTheSpecs : Obligations.CrcFunctionsAreTheSpecs :=
  ⟨fun acc b => congrFun (crcShifts_eq_iterate 8) (acc ^^^ b), rfl, fun xs b => crc8_append xs [b]⟩

/-! ### Linearity -/

/-- What an iteration XORs into the shifted accumulator whose low bit was `low` (spec/41_crc8.md R120). -/
def polyIf (low : Bool) : Byte := if low then Config.crcPoly else 0x00

theorem crcShift_eq (acc : Byte) : crcShift acc = acc >>> 1 ^^^ polyIf (acc.getLsbD 0) := by
  unfold crcShift polyIf
  split
  · rfl
  · exact BitVec.xor_zero.symm

theorem polyIf_xor (a b : Bool) : polyIf (a ^^ b) = polyIf a ^^^ polyIf b := by
  cases a <;> cases b <;> decide

/-- The shift is linear, and so is the low bit that decides whether the polynomial is added. -/
theorem crcShift_xor (x y : Byte) : crcShift (x ^^^ y) = crcShift x ^^^ crcShift y := by
  rw [crcShift_eq, crcShift_eq x, crcShift_eq y, BitVec.ushiftRight_xor_distrib, BitVec.getLsbD_xor, polyIf_xor]
  ac_rfl

theorem crcShifts_xor (n : Nat) (x y : Byte) : crcShifts n (x ^^^ y) = crcShifts n x ^^^ crcShifts n y := by
  induction n generalizing x y with
  | zero => rfl
  | succ n ih => rw [crcShifts, crcShift_xor, ih]; rfl

theorem crcStep_zero_left (b : Byte) : crcStep 0x00 b = crcShifts 8 b := congrArg (crcShifts 8) BitVec.zero_xor

/-- Settles O35: each shift is linear, so eight are, and the table is computed. -/
theorem crcStepIsLinear : Obligations.CrcStepIsLinear := by
  refine ⟨fun a b => (crcStep_zero_left (a ^^^ b)).symm, fun x y => ?_, by decide +kernel⟩
  simp only [crcStep_zero_left, crcShifts_xor]

/-! ### The two validation forms -/

/-- A byte folded into itself leaves the accumulator clear (spec/41_crc8.md R123). -/
theorem crcStep_self (c : Byte) : crcStep c c = 0x00 := by
  rw [crcStep, BitVec.xor_self]
  decide

theorem crcStep_eq_zero_iff (acc c : Byte) : crcStep acc c = 0x00 ↔ acc = c :=
  ⟨fun h => crcStep_injective_left c (h.trans (crcStep_self c).symm), fun h => h ▸ crcStep_self acc⟩

theorem crc8_append_singleton_eq_zero_iff (xs : List Byte) (c : Byte) : crc8 (xs ++ [c]) = 0x00 ↔ crc8 xs = c := by
  rw [crc8_append]
  exact crcStep_eq_zero_iff (crc8 xs) c

/-- Settles O34: the last step clears the accumulator exactly where its byte is what the steps before it left. -/
theorem crcValidationFormsAgree : Obligations.CrcValidationFormsAgree :=
  ⟨fun xs => (crc8_append_singleton_eq_zero_iff xs _).mpr rfl, crc8_append_singleton_eq_zero_iff⟩

/-! ### The commands -/

/-- A command accepted by s and finished with OK, with v in CRC (spec/41_crc8.md R125, R126). -/
def didSetCrc (i : Instr) (v : Byte) (s : State) : State := finish .ok (setCrc v (accept (encode i) s))

theorem exec_crcInit {s : State} (hb : s.busy = false) : exec .crcInit s = .next (didSetCrc .crcInit 0x00 s) :=
  exec_of_idle .crcInit hb

theorem exec_crcUpdate {s : State} (d : Byte) (hb : s.busy = false) :
    exec (.crcUpdate d) s = .next (didSetCrc (.crcUpdate d) (crcStep s.crc d) s) :=
  exec_of_idle (.crcUpdate d) hb

theorem finishedWith_didSetCrc (i : Instr) (v : Byte) (s : State) : FinishedWith .ok s (didSetCrc i v s) :=
  finishedWith_finish rfl

/-- Settles O36: either body is one write of CRC, so the acceptance is finished at once. -/
theorem crcCommandsResult : Obligations.CrcCommandsResult := fun s hb =>
  ⟨⟨_, exec_crcInit hb, finishedWith_didSetCrc .crcInit 0x00 s, rfl⟩,
    fun d => ⟨_, exec_crcUpdate d hb, finishedWith_didSetCrc (.crcUpdate d) (crcStep s.crc d) s, rfl⟩⟩

/-! ### The program -/

theorem run_succ_of_step {M : Host.Core} {s t : M.State} (n : Nat) (h : M.step s = .next t) :
    M.run (n + 1) s = M.run n t := by
  rw [Host.Core.run, h]

/-- A run takes the command whose word is next, and goes on from what its meaning leaves. -/
theorem run_succ_of_command {s t : State} {i : Instr} {rest : List Input} (n : Nat)
    (hin : s.inputs = .command (encode i) :: rest) (ht : exec i { s with inputs := rest } = .next t) :
    Host.Core.run core (n + 1) s = Host.Core.run core n t :=
  run_succ_of_step n ((stepRunsTheDecodedCommand s _ i rest hin (decodeWord_encode i)).trans ht)

/-- The words of CRC_UPDATE for some bytes, written back to back. -/
abbrev crcUpdates (bytes : List Byte) : List Input := bytes.map fun d => .command (encode (.crcUpdate d))

/-- One step per byte folds the bytes into CRC, from an idle block whose RESULT is OK already. -/
theorem run_crcUpdates {s : State} (bytes : List Byte) (hb : s.busy = false) (hr : statusResult s.status = 0)
    (hin : s.inputs = crcUpdates bytes) :
    ∃ t, Host.Core.run core bytes.length s = .next t ∧ t.crc = bytes.foldl crcStep s.crc ∧ t.busy = false ∧
      statusResult t.status = 0 ∧ t.trace = s.trace ∧ t.inputs = [] := by
  induction bytes generalizing s with
  | nil => exact ⟨s, rfl, rfl, hb, hr, rfl, hin⟩
  | cons d ds ih =>
    rw [List.length_cons, run_succ_of_command _ hin (exec_crcUpdate d hb)]
    obtain ⟨hbusy, -, hresult, -⟩ :=
      finishedWith_didSetCrc (.crcUpdate d) (crcStep s.crc d) { s with inputs := crcUpdates ds }
    exact ih hbusy hresult rfl

/-- Settles O37: CRC_INIT leaves the fold's initial value in CRC, and the bytes are folded in from there. -/
theorem crcProgramComputesCrc8 : Obligations.CrcProgramComputesCrc8 := by
  intro s bytes hb hin
  rw [run_succ_of_command _ hin (exec_crcInit hb)]
  obtain ⟨hbusy, -, hresult, -⟩ := finishedWith_didSetCrc .crcInit 0x00 { s with inputs := crcUpdates bytes }
  exact run_crcUpdates bytes hbusy hresult rfl

end Sys2Proof.Machine

/-! # The bus transaction engine

spec/42_transaction.md R140 to R148, 60_exceptions.md R216: what a bus failure leaves, OW_RESET for every answer, where a byte
command ends that fails, what its PHASE test records, and that none of the three depends on what earlier commands left. -/

namespace Sys2Proof.Machine

/-! ### A bus failure leaves PHASE IDLE -/

section
variable {s t : State}

/-- RESULT shows a bus failure exactly where the code written is one (spec/60_exceptions.md R216). -/
theorem busFailed_iff {c : Result} (h : statusResult t.status = resultCode c) : BusFailed t ↔ c.busFailed = true := by
  rw [BusFailed, h]
  cases c <;> decide

/-- A command that is running, however far, is still running or has left PHASE IDLE with a bus failure. -/
theorem failedIsIdle_conclude_run {i : Instr} {ms : List Micro} (hms : ∀ m ∈ ms, m ∈ bodyOf i) (hb : s.busy = true) :
    FailedIsIdle (conclude (run ms s)) := by
  intro hd hf
  obtain ⟨c, -, hc, hidle⟩ := conclude_done i ms hms s hb hd
  exact hidle ((busFailed_iff hc).mp hf)

/-- A step for no command keeps PHASE and RESULT, or writes ILLEGAL_COMMAND. -/
theorem Quiet.failedIsIdle (q : Quiet s t) (hs : FailedIsIdle s) : FailedIsIdle t := by
  intro hb hf
  rcases q.status with ⟨hbusy, hresult, -, -⟩ | ⟨-, hillegal, -, -⟩
  · have hphase : t.phase = s.phase := q.columns .phase
    rw [BusFailed, hresult] at hf
    exact hphase.trans (hs (hbusy ▸ hb) hf)
  · exact absurd ((busFailed_iff hillegal).mp hf) (by decide)

theorem step_failedIsIdle (hs : FailedIsIdle s) (h : step s = .next t) : FailedIsIdle t := by
  by_cases hr : s.inputs.head? = some .blockReset
  · obtain rfl : resetBlock s.popInput = t := by simpa [step_blockReset hr] using h
    exact fun _ _ => rfl
  · rcases step_acts decodeWord_encode s t hr h with ⟨i, ms, u, a⟩ | q
    · rw [a.result]
      exact failedIsIdle_conclude_run a.part a.busy
    · exact q.failedIsIdle hs

end

/-- Settles O44, from `conclude_done` where the command acts; a busy block meets the invariant, so the later steps are steps that
keep it. -/
theorem failureLeavesPhaseIdle : Obligations.FailureLeavesPhaseIdle := by
  refine ⟨fun s i hb => ?_, fun s t hb h => ?_, fun s t => step_failedIsIdle⟩
  · exact ⟨_, exec_of_idle i hb, failedIsIdle_conclude_run (fun _ => id) (accept_busy _ s)⟩
  · exact step_failedIsIdle (fun hidle => absurd (hb.symm.trans hidle) nofun) h

/-! ### OW_RESET -/

section
variable {p : EchoPolicy} {s : State} {a : Answer}

/-- OW_RESET up to its `Recv` (spec/42_transaction.md R140). -/
def resetSent (s : State) : State :=
  { exchanged [] [.w, .b .low, .w, .s 0xF0] s with baud := .rate .low, phase := .resetIssued }

theorem send_resetPulse_of_calm (hs : Calm p s) :
    send Config.resetPulse (record .w (setBaud .low (record .w (setPhase .resetIssued s)))) = resetSent s := by
  have hi := countDown_of_undisturbed s hs.1.1
  simp [send, setBaud, record, setPhase, resetSent, exchanged, hi, rawAfter, Config.resetPulse]

theorem resetSent_calm (hs : Calm p s) : Calm p (resetSent s) := hs.congr rfl rfl rfl

theorem resetSent_nextAnswer (s : State) : nextAnswer (resetSent s) = nextAnswer s :=
  nextAnswer_congr (by simp [resetSent, exchanged]) (by simp [resetSent, exchanged])

/-- `OW_RESET_body` where no device answers or the transport fails (spec/42_transaction.md R140, R141, R146). -/
def resetFailed (a : Answer) (s : State) : State :=
  { exchanged [a] (resetEvents a) s with baud := .rate .low, phase := .idle }

theorem exchanged_resetSent (a : Answer) (s : State) :
    setPhase .idle (exchanged [a] [.r a] (resetSent s)) = resetFailed a s := by
  have hex := exchanged_exchanged (s := s) (as := []) (bs := [a]) (es := [.w, .b .low, .w, .s 0xF0]) (fs := [.r a])
  exact congrArg (fun t : State => { t with baud := .rate .low, phase := .idle }) hex

theorem procReset_fails_err : Fails p [.err] .transportError procReset (resetFailed .err) := by
  refine ⟨nofun, fun s hs hn => ?_⟩
  have hnext : nextAnswer (resetSent s) = .err := (resetSent_nextAnswer s).trans (next_cons.mp hn).1
  simp only [procReset, send_resetPulse_of_calm hs, hnext, recv_err_of_calm (resetSent_calm hs) hnext, exchanged_resetSent]

/-- An echo of the reset pulse itself: no device (spec/42_transaction.md R141). -/
theorem procReset_fails_echo : Fails p [.byte 0xF0] .noDevice procReset (resetFailed (.byte 0xF0)) := by
  refine ⟨nofun, fun s hs hn => ?_⟩
  have hnext : nextAnswer (resetSent s) = .byte 0xF0 := (resetSent_nextAnswer s).trans (next_cons.mp hn).1
  have hpulse : (0xF0 : Byte) = Config.resetPulse := rfl
  simp only [procReset, send_resetPulse_of_calm hs, hnext, if_pos hpulse,
    setRxraw_recv_of_calm (resetSent_calm hs) hnext, exchanged_resetSent]

end

/-- Settles O38: `procReset` fails with ERR or the pulse's echo, and succeeds with any other. -/
theorem resetPulseResult : Obligations.ResetPulseResult := by
  intro s hs
  cases ha : nextAnswer s with
  | err =>
    have hn : nextAnswers 1 s = [.err] := congrArg ([·]) ha
    exact ⟨_, exec_of_fails (i := .owReset) reset_agrees procReset_fails_err hs hn, rfl, rfl, rfl, rfl, rfl, rfl,
      finishedWith_finish rfl, rfl, rfl⟩
  | byte e =>
    have hn : nextAnswers 1 s = [.byte e] := congrArg ([·]) ha
    by_cases he : e = 0xF0
    · subst he
      exact ⟨_, exec_of_fails (i := .owReset) reset_agrees procReset_fails_echo hs hn, rfl, rfl, rfl, rfl, rfl, rfl, rfl,
        finishedWith_finish rfl, rfl⟩
    · refine ⟨_, exec_of_succeeds (i := .owReset) reset_agrees (procReset_succeeds he) hs hn, rfl, rfl, rfl, rfl, rfl, rfl,
        rfl, ?_⟩
      rw [if_neg he]
      exact ⟨finishedWith_finish rfl, rfl⟩


/-! ### A byte command that fails -/

section
variable {p : EchoPolicy} {s : State} {as : List Answer} {a : Answer} {rs : List Bool} {c : Result}

theorem forEach_append {α : Type} (f : α → Proc) (l l' : List α) :
    forEach f (l ++ l') = Machine.andThen (forEach f l) (forEach f l') := by
  induction l with
  | nil => rfl
  | cons x l ih => rw [List.cons_append, forEach, ih, forEach, andThen_assoc]

/-- The exchanges of a byte up to number k, which fails (spec/42_transaction.md R145). -/
def slotsFailed (b : Fin 8 → Bool) (use : BitUse) (k : Fin 8) (as : List Answer) (rs : List Bool) (a : Answer) (s : State) :
    State :=
  exchangeFailed (b k) a (withBitcnt (k.castLE (by decide)) (slotsDone b use ((List.finRange 8).take k) as rs s))

theorem withBitcnt_succeeds (i : Fin 9) : Succeeds p [] (doing (withBitcnt i)) (withBitcnt i) :=
  Succeeds.doing (fun _ => rfl) (fun _ => rfl) (fun _ => rfl) (fun _ => rfl) (fun _ => rfl)

theorem withShift_succeeds (v : Byte) : Succeeds p [] (doing (withShift v)) (withShift v) :=
  Succeeds.doing (fun _ => rfl) (fun _ => rfl) (fun _ => rfl) (fun _ => rfl) (fun _ => rfl)

/-- The eight indices around one of them. -/
theorem finRange_split (k : Fin 8) :
    List.finRange 8 = (List.finRange 8).take k ++ k :: (List.finRange 8).drop (k + 1) := by
  revert k; decide

/-- The exchanges before the failing one succeed, and those after it do not take place. -/
theorem slots_fail (b : Fin 8 → Bool) (use : BitUse) {k : Fin 8} (hl : as.length = k) (hb : answerBits p as = some rs)
    (ha : answerFailure p a = some c) :
    Fails p (as ++ [a]) c (forEach (slotProc b use) (List.finRange 8)) (slotsFailed b use k as rs a) := by
  have hbefore := slots_succeed (p := p) b use (is := (List.finRange 8).take k) (by simp [hl]) hb
  have hfails := (withBitcnt_succeeds (p := p) (k.castLE (by decide))).andThen_fails (procExchange_fails (b k) use ha)
  have h := hbefore.andThen_fails (hfails.andThen (forEach (slotProc b use) ((List.finRange 8).drop (k + 1))))
  rw [finRange_split k, forEach_append]
  exact h

/-- `OW_WRITE_BYTE_body(d)` whose exchange k fails (spec/42_transaction.md R142, R145). -/
def writeByteFailed (d : Byte) (k : Fin 8) (as : List Answer) (rs : List Bool) (a : Answer) (s : State) : State :=
  slotsFailed (bitOf d) .discard k as rs a
    (selected .high (checkPhase (s.phase == .addressed || s.phase == .exchanging) s))

/-- `OW_READ_BYTE_body` whose exchange k fails (spec/42_transaction.md R143, R145). -/
def readByteFailed (k : Fin 8) (as : List Answer) (rs : List Bool) (a : Answer) (s : State) : State :=
  slotsFailed (fun _ => true) .toShift k as rs a (withShift 0x00 (selected .high (checkPhase (s.phase == .exchanging) s)))

theorem procWriteByte_fails (d : Byte) {k : Fin 8} (hl : as.length = k) (hb : answerBits p as = some rs)
    (ha : answerFailure p a = some c) : Fails p (as ++ [a]) c (procWriteByte d) (writeByteFailed d k as rs a) :=
  (checkPhase_succeeds (p := p) fun s => s.phase == .addressed || s.phase == .exchanging).andThen_fails
    ((procSelect_succeeds .high).andThen_fails ((slots_fail (bitOf d) .discard hl hb ha).andThen _))

theorem procReadByte_fails {k : Fin 8} (hl : as.length = k) (hb : answerBits p as = some rs)
    (ha : answerFailure p a = some c) : Fails p (as ++ [a]) c procReadByte (readByteFailed k as rs a) :=
  (checkPhase_succeeds (p := p) fun s => s.phase == .exchanging).andThen_fails ((procSelect_succeeds .high).andThen_fails
    ((withShift_succeeds 0x00).andThen_fails ((slots_fail (fun _ => true) .toShift hl hb ha).andThen _)))

/-! ### What it leaves -/

theorem selected_transfer (r : Rate) (s : State) : Transfer [] [] [.w, .b r] s (selected r s) :=
  ⟨rfl, rfl, rfl, rfl, rfl, rfl, rfl⟩

theorem withShift_transfer (v : Byte) (s : State) : Transfer [] [] [] s (withShift v s) :=
  ⟨rfl, rfl, (List.append_nil _).symm, rfl, rfl, rfl, rfl⟩

theorem slotsDone_discard_transfer (b : Fin 8 → Bool) (is : List (Fin 8)) (as : List Answer) (rs : List Bool) (s : State) :
    Transfer [] as (slotsEvents (is.map b) as) s (slotsDone b .discard is as rs s) := by
  rw [slotsDone, useBits_discard]
  exact ⟨rfl, rfl, rfl, rfl, rfl, rfl, rfl⟩

theorem slotsDone_toShift_transfer (b : Fin 8 → Bool) (is : List (Fin 8)) (as : List Answer) (rs : List Bool) (s : State) :
    Transfer [] as (slotsEvents (is.map b) as) s (slotsDone b .toShift is as rs s) := by
  rw [slotsDone, useBits_toShift]
  exact ⟨rfl, rfl, rfl, rfl, rfl, rfl, rfl⟩

theorem exchangeFailed_transfer (b : Bool) (a : Answer) (i : Fin 9) (s : State) :
    Transfer [] [a] (slotEvents b a) s (exchangeFailed b a (withBitcnt i s)) :=
  ⟨rfl, rfl, rfl, rfl, rfl, rfl, rfl⟩

/-- The exchanges of the first bits, and of one more. -/
theorem slotsEvents_take_succ (bits : List Bool) {k : Nat} (hk : k < bits.length) (hl : as.length = k) (a : Answer) :
    slotsEvents (bits.take (k + 1)) (as ++ [a]) = slotsEvents (bits.take k) as ++ slotEvents bits[k] a := by
  rw [List.take_succ_eq_append_getElem hk, slotsEvents, slotsEvents, List.zipWith_append (by simp; omega)]
  simp

/-- Exchanges that fail at number k do the first k + 1 of them and nothing after. -/
theorem slotsFailed_transfer {b : Fin 8 → Bool} {use : BitUse} {k : Fin 8} (hl : as.length = k)
    (h : Transfer [] as (slotsEvents (((List.finRange 8).take k).map b) as) s
      (slotsDone b use ((List.finRange 8).take k) as rs s)) :
    Transfer [] (as ++ [a]) (slotsEvents (((List.finRange 8).map b).take (as.length + 1)) (as ++ [a])) s
      (slotsFailed b use k as rs a s) := by
  have hlast := h.trans (exchangeFailed_transfer (b k) a (k.castLE (by decide)) _)
  have hbit : ((List.finRange 8).map b)[k.val]'(by simp) = b k := by simp
  rw [hl, slotsEvents_take_succ _ (by simp) hl, ← List.map_take, hbit]
  exact hlast

theorem writeByteFailed_transfer (d : Byte) {k : Fin 8} (hl : as.length = k) (rs : List Bool) (a : Answer) (s : State) :
    Transfer [] (as ++ [a]) ([.w, .b .high] ++ slotsEvents ((sentBits d).take (as.length + 1)) (as ++ [a]))
      (checkPhase (s.phase == .addressed || s.phase == .exchanging) s) (writeByteFailed d k as rs a s) :=
  (selected_transfer .high _).trans (slotsFailed_transfer hl (slotsDone_discard_transfer (bitOf d) _ as rs _))

theorem readByteFailed_transfer {k : Fin 8} (hl : as.length = k) (rs : List Bool) (a : Answer) (s : State) :
    Transfer [] (as ++ [a]) ([.w, .b .high] ++ slotsEvents ((sentBits 0xFF).take (as.length + 1)) (as ++ [a]))
      (checkPhase (s.phase == .exchanging) s) (readByteFailed k as rs a s) :=
  ((selected_transfer .high _).trans (withShift_transfer 0x00 _)).trans
    (slotsFailed_transfer hl (slotsDone_toShift_transfer (fun _ => true) _ as rs _))

/-- What a byte command finished with c has changed, where its exchanges change no RXDATA. -/
theorem checkPhase_finished {allowed : Bool} {w : Word} {es : List Event} {t : State}
    (h : Transfer [] as es (checkPhase allowed (accept w s)) t) (c : Result) :
    FinishedWith c s (finish c t) ∧ t.trace = s.trace ++ es ∧ t.rxraw = rawAfter s.rxraw as ∧ t.rxdata = s.rxdata := by
  obtain ⟨hstatus, htrace, hraw, hdata⟩ := checkPhase_registers allowed (accept w s)
  exact ⟨finishedWith_finish (h.status.trans hstatus), h.trace.trans (congrArg (· ++ es) htrace),
    h.rxraw.trans (congrArg (rawAfter · as) hraw), h.rxdata.trans hdata⟩

end

/-- Settles O41: `procWriteByte` and `procReadByte` fail at the exchange whose number is how many answers decode. -/
theorem byteCommandsAbortAtTheFirstFailure : Obligations.ByteCommandsAbortAtTheFirstFailure := by
  intro s as a bits c hs hlt hn hb hc
  obtain ⟨k, hl⟩ : ∃ k : Fin 8, as.length = k := ⟨⟨as.length, hlt⟩, rfl⟩
  refine ⟨fun d => ?_, ?_⟩
  · obtain ⟨hfin, htrace, hraw, hdata⟩ :=
      checkPhase_finished (writeByteFailed_transfer d hl bits a (accept (encode (.owWriteByte d)) s)) c
    exact ⟨_, exec_of_fails (i := .owWriteByte d) (writeByte_agrees d) (procWriteByte_fails d hl hb hc) hs hn, hfin,
      htrace.trans (List.append_assoc _ _ _).symm, hraw, hdata, rfl⟩
  · obtain ⟨hfin, htrace, hraw, hdata⟩ :=
      checkPhase_finished (readByteFailed_transfer hl bits a (accept (encode .owReadByte) s)) c
    exact ⟨_, exec_of_fails (i := .owReadByte) readByte_agrees (procReadByte_fails hl hb hc) hs hn, hfin,
      htrace.trans (List.append_assoc _ _ _).symm, hraw, hdata, rfl⟩

/-! ### The PHASE test of a byte command -/

section
variable {i : Instr} {s : State}

/-- A body that begins with a PHASE test and has no other records what that test records, interrupted or done. -/
theorem conclude_run_faults {m : Micro} {ms : List Micro} {allowed : Bool} (hm : isEvent m = false)
    (ha : act m s = .going (checkPhase allowed s)) (hms : ∀ p, phasesFit p ms = true) :
    (conclude (run (m :: ms) s)).faults = s.faults ++ (if allowed then [] else [.protocolViolation]) := by
  obtain ⟨-, -, -, -, hconclude⟩ := conclude_untouched (run (m :: ms) s)
  rw [hconclude, run_silent hm ha, run_faults (hms _)]
  cases allowed
  · rfl
  · exact (List.append_nil _).symm

theorem owWriteByte_faults (d : Byte) (hb : s.busy = false) {t : State} (h : exec (.owWriteByte d) s = .next t) :
    t.faults = s.faults ++ (if s.phase == .addressed || s.phase == .exchanging then [] else [.protocolViolation]) := by
  obtain rfl : conclude (run (bodyOf (.owWriteByte d)) (accept _ s)) = t := by simpa [exec_of_idle _ hb] using h
  exact conclude_run_faults (m := .checkWritePhase) rfl rfl fun _ => rfl

theorem owReadByte_faults (hb : s.busy = false) {t : State} (h : exec .owReadByte s = .next t) :
    t.faults = s.faults ++ (if s.phase == .exchanging then [] else [.protocolViolation]) := by
  obtain rfl : conclude (run (bodyOf .owReadByte) (accept _ s)) = t := by simpa [exec_of_idle _ hb] using h
  exact conclude_run_faults (m := .checkReadPhase) rfl rfl fun _ => rfl

end

/-- Settles O42: the one PHASE test of each body is its first operation, and states that differ in PHASE are alike. -/
theorem protocolViolationIsRecordedAndNoMore : Obligations.ProtocolViolationIsRecordedAndNoMore := by
  intro s t d hb
  refine ⟨fun h => ?_, fun h => ?_, fun q i _ => exec_alike i rfl⟩
  · rw [owWriteByte_faults d hb h]
    cases s.phase <;> rfl
  · rw [owReadByte_faults hb h]
    cases s.phase <;> rfl

/-! ### Nothing is handed on from earlier commands -/

/-- Two states that the engine's commands cannot tell apart, of calls begun in s₀ and s₀': the transport's side, the timeline and
ECHO_POLICY agree, so do the events made, and RXRAW and RXDATA agree or are both as the call found them. SHIFT agrees where the
call has cleared it (spec/42_transaction.md R148). -/
structure SameCall (s₀ s₀' : State) (cleared : Bool) (s s' : State) : Prop where
  policy : s.policy = s'.policy
  rx : s.rx = s'.rx
  draws : s.draws = s'.draws
  txSpace : s.txSpace = s'.txSpace
  inputs : s.inputs = s'.inputs
  busy : s.busy = s'.busy
  result : s.busy = false → statusResult s.status = statusResult s'.status
  trace : ∃ es, s.trace = s₀.trace ++ es ∧ s'.trace = s₀'.trace ++ es
  rxraw : s.rxraw = s'.rxraw ∨ (s.rxraw = s₀.rxraw ∧ s'.rxraw = s₀'.rxraw)
  rxdata : s.rxdata = s'.rxdata ∨ (s.rxdata = s₀.rxdata ∧ s'.rxdata = s₀'.rxdata)
  shift : cleared = true → s.shift = s'.shift

/-- Two progresses of one kind, with one code, that stand at states related by R. -/
inductive Lockstep (R : State → State → Prop) : Progress → Progress → Prop
  | going {s s' : State} : R s s' → Lockstep R (.going s) (.going s')
  | ended {s s' : State} (c : Result) : R s s' → Lockstep R (.ended c s) (.ended c s')
  | paused {s s' : State} : R s s' → Lockstep R (.paused s) (.paused s')

/-- Whether SHIFT has been cleared after an operation. -/
def clearedAfter (cleared : Bool) : Micro → Bool
  | .clearShift => true
  | _ => cleared

theorem clearedAfter_event (cleared : Bool) {m : Micro} (h : isEvent m = true) : clearedAfter cleared m = cleared := by
  cases m
  case clearShift => cases h
  all_goals rfl

/-- The operations that read no register of an earlier command, given whether SHIFT has been cleared. -/
def readsNothingOld (cleared : Bool) : Micro → Bool
  | .waitTxSpace | .setBaud _ | .send _ | .recvPresence | .recvBit _ | .setPhase _ | .checkWritePhase | .checkReadPhase
  | .setBitcnt _ | .clearShift => true
  | .shiftToRxdata => cleared
  | _ => false

/-- A body all of whose operations read nothing old. -/
def bodyReadsNothingOld : Bool → List Micro → Bool
  | _, [] => true
  | cleared, m :: ms => readsNothingOld cleared m && bodyReadsNothingOld (clearedAfter cleared m) ms

section
variable {s₀ s₀' s s' : State} {cleared : Bool}

theorem SameCall.nextAnswer (h : SameCall s₀ s₀' cleared s s') : nextAnswer s = nextAnswer s' :=
  nextAnswer_congr h.rx h.draws

theorem SameCall.inputDue (h : SameCall s₀ s₀' cleared s s') : inputDue s = inputDue s' := by
  simp only [Machine.inputDue, h.inputs]

/-- What has been cleared may be forgotten. -/
theorem SameCall.uncleared (h : SameCall s₀ s₀' cleared s s') : SameCall s₀ s₀' false s s' := { h with shift := nofun }

theorem SameCall.record (e : Event) (h : SameCall s₀ s₀' cleared s s') :
    SameCall s₀ s₀' cleared (record e s) (record e s') := by
  obtain ⟨es, ht, ht'⟩ := h.trace
  exact { h with
    inputs := congrArg countDown h.inputs
    trace := ⟨es ++ [e], by simp [ht], by simp [ht']⟩ }

theorem SameCall.consumeAnswer (h : SameCall s₀ s₀' cleared s s') :
    SameCall s₀ s₀' cleared (consumeAnswer s) (consumeAnswer s') := by
  rw [consumeAnswer_eq, consumeAnswer_eq]
  exact { h with
    rx := congrArg (List.drop 1) h.rx
    draws := congrArg₂ (fun d (l : List Answer) => d + (1 - l.length)) h.draws h.rx }

theorem SameCall.recv (h : SameCall s₀ s₀' cleared s s') : SameCall s₀ s₀' cleared (recv s) (recv s') := by
  rw [recv_eq, recv_eq, h.nextAnswer]
  exact h.consumeAnswer.record _

theorem SameCall.setPhase (p : Phase) (h : SameCall s₀ s₀' cleared s s') :
    SameCall s₀ s₀' cleared (setPhase p s) (setPhase p s') := { h with }

theorem SameCall.setRxraw (e : Byte) (h : SameCall s₀ s₀' cleared s s') :
    SameCall s₀ s₀' cleared (setRxraw e s) (setRxraw e s') := { h with rxraw := .inl rfl }

theorem SameCall.useBit (use : BitUse) (b : Bool) (h : SameCall s₀ s₀' cleared s s') :
    SameCall s₀ s₀' cleared (useBit use b s) (useBit use b s') := by
  cases use with
  | discard => exact h
  | toRxdata => exact { h with rxdata := .inl rfl }
  | toShift => exact { h with shift := fun hc => congrArg (shiftIn · b) (h.shift hc) }

/-- The PHASE tests write the fault record only, whatever they find. -/
theorem SameCall.checkPhase (a a' : Bool) (h : SameCall s₀ s₀' cleared s s') :
    SameCall s₀ s₀' cleared (checkPhase a s) (checkPhase a' s') := by
  cases a <;> cases a' <;> exact { h with }

theorem SameCall.finish (c : Result) (h : SameCall s₀ s₀' cleared s s') :
    SameCall s₀ s₀' cleared (finish c s) (finish c s') :=
  { h with busy := by simp, result := fun _ => by simp }

/-- An operation that reads nothing old does the same in both calls. -/
theorem act_lockstep {m : Micro} (hm : readsNothingOld cleared m = true) (h : SameCall s₀ s₀' cleared s s') :
    Lockstep (SameCall s₀ s₀' (clearedAfter cleared m)) (act m s) (act m s') := by
  cases m
  case waitTxSpace =>
    rw [act, act, doWaitTxSpace, doWaitTxSpace, h.txSpace]
    split
    · exact .going (h.record .w)
    · exact .paused { h with txSpace := rfl, inputs := congrArg endPause h.inputs }
  case setBaud r =>
    have hrate : SameCall s₀ s₀' cleared { s with baud := .rate r } { s' with baud := .rate r } := { h with }
    exact .going (hrate.record (.b r))
  case send b => exact .going (h.record (.s b))
  case recvPresence =>
    rw [act, act, doRecvPresence, doRecvPresence, h.nextAnswer]
    cases nextAnswer s' with
    | err => exact .ended _ (h.recv.setPhase .idle)
    | byte e =>
      dsimp only
      split
      · exact .ended _ ((h.recv.setRxraw e).setPhase .idle)
      · exact .going ((h.recv.setRxraw e).setPhase .addressed)
  case recvBit use =>
    rw [act, act, doRecvBit, doRecvBit, h.nextAnswer, h.policy]
    cases nextAnswer s' with
    | err => exact .ended _ (h.recv.setPhase .idle)
    | byte e =>
      dsimp only
      cases decodeEcho s'.policy e with
      | line => exact .ended _ ((h.recv.setRxraw e).setPhase .idle)
      | bit b => exact .going ((h.recv.setRxraw e).useBit use b)
  case setPhase p => exact .going (h.setPhase p)
  case checkWritePhase | checkReadPhase => exact .going (h.checkPhase _ _)
  case setBitcnt i => exact .going { h with }
  case clearShift => exact .going { h with shift := fun _ => rfl }
  case shiftToRxdata => exact .going { h with rxdata := .inl (h.shift hm) }
  all_goals cases hm

theorem perform_lockstep {m : Micro} (hm : readsNothingOld cleared m = true) (h : SameCall s₀ s₀' cleared s s') :
    Lockstep (SameCall s₀ s₀' (clearedAfter cleared m)) (perform m s) (perform m s') := by
  rw [perform, perform, h.inputDue]
  split
  case isTrue hdue =>
    rw [clearedAfter_event cleared (Bool.and_eq_true_iff.mp hdue).1]
    exact .paused h
  case isFalse => exact act_lockstep hm h

theorem run_lockstep {ms : List Micro} (hms : bodyReadsNothingOld cleared ms = true) (h : SameCall s₀ s₀' cleared s s') :
    Lockstep (SameCall s₀ s₀' false) (run ms s) (run ms s') := by
  induction ms generalizing cleared s s' with
  | nil => exact .going h.uncleared
  | cons m ms ih =>
    rw [bodyReadsNothingOld, Bool.and_eq_true] at hms
    rw [run_cons, run_cons]
    have hm := perform_lockstep hms.1 h
    generalize perform m s = q at hm ⊢
    generalize perform m s' = q' at hm ⊢
    cases hm with
    | going h => exact ih hms.2 h
    | ended c h => exact .ended c h.uncleared
    | paused h => exact .paused h.uncleared

theorem Lockstep.conclude {q q' : Progress} (h : Lockstep (SameCall s₀ s₀' cleared) q q') :
    SameCall s₀ s₀' cleared (conclude q) (conclude q') := by
  cases h with
  | going h => exact h.finish .ok
  | ended c h => exact h.finish c
  | paused h => exact h

/-- Whatever the registers hold, two acceptances begin the same call. -/
theorem accept_sameCall (w : Word) (hp : s.policy = s'.policy) (hr : s.rx = s'.rx) (hd : s.draws = s'.draws)
    (ht : s.txSpace = s'.txSpace) (hi : s.inputs = s'.inputs) : SameCall s s' false (accept w s) (accept w s') where
  policy := hp
  rx := hr
  draws := hd
  txSpace := ht
  inputs := hi
  busy := by simp
  result := by simp
  trace := ⟨[], (List.append_nil _).symm, (List.append_nil _).symm⟩
  rxraw := .inr ⟨rfl, rfl⟩
  rxdata := .inr ⟨rfl, rfl⟩
  shift := nofun

/-! ### The rate comes first -/

/-- A body that begins with a silent operation and then selects a rate makes the two events of that first, as far as it gets. -/
theorem selects_first {m : Micro} {u : State} (hm : isEvent m = false) (ha : act m s = .going u) (hu : u.trace = s.trace)
    (r : Rate) (ms : List Micro) :
    ∃ es, (conclude (run (m :: .waitTxSpace :: .setBaud r :: ms) s)).trace = s.trace ++ es ∧
      (es <+: [.w, .b r] ∨ [.w, .b r] <+: es) := by
  rw [run_silent hm ha, ← hu, run_cons]
  rcases perform_cases .waitTxSpace u with ⟨hp, -, -⟩ | hp <;> rw [hp]
  · exact ⟨[], (List.append_nil _).symm, .inl List.nil_prefix⟩
  rcases doWaitTxSpace_cases u with ⟨-, hw⟩ | ⟨-, hw⟩ <;> rw [act, hw]
  · rw [thenRun_going, run_cons]
    rcases perform_cases (.setBaud r) (record .w u) with ⟨hp, -, -⟩ | hp <;> rw [hp]
    · exact ⟨[.w], rfl, .inl ⟨[.b r], rfl⟩⟩
    · obtain ⟨es, hes⟩ := (conclude_run_grows ms (setBaud r (record .w u))).trace
      refine ⟨[.w, .b r] ++ es, ?_, .inr (List.prefix_append _ _)⟩
      rw [act, thenRun_going, ← hes, setBaud_eq]
      simp
  · exact ⟨[], (List.append_nil _).symm, .inl List.nil_prefix⟩

theorem checkPhase_trace (allowed : Bool) (s : State) : (checkPhase allowed s).trace = s.trace :=
  (checkPhase_registers allowed s).2.1

/-- OW_RESET, OW_WRITE_BYTE and OW_READ_BYTE select their own rate first (spec/42_transaction.md R140, R142, R143). -/
theorem engine_selects_first {i : Instr} {d : Byte} (hi : i = .owReset ∨ i = .owWriteByte d ∨ i = .owReadByte) (s : State) :
    ∃ es, (conclude (run (bodyOf i) s)).trace = s.trace ++ es ∧
      (es <+: [.w, .b (if i = .owReset then .low else .high)] ∨
        [.w, .b (if i = .owReset then .low else .high)] <+: es) := by
  obtain rfl | rfl | rfl := hi
  · exact selects_first (m := .setPhase .resetIssued) rfl rfl rfl .low _
  · exact selects_first (m := .checkWritePhase) rfl rfl (checkPhase_trace _ s) .high _
  · exact selects_first (m := .checkReadPhase) rfl rfl (checkPhase_trace _ s) .high _

theorem engine_readsNothingOld {i : Instr} {d : Byte} (hi : i = .owReset ∨ i = .owWriteByte d ∨ i = .owReadByte) :
    bodyReadsNothingOld false (bodyOf i) = true := by
  obtain rfl | rfl | rfl := hi <;> rfl

end

/-- Settles O43: the three bodies read nothing old, so two calls of one of them go in lockstep. -/
theorem engineHasNoCrossCallState : Obligations.EngineHasNoCrossCallState := by
  intro s s' i d hi hb hb' hp hr hd ht hin
  have hsame := (run_lockstep (engine_readsNothingOld hi) (accept_sameCall (encode i) hp hr hd ht hin)).conclude
  obtain ⟨es, hes, hes'⟩ := hsame.trace
  obtain ⟨fs, hfs, hfirst⟩ := engine_selects_first hi (accept (encode i) s)
  obtain rfl : es = fs := List.append_cancel_left (hes.symm.trans hfs)
  exact ⟨_, _, es, exec_of_idle i hb, exec_of_idle i hb', hes, hes', hsame.busy, hsame.result, hsame.rxraw, hsame.rxdata,
    hfirst⟩

end Sys2Proof.Machine

/-! # The sequences as wholes

spec/43_sequences.md R160 to R168, 92_eei_decisions.md D32 (Log 7): a failed reset ends a sequence, SEQ_CONVERT, what a poll finds,
and SEQ_BLOCKING_READ as a conversion and then turns of its loop, each of which is a step from one and the same position. -/

namespace Sys2Proof.Machine

/-! ### A reset that fails -/

section
variable {p : EchoPolicy} {s : State} {a : Answer} {i : Instr}

/-- The code of a reset that fails: ERR, or an echo of the pulse itself (spec/42_transaction.md R140, R141). -/
abbrev resetFailure (a : Answer) : Result := if a = .err then .transportError else .noDevice

theorem procReset_fails (ha : a = .err ∨ a = .byte 0xF0) : Fails p [a] (resetFailure a) procReset (resetFailed a) := by
  rcases ha with rfl | rfl
  · exact procReset_fails_err
  · exact procReset_fails_echo

theorem resetFailure_ne_busyConverting (a : Answer) : resetFailure a ≠ .busyConverting := by
  rw [resetFailure]
  split <;> exact nofun

/-- A sequence that begins with a reset, whatever ghost it writes before, ends where that fails (spec/43_sequences.md R160). -/
theorem exec_of_failedReset (hs : Ready s)
    (hi : i = .seqReadRom ∨ i = .seqConvert ∨ i = .seqReadScratchpad ∨ i = .seqBlockingRead)
    (ha : nextAnswer s = .err ∨ nextAnswer s = .byte 0xF0) :
    ∃ sn sp, exec i s = .next (finish (resetFailure (nextAnswer s)) (resetFailed (nextAnswer s)
      { accept (encode i) s with snValid := sn, spValid := sp })) := by
  have hreset := procReset_fails (p := s.policy) ha
  obtain rfl | rfl | rfl | rfl := hi
  · have hfails : Fails s.policy [nextAnswer s] _ procReadRom _ := (markSn_succeeds false).andThen_fails (hreset.andThen _)
    have hexec := exec_of_fails (i := .seqReadRom) (n := 1) readRom_agrees hfails hs rfl
    exact ⟨_, _, hexec⟩
  · exact ⟨_, _, exec_of_fails (i := .seqConvert) (n := 1) convert_agrees (hreset.andThen _) hs rfl⟩
  · have hfails : Fails s.policy [nextAnswer s] _ procReadScratchpad _ :=
      (markSp_succeeds false).andThen_fails (hreset.andThen _)
    have hexec := exec_of_fails (i := .seqReadScratchpad) (n := 1) readScratchpad_agrees hfails hs rfl
    exact ⟨_, _, hexec⟩
  · have hconvert : Fails s.policy [nextAnswer s] _ procMarkedConvert _ :=
      (markSp_succeeds false).andThen_fails (hreset.andThen _)
    have hnext : Next (accept (encode .seqBlockingRead) s) [nextAnswer s] := next_accept (n := 1) rfl _
    refine ⟨s.snValid, false, ?_⟩
    rw [meaningsAreTheSpecsPseudocode s .seqBlockingRead hs, procOf_seqBlockingRead (free_accept hs _),
      (hconvert.andThen _).2 _ (calm_accept hs _) hnext, procDone, if_neg fun h => resetFailure_ne_busyConverting _ h.2]
    rfl

end

/-- Settles O47: `procReset` is the first procedure of each of the four, and its failure leaves the rest undone. -/
theorem sequencesEndWithAFailedReset : Obligations.SequencesEndWithAFailedReset := by
  intro s i hs hi ha
  obtain ⟨sn, sp, hexec⟩ := exec_of_failedReset hs hi ha
  exact ⟨_, hexec, rfl, rfl, rfl, rfl, rfl, rfl, finishedWith_finish rfl⟩

/-! ### A conversion that succeeds -/

section
variable {p : EchoPolicy} {s : State} {e : Byte} {as : List Answer} {bits : List Bool}

/-- `SEQ_CONVERT_body` with a device present (spec/43_sequences.md R163). -/
def converted (e : Byte) (as : List Answer) (s : State) : State :=
  wroteByte Config.convertCommand (as.drop 8) (wroteByte Config.skipRomCommand (as.take 8) (didReset e s))

/-- The events of a conversion with its answers (spec/43_sequences.md R163). -/
def convertEvents (e : Byte) (as : List Answer) : List Event :=
  resetEvents (.byte e) ++ byteEvents 0xCC (as.take 8) ++ byteEvents 0x44 (as.drop 8)

theorem convertEvents_length (hl : as.length = 16) : (convertEvents e as).length = 57 := by
  simp [convertEvents, resetEvents, byteEvents_length, hl]

theorem procConvert_succeeds (he : e ≠ 0xF0) (hl : as.length = 16) (hb : answerBits p as = some bits) :
    Succeeds p (.byte e :: as) procConvert (converted e as) := by
  have h := (procReset_succeeds (p := p) he).andThen
    ((procWriteByte_succeeds Config.skipRomCommand (by simp [hl]) (answerBits_take 8 hb)).andThen
      (procWriteByte_succeeds Config.convertCommand (by simp [hl]) (answerBits_drop 8 hb)))
  rwa [List.take_append_drop] at h

theorem converted_transfer (e : Byte) (as : List Answer) (s : State) :
    Transfer [] (.byte e :: as) (convertEvents e as) s (converted e as s) := by
  have h := ((didReset_transfer e s).trans (wroteByte_transfer 0xCC (as.take 8) (.inl rfl))).trans
    (wroteByte_transfer 0x44 (as.drop 8) (.inr rfl))
  rwa [List.append_assoc [_], List.take_append_drop] at h

end

/-- Settles O48: the body is `procConvert`, which succeeds as `converted` says. -/
theorem convertResult : Obligations.ConvertResult := by
  intro s e as bits hs hn he hb
  have hl : as.length = 16 := by simpa using (congrArg List.length hn).symm
  refine ⟨_, exec_of_succeeds (i := .seqConvert) convert_agrees (procConvert_succeeds he hl hb) hs hn, ?_⟩
  have h := converted_transfer e as (accept (encode .seqConvert) s)
  have htrace : (finish .ok (converted e as (accept (encode .seqConvert) s))).trace = s.trace ++ convertEvents e as := h.trace
  refine ⟨finishedWith_finish h.status, ?_, ?_, h.rxraw, rfl, h.faults⟩
  · simpa only [convertEvents, List.append_assoc] using htrace
  · rw [htrace, List.length_append, convertEvents_length hl]

/-! ### What a poll finds -/

section
variable {p : EchoPolicy} {s : State} {a : Answer} {e : Byte} {as : List Answer} {bits : List Bool}

/-- A poll with what follows it: SEQ_POLL_READ after its ghost, and one turn of SEQ_BLOCKING_READ's loop (spec/43_sequences.md
R165, R166). -/
def procPoll : Proc := andThen procReadBit procAfterPoll

theorem didReadBit_trace (a : Answer) (r : Bool) (s : State) : (didReadBit a r s).trace = s.trace ++ pollEvents a :=
  bitCommand_trace true a s

/-- A poll bit of 0: the device still converts (spec/43_sequences.md R167). -/
theorem procPoll_busy (ha : answerBit p a = some false) : Fails p [a] .busyConverting procPoll (didReadBit a false) :=
  ⟨nofun, fun _ hs hn => ((procReadBit_succeeds ha).andThen_eq hs hn).trans (if_pos rfl)⟩

/-- A poll bit of 1: the scratchpad is read (spec/43_sequences.md R165). -/
theorem procPoll_of_ready (ha : answerBit p a = some true) (hs : Calm p s) (hn : Next s [a]) :
    procPoll s = procReadScratchpad (didReadBit a true s) := by
  have hone : (didReadBit a true s).rxdata ≠ 0x00 := show zext8 true ≠ 0x00 by decide
  exact ((procReadBit_succeeds ha).andThen_eq hs hn).trans (if_neg hone)

theorem procReadScratchpad_ne_busyConverting (hs : Free s) : (procReadScratchpad s).1 ≠ .busyConverting := by
  intro hbusy
  have hturn : ofProc (procReadScratchpad s) = ofTurn (procReadScratchpad s) :=
    (readScratchpad_agrees s hs).1.symm.trans (readScratchpad_agrees.turns (by decide +kernel) s hs)
  rcases hf : procReadScratchpad s with ⟨c, t⟩
  rw [hf] at hturn hbusy
  obtain rfl : c = .busyConverting := hbusy
  exact absurd hturn nofun

/-- Only a poll bit of 0 says BUSY_CONVERTING (spec/43_sequences.md R167, spec/60_exceptions.md R210). -/
theorem procPoll_ne_busyConverting (hs : Calm p s) (ha : answerBit p (nextAnswer s) ≠ some false) :
    (procPoll s).1 ≠ .busyConverting := by
  have hn : Next s [nextAnswer s] := rfl
  rcases answer_cases p (nextAnswer s) with ⟨r, hr, -⟩ | ⟨c, -, hc⟩
  · obtain rfl : r = true := by simpa [hr] using ha
    obtain ⟨-, hcalm, -⟩ := procReadBit_succeeds hr s [] hs hn
    rw [procPoll_of_ready hr hs hn]
    exact procReadScratchpad_ne_busyConverting hcalm.1
  · rw [procPoll, ((procReadBit_fails hc).andThen procAfterPoll).2 s hs hn]
    rcases answerFailure_eq_some hc with ⟨-, rfl⟩ | ⟨e, -, -, rfl⟩ <;> exact nofun

/-- The events of SEQ_READ_SCRATCHPAD with its answers (spec/43_sequences.md R164). -/
def scratchpadEvents (e : Byte) (as : List Answer) : List Event :=
  resetEvents (.byte e) ++ byteEvents 0xCC (as.take 8) ++ byteEvents 0xBE ((as.drop 8).take 8) ++ blockEvents as 2 9

theorem scratchpadEvents_length (hl : as.length = 88) : (scratchpadEvents e as).length = 291 := by
  simp [scratchpadEvents, resetEvents, byteEvents_length, blockEvents_length, hl]

@[simp] theorem spChecked_crc (t : State) : (spChecked t).crc = t.crc := rfl
@[simp] theorem spChecked_rxdata (t : State) : (spChecked t).rxdata = t.rxdata := rfl
@[simp] theorem spChecked_phase (t : State) : (spChecked t).phase = t.phase := rfl

/-- A command finished with the scratchpad that a ready poll read, the poll begun in u (spec/43_sequences.md R164, R165). -/
def pollRead (a : Answer) (e : Byte) (as : List Answer) (bits : List Bool) (u : State) : State :=
  spChecked (scratchpadRead e as bits (didReadBit a true u))

theorem pollRead_trace (hl : as.length = 88) (u : State) :
    (pollRead a e as bits u).trace = u.trace ++ pollEvents a ++ scratchpadEvents e as := by
  rw [pollRead, spChecked_trace, (scratchpadRead_transfer hl).trace, ← didReadBit_trace a true]
  rfl

theorem pollRead_trace_length (hl : as.length = 88) (u : State) :
    (pollRead a e as bits u).trace.length = u.trace.length + 296 := by
  rw [pollRead_trace hl, List.length_append, List.length_append, scratchpadEvents_length hl]
  rfl

theorem pollRead_phase (u : State) : (pollRead a e as bits u).phase = .idle := spChecked_phase _

theorem pollRead_sp (u : State) : (pollRead a e as bits u).sp = Vector.ofFn fun k => byteAt bits (k.val + 2) := by
  rw [pollRead, spChecked_sp, scratchpadRead_sp]

theorem pollRead_getElem (u : State) (k : Fin 9) : (pollRead a e as bits u).sp[k] = byteAt bits (k.val + 2) := by
  simp [pollRead_sp]

theorem pollRead_crc (u : State) : (pollRead a e as bits u).crc = crc8 ((pollRead a e as bits u).sp.toList.take 8) := by
  rw [pollRead, spChecked_crc, spChecked_sp, scratchpadRead_crc]

theorem pollRead_rxdata (hl : as.length = 88) (u : State) :
    (pollRead a e as bits u).rxdata = (pollRead a e as bits u).sp[8] := by
  rw [pollRead, spChecked_rxdata, (scratchpadRead_transfer hl).rxdata, getLastD_map_finRange]
  simp [scratchpadRead_sp]

/-- RESULT says whether the ninth byte is the CRC of the first eight (spec/43_sequences.md R164). -/
theorem pollRead_finishedWith (hl : as.length = 88) {u : State} (hu : u.status = withOvr false (withBusy true s.status)) :
    FinishedWith (if crc8 ((pollRead a e as bits u).sp.toList.take 8) = (pollRead a e as bits u).sp[8] then .ok
      else .checksumMismatch) s (pollRead a e as bits u) := by
  have hstatus := (scratchpadRead_transfer (s := didReadBit a true u) (e := e) (bits := bits) hl).status
  simp only [← pollRead_crc]
  exact spChecked_finishedWith (hstatus.trans hu)

end

/-- Settles O51: BUSY_CONVERTING leaves the rest of the sequence undone. -/
theorem pollReadBusyStopsAtThePollBit : Obligations.PollReadBusyStopsAtThePollBit := by
  intro s hs ha
  have hfails := (markSp_succeeds (p := s.policy) false).andThen_fails (procPoll_busy ha)
  exact ⟨_, exec_of_fails (i := .seqPollRead) (n := 1) pollRead_agrees hfails hs rfl, finishedWith_finish rfl,
    didReadBit_trace _ false _, rfl, rfl, rfl, rfl⟩

/-- Settles O53: the poll bit is five events, and the rest finishes with the scratchpad as `pollRead` says. -/
theorem pollReadReadyReadsTheScratchpad : Obligations.PollReadReadyReadsTheScratchpad := by
  intro s p e as bits hs hn hp he hb
  have hl : as.length = 88 := by simpa using (congrArg List.length hn).symm
  exact ⟨_, exec_seqPollRead_ready hs hn hp he hb, pollRead_getElem _, pollRead_crc _, pollRead_rxdata hl _,
    pollRead_finishedWith hl rfl, pollRead_phase _, pollRead_trace_length hl _⟩

/-! ### SEQ_BLOCKING_READ's loop, a turn in a step -/

/-- SEQ_BLOCKING_READ stands before a poll, and nothing disturbs or holds it (spec/43_sequences.md R166; Log 7). -/
structure Polling (p : EchoPolicy) (s : State) : Prop where
  busy : s.busy = true
  cur : s.cur = 0xC000
  seqpos : s.seqpos = 57
  calm : Calm p s

section
variable {p : EchoPolicy} {s : State} {a : Answer} {e : Byte} {as : List Answer} {bits : List Bool}

theorem afterEvents_pollPosition :
    afterEvents 57 (bodyOf .seqBlockingRead) = owReadBitBody ++ .pollLoop 57 :: seqReadScratchpadBody := by decide +kernel

theorem step_of_polling (hs : Polling p s) : step s = .next (procDone .seqBlockingRead (procPoll s)) := by
  have hw : decodeWord s.cur = some .seqBlockingRead := hs.cur ▸ decodeWord_encode .seqBlockingRead
  rw [step_of_running s hs.busy (not_due_of_undisturbed s hs.calm.1.1), resume_of_decode hw, hs.seqpos,
    afterEvents_pollPosition, pollTurn_turns s hs.calm.1, conclude_ofTurn, procPoll]

/-- A busy poll goes back to its first event (Log 7). -/
def polledBusy (a : Answer) (s : State) : State := { didReadBit a false s with seqpos := 57 }

theorem step_of_busy (hs : Polling p s) (hn : nextAnswer s = a) (ha : answerBit p a = some false) :
    step s = .next (polledBusy a s) := by
  rw [step_of_polling hs, (procPoll_busy ha).2 s hs.calm (congrArg ([·]) hn)]
  rfl

theorem polledBusy_polling (hs : Polling p s) : Polling p (polledBusy a s) :=
  ⟨hs.busy, hs.cur, rfl, hs.calm.congr rfl rfl rfl⟩

theorem polledBusy_trace (a : Answer) (s : State) : (polledBusy a s).trace = s.trace ++ pollEvents a :=
  didReadBit_trace a false s

theorem polledBusy_next {rest : List Answer} (hs : Polling p s) (hn : Next s (a :: rest)) (ha : answerBit p a = some false) :
    Next (polledBusy a s) rest := by
  obtain ⟨-, -, hrest⟩ := procReadBit_succeeds ha s rest hs.calm hn
  exact Next.congr (s := didReadBit a false s) rfl rfl hrest

/-- A turn that is not busy finishes the command (spec/43_sequences.md R166). -/
theorem step_of_notBusy (hs : Polling p s) (ha : answerBit p (nextAnswer s) ≠ some false) :
    step s = .next (finish (procPoll s).1 (procPoll s).2) := by
  rw [step_of_polling hs, procDone, if_neg fun h => procPoll_ne_busyConverting hs.calm ha h.2]

theorem step_of_ready (hs : Polling p s) (hn : Next s (a :: .byte e :: as)) (ha : answerBit p a = some true) (he : e ≠ 0xF0)
    (hl : as.length = 88) (hb : answerBits p as = some bits) : step s = .next (pollRead a e as bits s) := by
  have hfirst : Next s [a] := hn.of_append (as := [a])
  have hnext : nextAnswer s = a := (next_cons.mp hn).1
  obtain ⟨-, hcalm, hrest⟩ := procReadBit_succeeds ha s _ hs.calm hn
  rw [step_of_notBusy hs (by simp [hnext, ha]), procPoll_of_ready ha hs.calm hfirst,
    procReadScratchpad_eq he hl hb hcalm hrest, finish_checkSp, pollRead]

/-! ### SEQ_BLOCKING_READ from its acceptance -/

/-- A written byte keeps CUR and counts its events. -/
theorem wroteByte_position (d : Byte) (as : List Answer) (s : State) :
    (wroteByte d as s).cur = s.cur ∧ (wroteByte d as s).seqpos = s.seqpos + (byteEvents d as).length := by
  unfold wroteByte
  cases s.phase == .addressed || s.phase == .exchanging <;> exact ⟨rfl, rfl⟩

theorem converted_position (hl : as.length = 16) (s : State) :
    (converted e as s).cur = s.cur ∧ (converted e as s).seqpos = s.seqpos + 57 := by
  obtain ⟨hcur, hpos⟩ := wroteByte_position Config.skipRomCommand (as.take 8) (didReset e s)
  obtain ⟨hcur', hpos'⟩ :=
    wroteByte_position Config.convertCommand (as.drop 8) (wroteByte Config.skipRomCommand (as.take 8) (didReset e s))
  have hreset : (didReset e s).seqpos = s.seqpos + 5 := rfl
  rw [byteEvents_length _ (by simp [hl])] at hpos hpos'
  exact ⟨hcur'.trans hcur, hpos'.trans (by omega)⟩

/-- An accepted SEQ_BLOCKING_READ whose conversion succeeds does what a step does from before the first poll
(spec/43_sequences.md R166). -/
theorem exec_seqBlockingRead {rest : List Answer} (hs : Ready s) (hn : Next s (.byte e :: as ++ rest)) (he : e ≠ 0xF0)
    (hl : as.length = 16) (hb : answerBits s.policy as = some bits) :
    ∃ u, exec .seqBlockingRead s = step u ∧ Polling s.policy u ∧ Next u rest ∧
      u.status = withOvr false (withBusy true s.status) ∧ u.trace = s.trace ++ convertEvents e as := by
  have hconvert : Succeeds s.policy (.byte e :: as) procMarkedConvert _ :=
    (markSp_succeeds false).andThen (procConvert_succeeds he hl hb)
  have hcalm := calm_accept hs (encode .seqBlockingRead)
  have hnext : Next (accept (encode .seqBlockingRead) s) (.byte e :: as ++ rest) := Next.congr (s := s) rfl rfl hn
  obtain ⟨-, hcalm', hrest⟩ := hconvert _ rest hcalm hnext
  obtain ⟨hcur, hpos⟩ := converted_position (e := e) hl { accept (encode .seqBlockingRead) s with spValid := false }
  have h := converted_transfer e as { accept (encode .seqBlockingRead) s with spValid := false }
  have hbusy := (congrArg statusBusy h.status).trans (accept_busy (encode .seqBlockingRead) s)
  have hpolling : Polling s.policy _ := ⟨hbusy, hcur, hpos, hcalm'⟩
  refine ⟨_, ?_, hpolling, hrest, h.status, h.trace⟩
  rw [meaningsAreTheSpecsPseudocode s .seqBlockingRead hs, procOf_seqBlockingRead hcalm.1,
    hconvert.andThen_eq hcalm hnext.of_append, step_of_polling hpolling, procPoll]

/-- What a conversion and some polls leave of SEQ_BLOCKING_READ's answers is the scratchpad's. -/
theorem scratchpadAnswers_length {a b c : Answer} {as busy as' : List Answer}
    (hn : nextAnswers (busy.length + 107) s = a :: as ++ busy ++ b :: c :: as') (hl : as.length = 16) : as'.length = 88 := by
  have hlength := congrArg List.length hn
  simp only [nextAnswers_length, List.length_append, List.length_cons] at hlength
  omega

end

/-- Settles O55: the conversion, and then a turn of the loop whose poll is ready. -/
theorem blockingReadResult : Obligations.BlockingReadResult := by
  intro s e e' as as' p bits bits' hs hn hl he he' hb hp hb'
  have hl' := scratchpadAnswers_length (busy := []) (by simpa using hn) hl
  obtain ⟨u, hexec, hpolling, hnext, hstatus, htrace⟩ := exec_seqBlockingRead hs (next_of_nextAnswers hn) he hl hb
  refine ⟨_, hexec.trans (step_of_ready hpolling hnext hp he' hl' hb'), pollRead_getElem _, pollRead_crc _,
    pollRead_finishedWith hl' hstatus, pollRead_phase _, ?_⟩
  rw [pollRead_trace_length hl', htrace, List.length_append, convertEvents_length hl]

/-! ### Turns of the loop -/

theorem run_succ_congr {M : Host.Core} {s t : M.State} (n : Nat) (h : M.step s = M.step t) :
    M.run (n + 1) s = M.run (n + 1) t := by
  rw [Host.Core.run, Host.Core.run, h]

section
variable {p : EchoPolicy} {s : State}

/-- Each busy poll is a step, and the loop stands before the next one (spec/43_sequences.md R168; Log 7). -/
theorem run_of_busy {busy rest : List Answer} (hs : Polling p s) (hn : Next s (busy ++ rest))
    (hbusy : ∀ a ∈ busy, answerBit p a = some false) :
    ∃ u : State, (∀ n, Host.Core.run core (busy.length + n) s = Host.Core.run core n u) ∧ Polling p u ∧ Next u rest ∧
      u.status = s.status ∧ u.trace = s.trace ++ busy.flatMap pollEvents := by
  induction busy generalizing s with
  | nil => exact ⟨s, fun n => by rw [List.length_nil, Nat.zero_add], hs, hn, rfl, by simp⟩
  | cons a busy ih =>
    obtain ⟨hfirst, hothers⟩ := List.forall_mem_cons.mp hbusy
    obtain ⟨u, hrun, hpolling, hrest, hstatus, htrace⟩ := ih (polledBusy_polling hs) (polledBusy_next hs hn hfirst) hothers
    have hstep : core.step s = .next (polledBusy a s) := step_of_busy hs (next_cons.mp hn).1 hfirst
    refine ⟨u, fun n => ?_, hpolling, hrest, hstatus, ?_⟩
    · rw [List.length_cons, Nat.add_right_comm, run_succ_of_step _ hstep, hrun]
    · rw [htrace, polledBusy_trace, List.flatMap_cons, List.append_assoc]

theorem flatMap_pollEvents_length (polls : List Answer) : (polls.flatMap pollEvents).length = 5 * polls.length := by
  simp [List.length_flatMap, pollEvents, mul_comm]

end

/-- Settles O56: the command's step goes on as one from before the first poll, and then each poll is a step. -/
theorem blockingReadPollsUntilReady : Obligations.BlockingReadPollsUntilReady := by
  intro s e e' as busy as' p bits bits' rest hidle hspace hin hund hn hl he he' hb hbusy hp hb'
  have hl' := scratchpadAnswers_length hn hl
  have hnext : Next { s with inputs := rest } (.byte e :: as ++ (busy ++ p :: .byte e' :: as')) :=
    Next.congr (s := s) rfl rfl (next_of_nextAnswers (by rw [hn, List.append_assoc]))
  have hready : Ready { s with inputs := rest } := ⟨hidle, hund, hspace⟩
  obtain ⟨u, hexec, hpolling, hnext, hstatus, htrace⟩ := exec_seqBlockingRead hready hnext he hl hb
  obtain ⟨v, hrun, hpolling, hnext, hstatus', htrace'⟩ := run_of_busy hpolling hnext hbusy
  have htaken : core.step s = core.step u :=
    (stepRunsTheDecodedCommand s _ .seqBlockingRead rest hin (decodeWord_encode .seqBlockingRead)).trans hexec
  have hlast : core.step v = .next (pollRead p e' as' bits' v) := step_of_ready hpolling hnext hp he' hl' hb'
  have hv : v.trace = s.trace ++ convertEvents e as ++ busy.flatMap pollEvents := by rw [htrace', htrace]
  refine ⟨pollRead p e' as' bits' v, ?_, pollRead_getElem v, pollRead_finishedWith hl' (hstatus'.trans hstatus), ?_, ?_⟩
  · exact ((run_succ_congr _ htaken).trans (hrun 1)).trans (run_succ_of_step 0 hlast)
  · rw [pollRead_trace hl', hv]
    simp only [convertEvents, scratchpadEvents, blockEvents, List.flatMap_append, List.flatMap_singleton, List.append_assoc]
  · rw [pollRead_trace_length hl', hv, List.length_append, List.length_append, convertEvents_length hl,
      flatMap_pollEvents_length]

/-- The first of some answers that is not a busy poll's. -/
theorem exists_first_notBusy {p : EchoPolicy} {a : Answer} {as : List Answer} (ha : a ∈ as) (hne : answerBit p a ≠ some false) :
    ∃ busy b rest, as = busy ++ b :: rest ∧ (∀ b ∈ busy, answerBit p b = some false) ∧ answerBit p b ≠ some false := by
  obtain ⟨b, hb⟩ := Option.isSome_iff_exists.mp
    (List.find?_isSome.mpr ⟨a, ha, decide_eq_true hne⟩ : (as.find? fun b => answerBit p b ≠ some false).isSome)
  obtain ⟨hne, busy, rest, rfl, hbusy⟩ := List.find?_eq_some_iff_append.mp hb
  exact ⟨busy, b, rest, rfl, by simpa using hbusy, by simpa using hne⟩

/-- Settles O57: the loop turns up to the first answer that is not a busy poll's, and that turn finishes it with another code
than BUSY_CONVERTING. -/
theorem blockingReadEndsUnderFairConversion : Obligations.BlockingReadEndsUnderFairConversion := by
  intro s hb hc hpos hu ht ⟨n, a, hlast, hne⟩
  obtain ⟨busy, b, rest, has, hbusy, hne⟩ := exists_first_notBusy (List.mem_of_getLast? hlast) hne
  obtain ⟨u, hrun, hpolling, hnext, -⟩ := run_of_busy ⟨hb, hc, hpos, ⟨hu, ht⟩, rfl⟩ (next_of_nextAnswers has) hbusy
  rw [← (next_cons.mp hnext).1] at hne
  have hstep : core.step u = .next (finish (procPoll u).1 (procPoll u).2) := step_of_notBusy hpolling hne
  refine ⟨busy.length + 1, _, (hrun 1).trans (run_succ_of_step 0 hstep), finish_busy _ _, fun hcode => ?_⟩
  exact procPoll_ne_busyConverting hpolling.calm hne (resultCode_injective _ _ (by simpa using hcode))

end Sys2Proof.Machine

/-! # The host's decodes

spec/44_temperature_decode.md R190 to R196: the temperature and the serial number as functions over the delivered bytes, and
what the host is given when it applies them. -/

namespace Sys2Proof.Machine

/-! ### The temperature -/

theorem sext8_ofInt {x : Int} (hlo : -128 ≤ x) (hhi : x ≤ 127) : sext8 (BitVec.ofInt 8 x) = x :=
  BitVec.toInt_ofInt_eq_self (by decide) (by omega) (by omega)

/-- R191's difference lies in a signed byte's range already, so wrapping it to 8 bits and sign-extending it keeps it. -/
theorem tempInt_eq_sub (sp : Vector Byte 9) :
    tempInt sp = (sp[0].toNat : Int) / 2 - if sp[1] = 0 then 0 else 128 := by
  have hbyte := sp[0].isLt
  by_cases h : sp[1] = 0
  · rw [tempInt, if_neg (not_not.mpr h), if_pos h, sext8_ofInt] <;> omega
  · rw [tempInt, if_pos h, if_neg h, Config.tempSignOffset, sext8_ofInt] <;> omega

theorem temperature_of_zero {sp : Vector Byte 9} (h : sp[7] = 0) : temperature sp = none := if_pos h

theorem temperature_of_ne_zero {sp : Vector Byte 9} (h : sp[7] ≠ 0) :
    temperature sp =
      some ((tempInt sp : Rat) - 1 / 4 + ((sp[7].toNat : Rat) - (sp[6].toNat : Rat)) / (sp[7].toNat : Rat)) := by
  rw [temperature, if_neg h]
  push_cast
  rfl

theorem temperature_eq_none_iff (sp : Vector Byte 9) : temperature sp = none ↔ sp[7] = 0 := by
  refine ⟨fun hnone => ?_, temperature_of_zero⟩
  by_contra h
  exact nomatch (temperature_of_ne_zero h).symm.trans hnone

/-- Settles O58: the offset 128 is half of the sign's weight 256 in the 9-bit value (R192), so it comes out of the floor. -/
theorem temperatureIsTheFormula : Obligations.TemperatureIsTheFormula := by
  refine ⟨fun sp => ?_, temperature_eq_none_iff, fun sp t ht => ?_, by decide +kernel⟩
  · have hbyte := sp[0].isLt
    rw [tempInt_eq_sub]
    split <;> omega
  · have h : sp[7] ≠ 0 := fun h => nomatch (temperature_of_zero h).symm.trans ht
    exact Option.some.inj (ht.symm.trans (temperature_of_ne_zero h))

/-! ### The host applies them -/

theorem hostTemperature_of_undefined {s : State} (h : s.spValid = false ∨ s.sp[7] = 0) :
    hostTemperature s = recordFault .tempDecodeUndefined s := by
  unfold hostTemperature
  obtain hv | h7 := h
  · simp [hv]
  · simp [temperature_of_zero h7]

theorem hostTemperature_of_defined {s : State} {t : Rat} (hv : s.spValid = true) (ht : temperature s.sp = some t) :
    hostTemperature s = logHost (.temperature t) s := by
  simp [hostTemperature, hv, ht]

/-- Settles O59: a decode is due at once, on an idle and on a busy block, and lands as the host's use of the function. -/
theorem hostDecodesFaultOrAnswer : Obligations.HostDecodesFaultOrAnswer := by
  intro s rest
  refine ⟨fun hin h => ?_, fun hin hv h7 => ⟨_, temperature_of_ne_zero h7, ?_⟩, fun hin => ?_, fun hin => ?_⟩
  all_goals
    have hdue : inputDue s = true := by simp [inputDue, hin]
    refine (step_of_land hin hdue nofun).trans (congrArg _ ?_)
  · exact hostTemperature_of_undefined (s := { s with inputs := rest }) h
  · exact hostTemperature_of_defined (s := { s with inputs := rest }) hv (temperature_of_ne_zero h7)
  · rfl
  · rfl

/-! ### The serial number -/

theorem toNat_append_byte {n : Nat} (x : BitVec n) (b : Byte) : (x ++ b).toNat = x.toNat * 256 + b.toNat := by
  rw [BitVec.toNat_append, ← Nat.shiftLeft_add_eq_or_of_lt b.isLt, Nat.shiftLeft_eq]

/-- R195's sum, term by term. -/
theorem serial_eq_sum (sn : Vector Byte 8) :
    serial sn = sn[1].toNat * 2 ^ 40 + sn[2].toNat * 2 ^ 32 + sn[3].toNat * 2 ^ 24 + sn[4].toNat * 2 ^ 16 +
      sn[5].toNat * 2 ^ 8 + sn[6].toNat * 2 ^ 0 := by
  rw [serial, ← Fin.sum_univ_def, Fin.sum_univ_six]
  rfl

/-- Settles O60: the concatenation, read byte by byte, is R195's sum in Horner's form. -/
theorem serialIsBigEndian : Obligations.SerialIsBigEndian := by
  intro sn
  simp only [toNat_append_byte, serial_eq_sum]
  omega

end Sys2Proof.Machine

/-! # What a step finishes with

spec/60_exceptions.md R210 to R215, R219: the codes a command finishes with, wherever it finishes; a word that stands for no
command; a word written while BUSY = 1; and that every step answers a next state. -/

namespace Sys2Proof.Machine

/-! ### The codes of the result table -/

section
variable {s t u : State} {i : Instr} {ms : List Micro} {w : Word} {p : EchoPolicy}

theorem allowedForWord_of_command (hw : decodeWord w = some i) : allowedForWord p w = allowedResults p i := by
  rw [allowedForWord, hw]

theorem allowedForWord_of_illegal (hw : decodeWord w = none) : allowedForWord p w = [.illegalCommand] := by
  rw [allowedForWord, hw]

/-- A command that is running, however far, is still running or has finished with one of its codes. -/
theorem result_allowed_conclude_run (hms : ∀ m ∈ ms, m ∈ bodyOf i) (hb : s.busy = true)
    (hd : (conclude (run ms s)).busy = false) :
    ∃ c ∈ allowedResults s.policy i, statusResult (conclude (run ms s)).status = resultCode c := by
  obtain ⟨c, hc, hresult, -⟩ := conclude_done i ms hms s hb hd
  exact ⟨c, hc, hresult⟩

theorem Acts.result_allowed (a : Acts s t i ms u) (hd : t.busy = false) :
    ∃ c ∈ allowedResults s.policy i, statusResult t.status = resultCode c := by
  obtain rfl := a.result
  exact a.policy ▸ result_allowed_conclude_run a.part a.busy hd

/-- The command a step acts for is the one in CUR after it, and ECHO_POLICY is a strap. -/
theorem Acts.allowedForWord_eq (a : Acts s t i ms u) : allowedForWord t.policy t.cur = allowedResults s.policy i := by
  obtain ⟨-, hcur, -, hpol, -⟩ := run_untouched ms u
  obtain ⟨kcur, -, kpol, -, -⟩ := conclude_untouched (run ms u)
  obtain rfl := a.result
  rw [kcur, hcur, kpol, hpol, a.policy, allowedForWord_of_command a.word]

theorem Acts.resultFits (a : Acts s t i ms u) : ResultFits t := fun hd =>
  a.allowedForWord_eq ▸ a.result_allowed hd

/-- A step for no command keeps RESULT, CUR and ECHO_POLICY, or writes ILLEGAL_COMMAND for an illegal CUR. -/
theorem Quiet.resultFits (q : Quiet s t) (hs : ResultFits s) : ResultFits t := by
  intro hd
  rcases q.status with ⟨hbusy, hresult, hcur, -⟩ | ⟨-, hresult, hcur, -⟩
  · rw [q.policy, hcur, hresult]
    exact hs (hbusy ▸ hd)
  · exact ⟨.illegalCommand, by simp [allowedForWord_of_illegal hcur], hresult⟩

theorem decodeWord_resetBlock_cur (s : State) : decodeWord (resetBlock s).cur = some .nop :=
  decodeWord_encode .nop

/-- After a block reset RESULT is OK and CUR is NOP's word (spec/10_state.md R34). -/
theorem resultFits_resetBlock (s : State) : ResultFits (resetBlock s) := fun _ =>
  ⟨.ok, by simp [allowedForWord_of_command (decodeWord_resetBlock_cur s), allowedResults], rfl⟩

theorem step_resultFits (hs : ResultFits s) (h : step s = .next t) : ResultFits t := by
  by_cases hr : s.inputs.head? = some .blockReset
  · obtain rfl : resetBlock s.popInput = t := by simpa [step_blockReset hr] using h
    exact resultFits_resetBlock _
  · rcases step_acts decodeWord_encode s t hr h with ⟨i, ms, u, a⟩ | q
    · exact a.resultFits
    · exact q.resultFits hs

/-- A step that acts while BUSY = 1 acts for the command in CUR. -/
theorem decodeWord_cur_of_acting (hb : s.busy = true) (ha : actingCommand s = some i) : decodeWord s.cur = some i := by
  rw [actingCommand, if_pos hb] at ha
  split at ha
  · cases ha
  · exact ha

/-- A step that acts for no command lets no command finish. -/
theorem Quiet.busy_of_running (q : Quiet s t) (hb : s.busy = true) (hw : decodeWord s.cur = some i) : t.busy = true := by
  rcases q.status with ⟨hbusy, -, -, -⟩ | ⟨-, -, -, hillegal⟩
  · exact hbusy.trans hb
  · exact absurd (hw.symm.trans (hillegal hb)) nofun

/-- The running command finishes, in whatever later step, with one of its codes. -/
theorem step_running_result_allowed (hb : s.busy = true) (hw : decodeWord s.cur = some i)
    (hr : s.inputs.head? ≠ some .blockReset) (h : step s = .next t) (hd : t.busy = false) :
    ∃ c ∈ allowedResults s.policy i, statusResult t.status = resultCode c := by
  rcases step_acts decodeWord_encode s t hr h with ⟨j, ms, u, a⟩ | q
  · obtain rfl : j = i := Option.some.inj ((decodeWord_cur_of_acting hb a.acting).symm.trans hw)
    exact a.result_allowed hd
  · exact absurd ((q.busy_of_running hb hw).symm.trans hd) nofun

end

/-- Settles O46: an acceptance and a later step both run part of the command's body, which `conclude_done` speaks of, and a step
that acts for no command writes no code but ILLEGAL_COMMAND. -/
theorem commandsFinishOnlyWithTheirCodes : Obligations.CommandsFinishOnlyWithTheirCodes := by
  refine ⟨fun s i hb => ?_, fun s t i hb hw hr h hd => ?_, fun s t => step_resultFits⟩
  · exact ⟨_, exec_of_idle i hb, result_allowed_conclude_run (fun _ => id) (accept_busy _ s)⟩
  · exact step_running_result_allowed hb hw hr h hd

/-! ### Illegal words and overruns -/

section
variable {s : State} {w : Word} {rest : List Input}

theorem decodeWord_eq_none_iff : decodeWord w = none ↔ validWord w = false := by
  obtain ⟨-, hvalid⟩ := decoderAcceptsExactlyTheOpcodeMap w
  rw [← Option.not_isSome_iff_eq_none, hvalid, Bool.not_eq_true]

/-- An illegal word is an input that is due, so `step` takes it, whether the block is idle or busy. -/
theorem step_of_illegalWord (hin : s.inputs = .command w :: rest) (hw : decodeWord w = none) :
    step s = .next (execIllegal w { s with inputs := rest }) := by
  have hdue : inputDue s = true := by simp [inputDue, hin]
  have hpop : s.popInput = { s with inputs := rest } := by simp [State.popInput, hin]
  simp [step, hdue, hin, hw, hpop]

theorem execIllegal_of_idle (w : Word) (hb : s.busy = false) : execIllegal w s = finish .illegalCommand (accept w s) := by
  rw [execIllegal, hb, if_neg Bool.false_ne_true]

theorem execIllegal_of_busy (w : Word) (hb : s.busy = true) : execIllegal w s = overrun s := by
  rw [execIllegal, if_pos hb]

theorem exec_of_busy (i : Instr) (hb : s.busy = true) : exec i s = .next (overrun s) := by
  rw [exec_eq_issue, issue, if_pos hb]

/-- Legal or not, a word written while BUSY = 1 is an overrun. -/
theorem step_of_word_busy (hb : s.busy = true) (hin : s.inputs = .command w :: rest) :
    step s = .next (overrun { s with inputs := rest }) := by
  cases hw : decodeWord w with
  | some i => rw [stepRunsTheDecodedCommand s w i rest hin hw, exec_of_busy (s := { s with inputs := rest }) i hb]
  | none => rw [step_of_illegalWord hin hw, execIllegal_of_busy (s := { s with inputs := rest }) w hb]

theorem step_of_illegalWord_idle (hb : s.busy = false) (hin : s.inputs = .command w :: rest) (hw : decodeWord w = none) :
    step s = .next (finish .illegalCommand (accept w { s with inputs := rest })) := by
  rw [step_of_illegalWord hin hw, execIllegal_of_idle (s := { s with inputs := rest }) w hb]

/-- Legal or not, a word written to an idle block is accepted, which clears OVR. -/
theorem step_of_word_idle_ovr (hb : s.busy = false) (hin : s.inputs = .command w :: rest) :
    ∃ t, step s = .next t ∧ statusOvr t.status = false := by
  cases hw : decodeWord w with
  | some i =>
    obtain ⟨t, ht, -, hovr, -⟩ := acceptanceKeepsTheOldResult { s with inputs := rest } i hb
    exact ⟨t, (stepRunsTheDecodedCommand s w i rest hin hw).trans ht, hovr⟩
  | none => exact ⟨_, step_of_illegalWord_idle hb hin hw, by simp⟩

end

/-- Settles O9: a busy block answers every word with `overrun`, an idle one with an acceptance. -/
theorem wordWrittenWhileBusyIsIgnored : Obligations.WordWrittenWhileBusyIsIgnored := by
  refine ⟨fun s w rest hb hin => ?_, fun s w rest => step_of_word_idle_ovr⟩
  have hbusy : statusBusy s.status = true := hb
  exact ⟨_, step_of_word_busy hb hin, by simp, by simp [hbusy], by simp, by simp, rfl⟩

/-- Settles O8: the acceptance and `finish` write STATUS, CUR and SEQPOS alone. -/
theorem illegalWordFinishesWithIllegalCommand : Obligations.IllegalWordFinishesWithIllegalCommand := by
  intro s w rest hb hin hw
  exact ⟨_, step_of_illegalWord_idle hb hin (decodeWord_eq_none_iff.mpr hw), finishedWith_finish rfl, rfl⟩

/-! ### No step stops -/

/-- Settles O11: the meaning of every command is its word issued, and `issue` always answers a state. -/
theorem everyStepAnswersANextState : Obligations.EveryStepAnswersANextState := by
  intro s
  rcases step_cases s with ⟨-, -, hs⟩ | ⟨-, -, hs⟩ | ⟨w, -, ⟨i, -, hs⟩ | ⟨-, hs⟩⟩ | ⟨x, -, -, -, hs⟩
  · exact ⟨_, hs⟩
  · exact ⟨_, hs⟩
  · exact ⟨_, hs.trans (exec_eq_issue i s.popInput)⟩
  · exact ⟨_, hs⟩
  · exact ⟨_, hs⟩

end Sys2Proof.Machine

/-! # Block reset and the bodies' lengths

spec/70_reset_and_hazards.md R240, R241, R242: what a block reset writes and what it leaves alone; R250: how many transport
events each command's body has. -/

namespace Sys2Proof.Machine

/-! ### Block reset -/

/-- R240: the block's registers as they are right after reset. -/
theorem resetBlock_registers (s : State) :
    (resetBlock s).status = 0x00 ∧ (resetBlock s).rxdata = 0x00 ∧ (resetBlock s).rxraw = 0x00 ∧ (resetBlock s).crc = 0x00 ∧
      (resetBlock s).sn = Vector.replicate 8 0x00 ∧ (resetBlock s).sp = Vector.replicate 9 0x00 :=
  ⟨rfl, rfl, rfl, rfl, rfl, rfl⟩

/-- R240: the internal registers and PHASE as they are right after reset. -/
theorem resetBlock_internals (s : State) :
    (resetBlock s).seqpos = 0 ∧ (resetBlock s).shift = 0x00 ∧ (resetBlock s).bitcnt = 0 ∧ (resetBlock s).bytecnt = 0 ∧
      (resetBlock s).cur = 0x0000 ∧ (resetBlock s).phase = .idle :=
  ⟨rfl, rfl, rfl, rfl, rfl, rfl⟩

/-- R241: with no command to abandon, the transport's rate is left alone. -/
theorem resetBlock_baud_of_idle {s : State} (hb : s.busy = false) : (resetBlock s).baud = s.baud := by
  simp [resetBlock, hb]

/-- Settles O19: the reset lands at once, on an idle and on a busy block, and what it leaves is `resetBlock`. -/
theorem blockResetAbandonsAndClears : Obligations.BlockResetAbandonsAndClears := by
  intro s rest hin
  obtain ⟨hstatus, hrxdata, hrxraw, hcrc, hsn, hsp⟩ := resetBlock_registers s.popInput
  obtain ⟨hseqpos, hshift, hbitcnt, hbytecnt, hcur, hphase⟩ := resetBlock_internals s.popInput
  have hrest : (resetBlock s.popInput).inputs = rest := by simp [hin]
  exact ⟨_, step_blockReset (by simp [hin]), hstatus, hrxdata, hrxraw, hcrc, hsn, hsp, hseqpos, hshift, hbitcnt, hbytecnt,
    hcur, hphase, rfl, rfl, rfl, rfl, fun hb => resetBlock_baud_of_idle (s := s.popInput) hb, hrest⟩

/-! ### Counting events -/

@[simp] theorem eventCount_nil : eventCount [] = 0 := rfl

@[simp] theorem eventCount_cons (m : Micro) (ms : List Micro) :
    eventCount (m :: ms) = eventCount ms + if isEvent m then 1 else 0 :=
  List.countP_cons

@[simp] theorem eventCount_append (ms ms' : List Micro) : eventCount (ms ++ ms') = eventCount ms + eventCount ms' :=
  List.countP_append

/-- Pieces with n events each. -/
theorem eventCount_flatMap {α : Type} {f : α → List Micro} {n : Nat} (h : ∀ a, eventCount (f a) = n) (l : List α) :
    eventCount (l.flatMap f) = l.length * n := by
  induction l with
  | nil => simp
  | cons a l ih => rw [List.flatMap_cons, eventCount_append, h, ih, List.length_cons, Nat.succ_mul, Nat.add_comm]

/-! ### The bodies' lengths

A byte is the rate's selection and eight exchanges of three events; a sequence is the sum of its parts (R160). -/

@[simp] theorem eventCount_selectHigh : eventCount selectHigh = 2 := rfl

@[simp] theorem eventCount_bitExchange (b : Bool) (use : BitUse) : eventCount (bitExchange b use) = 2 := rfl

@[simp] theorem eventCount_owWriteBitBody (v : Bool) : eventCount (owWriteBitBody v) = 5 := by
  simp [owWriteBitBody, isEvent]

@[simp] theorem eventCount_owReadBitBody : eventCount owReadBitBody = 5 := by simp [owReadBitBody, isEvent]

@[simp] theorem eventCount_owResetBody : eventCount owResetBody = 5 := rfl

theorem eventCount_writeSlot (d : Byte) (i : Fin 8) : eventCount (writeSlot d i) = 3 := by simp [writeSlot, isEvent]

theorem eventCount_readSlot (i : Fin 8) : eventCount (readSlot i) = 3 := by simp [readSlot, isEvent]

@[simp] theorem eventCount_owWriteByteBody (d : Byte) : eventCount (owWriteByteBody d) = 26 := by
  simp [owWriteByteBody, isEvent, eventCount_flatMap (eventCount_writeSlot d)]

@[simp] theorem eventCount_owReadByteBody : eventCount owReadByteBody = 26 := by
  simp [owReadByteBody, isEvent, eventCount_flatMap eventCount_readSlot]

theorem eventCount_readSnByte (k : Fin 8) : eventCount (readSnByte k) = 26 := by simp [readSnByte, isEvent]

/-- The ninth byte is not folded into CRC, and folding is no event. -/
theorem eventCount_readSpByte (k : Fin 9) : eventCount (readSpByte k) = 26 := by
  by_cases hk : k.val < 8 <;> simp [readSpByte, isEvent, hk]

@[simp] theorem eventCount_crcInitBody : eventCount crcInitBody = 0 := rfl

@[simp] theorem eventCount_readBlockSn : eventCount readBlockSn = 8 * 26 := by
  simp [readBlockSn, isEvent, eventCount_flatMap eventCount_readSnByte]

@[simp] theorem eventCount_readBlockSp : eventCount readBlockSp = 9 * 26 := by
  simp [readBlockSp, isEvent, eventCount_flatMap eventCount_readSpByte]

@[simp] theorem eventCount_seqConvertBody : eventCount seqConvertBody = 5 + 26 + 26 := by simp [seqConvertBody]

theorem eventCount_seqReadRomBody : eventCount seqReadRomBody = 5 + 26 + 8 * 26 := by simp [seqReadRomBody, isEvent]

@[simp] theorem eventCount_seqReadScratchpadBody : eventCount seqReadScratchpadBody = 5 + 26 + 26 + 9 * 26 := by
  simp [seqReadScratchpadBody, isEvent]

theorem eventCount_seqPollReadBody : eventCount seqPollReadBody = 5 + 291 := by simp [seqPollReadBody, isEvent]

/-- A conversion, one poll and a read of the scratchpad. -/
theorem eventCount_seqBlockingReadBody : eventCount seqBlockingReadBody = 57 + (5 + 291) := by
  simp [seqBlockingReadBody, isEvent]

/-- Settles O6, body by body. -/
theorem bodiesHaveTheSpecsLengths : Obligations.BodiesHaveTheSpecsLengths :=
  ⟨eventCount_nil, eventCount_crcInitBody, fun _ => rfl, eventCount_owResetBody, eventCount_owWriteBitBody,
    eventCount_owReadBitBody, eventCount_owWriteByteBody, eventCount_owReadByteBody, eventCount_seqConvertBody,
    eventCount_seqReadRomBody, eventCount_seqReadScratchpadBody, eventCount_seqPollReadBody, eventCount_seqBlockingReadBody⟩

end Sys2Proof.Machine
